-- ==== Sys2Proof/Word.lean ====
section
/-! DEFINITION. The widths the spec names (rule R10): u8, u16 and u32 as bit vectors, whose arithmetic wraps. -/

namespace Sys2Proof

/-- `u8`: one byte of a stream, a buffer or a channel (rule R10). -/
abbrev Byte := BitVec 8

/-- `u16`: a segment's length field and the counters derived from it (rule R10). -/
abbrev Half := BitVec 16

/-- `u32`: a register of the window, the byte-offset counter (rules R10, R34). -/
abbrev Word := BitVec 32

end Sys2Proof
end

