-- ==== Sys2Proof/Config.lean ====
section
/-! DEFINITION. What an implementation of the block fixes (rule R7): the open parameters, as plain data, and the
values a block built by an unnamed implementer has. -/

namespace Sys2Proof

/-- The parameters of rule R7 whose value the spec leaves to the implementer. `POS_WIDTH` (32), `SEGBUF_BYTES` and
`MAX_CHUNKS` are fixed and stand as constants below. Depths are held less one, so that a depth is at least 1 whatever the
data says. The record is carried in the state so that one step function serves every build; no step changes it (log entry 1). -/
structure Params where
  /-- `IN_DEPTH` less one. -/
  inDepthLessOne : Nat
  /-- `OUT_DEPTH` less one. -/
  outDepthLessOne : Nat
  /-- `CSR_BASE` divided by 256: the base is 256-byte aligned. -/
  csrPage : Nat
  /-- `ICC_MEM_BYTES`, the capacity of the ICC slot memory in bytes. -/
  iccMemBytes : Nat
  deriving DecidableEq, Repr

/-- `IN_DEPTH`: the capacity of the input channel in items, at least 1 (rule R7). -/
def Params.inDepth (p : Params) : Nat := p.inDepthLessOne + 1

/-- `OUT_DEPTH`: the capacity of the output channel in bytes, at least 1 (rule R7). -/
def Params.outDepth (p : Params) : Nat := p.outDepthLessOne + 1

/-- `CSR_BASE`: the base of the 256-byte register window, 256-byte aligned (rule R7). -/
def Params.csrBase (p : Params) : Nat := 256 * p.csrPage

/-- `IN_DEPTH - 1` of the block that `State.reset` describes: an open value, so nothing is known of it (rule R7, D2). -/
opaque Config.inDepthLessOne : Nat

/-- `OUT_DEPTH - 1` of the block that `State.reset` describes: an open value (rule R7, D3). -/
opaque Config.outDepthLessOne : Nat

/-- `CSR_BASE / 256` of the block that `State.reset` describes: an open value (rule R7, D5). -/
opaque Config.csrPage : Nat

/-- The default of `ICC_MEM_BYTES`, 255 x 65,519: the largest profile the wire format can carry (rules R7, R256). -/
def Config.iccMemBytesDefault : Nat := 16707345

/-- The build parameters of the block that `State.reset` describes: the open ones open, the capacity at its default. -/
def Config.params : Params where
  inDepthLessOne := Config.inDepthLessOne
  outDepthLessOne := Config.outDepthLessOne
  csrPage := Config.csrPage
  iccMemBytes := Config.iccMemBytesDefault

/-- `SEGBUF_BYTES`: the capacity of the segment buffer (rule R7, fixed). -/
def Config.segbufBytes : Nat := 65533

/-- `MAX_CHUNKS`: the number of ICC slots (rule R7, fixed). -/
def Config.maxChunks : Nat := 255

/-- The largest chunk payload: the largest segment payload less the 14-byte header (rules R56, R267). -/
def Config.maxChunkBytes : Nat := 65519

end Sys2Proof
end

