-- ==== Sys2Proof/Syntax.lean ====
section
/-! DEFINITION. The instructions of the block: one constructor per row of spec/opcode_table.json (rules R2, R165). -/

namespace Sys2Proof

/-- One engine step over a SEGMENT structure. The engine reads a segment one byte a step (rules R20, R112), so a SEGMENT
executes as its length bytes and then its payload bytes, in wire order (rules R159, R231 to R235). -/
inductive SegmentPart where
  /-- `LEN_HI`: the high byte of `L`, at the segment's offset (rule R231). -/
  | lengthHigh (hi : Byte)
  /-- `LEN_LO`: the low byte of `L`, which completes the length field `L = hi << 8 | lo` (rule R232). -/
  | lengthLow (hi lo : Byte)
  /-- `BODY`: one payload byte (rules R234, R235). -/
  | payload (v : Byte)
  deriving DecidableEq, Repr

/-- The instructions (rule R2): the host's commands, the pair classes and wire structures the engine decodes on its input,
and the two structures it emits. -/
inductive Instr where
  /-- OPEN (rule R285): start a new session on a new stream. -/
  | openSession
  /-- READ_SOI (rule R286). -/
  | readSoi
  /-- GET_SEGMENT with its TARGET byte (rule R288). -/
  | getSegment (target : Byte)
  /-- GET_COMMON_APP (rule R292). -/
  | getCommonApp
  /-- GET_ICC (rule R294). -/
  | getIcc
  /-- DESYNC: a pair whose `b0` is not `0xFF` (rule R203). -/
  | desync (b0 b1 : Byte)
  /-- STUFF: the pair `FF 00` (rule R204). -/
  | stuff
  /-- FILL: the pair `FF FF` (rule R205). -/
  | fill
  /-- EOI: the pair `FF D9` (rule R206). -/
  | eoi
  /-- RST: the pair `FF D0+n` (rule R207). -/
  | rst (n : BitVec 3)
  /-- MARKER: the pair `FF code` for every other code (rule R208). -/
  | marker (code : Byte)
  /-- SOI: the pair `FF D8` that opens a stream (rules R156, R286). -/
  | soi
  /-- SEGMENT: one step over a segment's length field and payload (rule R159). -/
  | segment (part : SegmentPart)
  /-- ICC_CHUNK: an APP2 payload that carries the 12-byte signature (rule R161). -/
  | iccChunk (seq cnt : Byte) (payload : List Byte)
  /-- SEGMENT_RECORD: the record of a kept segment, pushed one byte a step (rules R160, R291). -/
  | segmentRecord (marker : Byte) (offset : Word) (size : Half) (payload : List Byte)
  /-- ICC_PROFILE_OUT: the assembled profile as its slots `SLOT[1] .. SLOT[ICC_TOTAL]`, pushed one byte a step
  (rules R164, R260). -/
  | iccProfileOut (slots : List (List Byte))
  deriving DecidableEq, Repr

end Sys2Proof
end

