-- ==== Sys2Proof/WellFormed.lean ====
section
/-! DEFINITION. Which terms of `Instr` stand for a row of the opcode table: the conditions the table and the wire formats
put on a row's fields. -/

namespace Sys2Proof

/-- The codes of class MARKER: `0x01..0xCF`, `0xD8`, `0xDA..0xFE` (rule R158). -/
def isMarkerCode (code : Byte) : Bool :=
  (0x01 ≤ code.toNat && code.toNat ≤ 0xCF) || code.toNat == 0xD8 || (0xDA ≤ code.toNat && code.toNat ≤ 0xFE)

/-- The check of a term's fields. Every TARGET is legal (rule R152), a length field of 0 or 1 is decoded and then fails as
an error of the segment (rule R232), and a sequence or count byte of any value is decoded and then checked by the
assembler (rules R253 to R255): none of these is a condition on the term. -/
def WellFormed : Instr → Bool
  | .openSession => true
  | .readSoi => true
  | .getSegment _ => true
  | .getCommonApp => true
  | .getIcc => true
  | .desync b0 _ => b0 != 0xFF#8
  | .stuff => true
  | .fill => true
  | .eoi => true
  | .rst _ => true
  | .marker code => isMarkerCode code
  | .soi => true
  | .segment _ => true
  | .iccChunk _ _ payload => payload.length ≤ Config.maxChunkBytes
  | .segmentRecord _ _ size payload => payload.length == size.toNat && size.toNat ≤ Config.segbufBytes
  | .iccProfileOut slots =>
    1 ≤ slots.length && slots.length ≤ Config.maxChunks && slots.all fun p => p.length ≤ Config.maxChunkBytes

end Sys2Proof
end

