-- ==== Sys2Proof/Decode.lean ====
section
/-! DEFINITION. The decoders and, after them, the encoders of spec/30_encoding.md: the command word, the marker pairs, the
segment bytes, the ICC chunk, the segment record and the assembled profile. -/

namespace Sys2Proof

/-- What a decoder is given: the bits of one instruction together with the place they are read at. The same two bytes mean
different things at the start of a stream and inside a scan (rules R156, R158), and a segment's bytes are read by position
(rule R159). -/
inductive Code where
  /-- A word written to CMD (rule R150). -/
  | command (w : Word)
  /-- The first two bytes of a stream (rule R156). -/
  | startPair (b0 b1 : Byte)
  /-- A candidate pair of the scanner (rule R158). -/
  | scanPair (b0 b1 : Byte)
  /-- The first byte of a length field (rule R159). -/
  | lengthHigh (hi : Byte)
  /-- A complete length field (rule R159). -/
  | lengthLow (hi lo : Byte)
  /-- A payload byte of a segment (rule R159). -/
  | payload (v : Byte)
  /-- The whole payload of an APP2 segment met by GET_ICC (rule R161). -/
  | app2 (data : List Byte)
  /-- The bytes of a segment record (rule R160). -/
  | record (bytes : List Byte)
  /-- The bytes of an assembled profile, with the slot lengths that divide them, since it has no framing (rule R164). -/
  | profile (lengths : List Nat) (bytes : List Byte)
  deriving DecidableEq, Repr

/-- Why bits are no instruction. The first three have an effect the spec gives (an error or a rejection, raised where the
bits are fetched); the last two are the output formats, which only a host reads. -/
inductive Undecoded where
  /-- A reserved command word (rule R153): rejected with BAD_OPCODE. -/
  | badOpcode
  /-- The first two bytes of a stream are not `FF D8` (rule R286): MISSING_SOI. -/
  | missingSoi
  /-- An APP2 payload under 14 bytes or without the signature (rules R251, R252): INVALID_ICC_HEADER. -/
  | invalidIccHeader
  /-- Bytes that are no segment record (rule R160). -/
  | badRecord
  /-- Bytes that the given slot lengths do not divide (rule R164). -/
  | badProfile
  deriving DecidableEq, Repr

/-- A decoder's answer. -/
inductive Decoded where
  | instr (i : Instr)
  | rejected (why : Undecoded)
  deriving DecidableEq, Repr

/-- The instruction of an answer, if there is one. -/
def Decoded.toOption : Decoded → Option Instr
  | .instr i => some i
  | .rejected _ => none

/-! ### Fields and byte order -/

/-- `OPC = w[3:0]` (rule R150). -/
def cmdOpc (w : Word) : BitVec 4 := w.extractLsb' 0 4

/-- `TARGET = w[15:8]` (rules R150, R152). -/
def cmdTarget (w : Word) : Byte := w.extractLsb' 8 8

/-- A 1 in `w[7:4]` or in `w[31:16]` (rules R150, R153). -/
def cmdReservedSet (w : Word) : Bool := w.extractLsb' 4 4 != 0#4 || w.extractLsb' 16 16 != 0#16

/-- A two-byte big-endian field, the first byte the most significant (rules R107, R162). -/
def be16 (hi lo : Byte) : Half := hi ++ lo

/-- A four-byte big-endian field (rule R108). -/
def be32 (b3 b2 b1 b0 : Byte) : Word := b3 ++ b2 ++ b1 ++ b0

/-- The two bytes of a u16, most significant first (rules R107, R108). -/
def bytes16 (v : Half) : List Byte := [v.extractLsb' 8 8, v.extractLsb' 0 8]

/-- The four bytes of a u32, most significant first (rule R108). -/
def bytes32 (v : Word) : List Byte :=
  [v.extractLsb' 24 8, v.extractLsb' 16 8, v.extractLsb' 8 8, v.extractLsb' 0 8]

/-- The 12-byte signature: ASCII `ICC_PROFILE` and a null byte (rules R11, R161, R252). -/
def iccSignature : List Byte := [0x49, 0x43, 0x43, 0x5F, 0x50, 0x52, 0x4F, 0x46, 0x49, 0x4C, 0x45, 0x00]

/-! ### Decoders -/

/-- A command other than GET_SEGMENT: its TARGET must be 0 (rule R153). -/
def decodeNoTarget (target : Byte) (i : Instr) : Decoded :=
  if target = 0#8 then .instr i else .rejected .badOpcode

/-- The command word (rules R150 to R153). -/
def decodeCommand (w : Word) : Decoded :=
  if cmdReservedSet w then .rejected .badOpcode
  else if cmdOpc w = 0x1#4 then decodeNoTarget (cmdTarget w) .openSession
  else if cmdOpc w = 0x2#4 then decodeNoTarget (cmdTarget w) .readSoi
  else if cmdOpc w = 0x3#4 then .instr (.getSegment (cmdTarget w))
  else if cmdOpc w = 0x4#4 then decodeNoTarget (cmdTarget w) .getCommonApp
  else if cmdOpc w = 0x5#4 then decodeNoTarget (cmdTarget w) .getIcc
  else .rejected .badOpcode

/-- The first two bytes of a stream: the SOI pair and nothing else, with no skipping of fill bytes (rules R156, R286). -/
def decodeSoi (b0 b1 : Byte) : Decoded :=
  if b0 = 0xFF#8 ∧ b1 = 0xD8#8 then .instr .soi else .rejected .missingSoi

/-- A candidate pair of the scanner, in the priority order of rules R158 and R202. Every pair has a class. -/
def decodePair (b0 b1 : Byte) : Instr :=
  if b0 ≠ 0xFF#8 then .desync b0 b1
  else if b1 = 0x00#8 then .stuff
  else if b1 = 0xFF#8 then .fill
  else if b1 = 0xD9#8 then .eoi
  else if 0xD0 ≤ b1.toNat ∧ b1.toNat ≤ 0xD7 then .rst (b1.extractLsb' 0 3)
  else .marker b1

/-- An APP2 payload: the size check first, then the signature, exact and byte for byte (rules R161, R251, R252). A list
longer than any segment payload is no APP2 payload. -/
def decodeChunk (data : List Byte) : Decoded :=
  if data.length < 14 ∨ Config.segbufBytes < data.length then .rejected .invalidIccHeader
  else if data.take 12 ≠ iccSignature then .rejected .invalidIccHeader
  else match data.drop 12 with
    | seq :: cnt :: payload => .instr (.iccChunk seq cnt payload)
    | _ => .rejected .invalidIccHeader

/-- A segment record (rule R160): self-delimiting through its size field. -/
def decodeRecord : List Byte → Decoded
  | m :: o3 :: o2 :: o1 :: o0 :: z1 :: z0 :: payload =>
    if payload.length = (be16 z1 z0).toNat ∧ (be16 z1 z0).toNat ≤ Config.segbufBytes then
      .instr (.segmentRecord m (be32 o3 o2 o1 o0) (be16 z1 z0) payload)
    else .rejected .badRecord
  | _ => .rejected .badRecord

/-- The length that a record says it has, by its size field (rule R160); 7 for a sequence too short to have one. -/
def recordLength (bytes : List Byte) : Nat :=
  match bytes.drop 5 with
  | z1 :: z0 :: _ => 7 + (be16 z1 z0).toNat
  | _ => 7

/-- Records read off one after the other, at most as many as the first argument says. -/
def splitRecordsUpTo : Nat → List Byte → Option (List Instr)
  | _, [] => some []
  | 0, _ :: _ => none
  | n + 1, b :: rest =>
    match decodeRecord ((b :: rest).take (recordLength (b :: rest))) with
    | .instr i => (splitRecordsUpTo n ((b :: rest).drop (recordLength (b :: rest)))).map (i :: ·)
    | .rejected _ => none

/-- The records a byte sequence is made of, self-delimiting through their size fields, if it is made of whole records
(rules R160, R383). -/
def splitRecords (bytes : List Byte) : Option (List Instr) := splitRecordsUpTo bytes.length bytes

/-- Cut a byte sequence into pieces of the given lengths, which must use it up. -/
def splitLengths : List Nat → List Byte → Option (List (List Byte))
  | [], [] => some []
  | [], _ :: _ => none
  | n :: ns, bytes =>
    if n ≤ bytes.length then (splitLengths ns (bytes.drop n)).map (bytes.take n :: ·) else none

/-- An assembled profile with its slot lengths (rules R164, R267). -/
def decodeProfile (lengths : List Nat) (bytes : List Byte) : Decoded :=
  if 1 ≤ lengths.length ∧ lengths.length ≤ Config.maxChunks ∧ lengths.all (· ≤ Config.maxChunkBytes) then
    match splitLengths lengths bytes with
    | some slots => .instr (.iccProfileOut slots)
    | none => .rejected .badProfile
  else .rejected .badProfile

/-- The decoder, total on any bits at any place. -/
def decode : Code → Decoded
  | .command w => decodeCommand w
  | .startPair b0 b1 => decodeSoi b0 b1
  | .scanPair b0 b1 => .instr (decodePair b0 b1)
  | .lengthHigh hi => .instr (.segment (.lengthHigh hi))
  | .lengthLow hi lo => .instr (.segment (.lengthLow hi lo))
  | .payload v => .instr (.segment (.payload v))
  | .app2 data => decodeChunk data
  | .record bytes => decodeRecord bytes
  | .profile lengths bytes => decodeProfile lengths bytes

/-! ### Encoders -/

/-- The layout of rule R150: reserved, TARGET, reserved, OPC. -/
def commandWord (target : Byte) (opc : BitVec 4) : Word := 0#16 ++ target ++ 0#4 ++ opc

/-- The second byte of a restart marker, `0xD0 + n` (rules R158, R207). -/
def rstCode (n : BitVec 3) : Byte := 0x1A#5 ++ n

/-- The payload of an APP2 segment that carries a chunk (rule R161). -/
def encodeChunk (seq cnt : Byte) (payload : List Byte) : List Byte := iccSignature ++ seq :: cnt :: payload

/-- The bytes of a record's header (rule R160). -/
def recordHeader (marker : Byte) (offset : Word) (size : Half) : List Byte := marker :: (bytes32 offset ++ bytes16 size)

/-- A segment record (rule R160): `7 + size` bytes. -/
def encodeRecord (marker : Byte) (offset : Word) (size : Half) (payload : List Byte) : List Byte :=
  recordHeader marker offset size ++ payload

/-- The assembled profile, with no framing (rule R164). -/
def encodeProfile (slots : List (List Byte)) : List Byte := slots.flatten

/-- The encoder, from the same tables. -/
def encode : Instr → Code
  | .openSession => .command (commandWord 0x00 0x1)
  | .readSoi => .command (commandWord 0x00 0x2)
  | .getSegment target => .command (commandWord target 0x3)
  | .getCommonApp => .command (commandWord 0x00 0x4)
  | .getIcc => .command (commandWord 0x00 0x5)
  | .desync b0 b1 => .scanPair b0 b1
  | .stuff => .scanPair 0xFF 0x00
  | .fill => .scanPair 0xFF 0xFF
  | .eoi => .scanPair 0xFF 0xD9
  | .rst n => .scanPair 0xFF (rstCode n)
  | .marker code => .scanPair 0xFF code
  | .soi => .startPair 0xFF 0xD8
  | .segment (.lengthHigh hi) => .lengthHigh hi
  | .segment (.lengthLow hi lo) => .lengthLow hi lo
  | .segment (.payload v) => .payload v
  | .iccChunk seq cnt payload => .app2 (encodeChunk seq cnt payload)
  | .segmentRecord marker offset size payload => .record (encodeRecord marker offset size payload)
  | .iccProfileOut slots => .profile (slots.map List.length) (encodeProfile slots)

/-- A whole segment on the wire: the marker pair, the length field `L`, which counts itself, and the payload (rule R159). -/
def wireSegment (code : Byte) (payload : List Byte) : List Byte :=
  0xFF :: code :: (bytes16 (BitVec.ofNat 16 (payload.length + 2)) ++ payload)

/-- The instructions a whole segment is read as: its marker, its two length bytes and its payload bytes (rules R159, R163). -/
def segmentInstrs (code : Byte) (payload : List Byte) : List Instr :=
  let l := BitVec.ofNat 16 (payload.length + 2)
  .marker code :: .segment (.lengthHigh (l.extractLsb' 8 8)) ::
    .segment (.lengthLow (l.extractLsb' 8 8) (l.extractLsb' 0 8)) :: payload.map (fun v => .segment (.payload v))

/-! ### The opcode table's words -/

/-- Byte `k` of a row's number, counted from the least significant byte. -/
def tableByte (w k : Nat) : Byte := BitVec.ofNat 8 (w >>> (8 * k))

/-- A row's word as the bits a decoder reads. The table numbers a wire structure as one number whose FIRST byte is the most
significant (`b0 << 8 | b1`, rule R165). A 16-bit word is a pair: `FF D8` is read where a stream starts, which is the SOI
row, and every other pair as the scanner reads it. A 32-bit word is a command, or, when it is no legal command and begins
with a marker pair, the head `FF c L L` of a SEGMENT, which is read as its length field. 56 bits are a record header, 112 an
ICC chunk header, and a row of no bits is the profile: what lies above the row's bits is zero bytes (log entry 4). -/
def tableCode (nbits w : Nat) : Option Code :=
  if nbits = 16 then
    if w = 0xFFD8 then some (.startPair 0xFF 0xD8) else some (.scanPair (tableByte w 1) (tableByte w 0))
  else if nbits = 32 then
    if (decodeCommand (BitVec.ofNat 32 w)).toOption.isNone && tableByte w 3 == 0xFF#8 && isMarkerCode (tableByte w 2) then
      some (.lengthLow (tableByte w 1) (tableByte w 0))
    else some (.command (BitVec.ofNat 32 w))
  else if nbits = 56 then
    some (.record ((List.range 7).reverse.map (tableByte w) ++
      List.replicate (be16 (tableByte w 1) (tableByte w 0)).toNat 0x00#8))
  else if nbits = 112 then some (.app2 ((List.range 14).reverse.map (tableByte w)))
  else if nbits = 0 then some (.profile [1] [0x00])
  else none

/-- The instruction the decoder reads from a word numbered as spec/opcode_table.json numbers it. -/
def decodeTableWord (nbits w : Nat) : Option Instr :=
  match tableCode nbits w with
  | some c => (decode c).toOption
  | none => none

end Sys2Proof
end

