-- ==== Sys2Proof/Machine/State.lean ====
section
/-! DEFINITION. The state of the block (spec/10_state.md), with the host's agenda and what the host has seen, as plain
data; the reasons a step can stop; the state right after reset. -/

namespace Sys2Proof.Machine

/-- The session state SSTATE (rule R33). Codes 5 to 7 are never entered and have no constructor. -/
inductive SState where
  | start | ready | eoi | error | closed
  deriving DecidableEq, Repr

/-- The engine's micro-state ESTATE (rule R31). -/
inductive EState where
  | idle | soi0 | soi1 | scanB0 | scanB1 | lenHi | lenLo | body | assemble | emitSeg | emitIcc
  deriving DecidableEq, Repr

/-- The operation register OP (rule R60): the reset value 0, or the OPC of the last accepted command. -/
inductive Opcode where
  | none | openSession | readSoi | getSegment | getCommonApp | getIcc
  deriving DecidableEq, Repr

/-- RESULT.RESULT (rule R44). Codes 10 to 15 are never produced. -/
inductive ResultCode where
  | none | ok | segment | noSegment | listDone | iccPresent | iccAbsent | iccIncomplete | error | illegalCommand
  deriving DecidableEq, Repr

/-- RESULT.ERR (rule R45). Codes 10 to 15 are never produced. -/
inductive ErrCode where
  | none | ioError | missingSoi | invalidSegmentLength | invalidIccHeader | invalidSequenceNumber
  | inconsistentChunkCount | capacity | badOpcode | badState
  deriving DecidableEq, Repr

/-- RESULT.IO_CAUSE (rule R46). Value 3 is never produced. -/
inductive IoCause where
  | none | eof | fault
  deriving DecidableEq, Repr

/-- The RESULT register's fields (rules R44 to R46). -/
structure ResultReg where
  code : ResultCode
  err : ErrCode
  ioCause : IoCause
  ioCode : Byte
  deriving DecidableEq, Repr

/-- One item of the input channel (rule R101). -/
inductive Item where
  | byte (v : Byte)
  | endOfStream
  | fault (c : Byte)
  deriving DecidableEq, Repr

/-- The width of a host access (rule R35 (a)). -/
inductive Width where
  | byte | half | word
  deriving DecidableEq, Repr

/-- One turn of the system (rules R8, R16): the engine's, one action of the host, or the reset input. `waitDone` and
`drainAll` are the host's loops WAIT_DONE and DRAIN_ALL (rule R155). Offsets are counted from `CSR_BASE` (rule R34). -/
inductive Move where
  /-- The engine's turn. -/
  | engine
  /-- The host reads a register. -/
  | read (offset : BitVec 8) (width : Width)
  /-- The host writes a register. -/
  | write (offset : BitVec 8) (width : Width) (data : Word)
  /-- The host pushes an item into the input channel. -/
  | push (item : Item)
  /-- The host pops a byte from the output channel. -/
  | pop
  /-- The host pops until the output channel is empty. -/
  | drainAll
  /-- The host polls STATUS until BUSY is 0 and DONE is 1, popping output meanwhile. -/
  | waitDone
  /-- The hardware reset input is asserted. -/
  | reset
  deriving DecidableEq, Repr

/-- One thing the host has observed (rule R17) or, for the count of rule R383, done. -/
inductive Seen where
  /-- The host issued a command: it wrote this word to CMD while BUSY was 0 (rules R280, R383). -/
  | issued (w : Word)
  /-- A register read returned this value. -/
  | value (offset : BitVec 8) (data : Word)
  /-- A pop returned this byte. -/
  | byte (b : Byte)
  deriving DecidableEq, Repr

/-- SEGBUF (rule R104): cells of index and byte, indices strictly rising, only entries that have been written. -/
abbrev Memory := List Host.Cell

/-- The slot file (rules R56, R105): the valid entries, as sequence number and chunk payload, numbers strictly rising. An
entry that is not listed is not valid and holds no bytes; `SLEN[s]` is the payload's length. -/
abbrev SlotFile := List (Nat × List Byte)

/-- The state. Every field but the first and the last two is a piece of state of spec/10_state.md. -/
structure State where
  /-- The build parameters (rule R7): configuration, which no step changes (log entry 1). -/
  params : Params
  /-- CTRL.IRQ_EN (rules R36, R38). CTRL.SRST always reads 0 and holds nothing. -/
  irqEn : Bool
  /-- CMD_LAST (rule R40). -/
  cmdLast : Word
  /-- STATUS.BUSY (rule R41). -/
  busy : Bool
  /-- STATUS.DONE (rule R42). -/
  doneFlag : Bool
  /-- STATUS.CMD_OVERRUN (rule R43). -/
  cmdOverrun : Bool
  /-- SSTATE, read through STATUS (rules R33, R47). -/
  sstate : SState
  /-- RESULT (rules R44 to R46). -/
  result : ResultReg
  /-- POS (rules R32, R48). -/
  pos : Word
  /-- SEG_INFO.SEG_MARKER (rule R49). -/
  segMarker : Byte
  /-- SEG_INFO.SEG_SIZE (rule R49). -/
  segSize : Half
  /-- SEG_OFFSET (rule R50). -/
  segOffset : Word
  /-- SEG_COUNT (rule R51). -/
  segCount : Word
  /-- ICC_STATE.ICC_TOTAL (rule R52). -/
  iccTotal : Byte
  /-- ICC_STATE.ICC_FILLED (rule R52). -/
  iccFilled : Byte
  /-- ICC_STATE.ICC_ACTIVE (rule R52). -/
  iccActive : Bool
  /-- ICC_USED, read through ICC_LEN (rules R53, R57). -/
  iccUsed : BitVec 24
  /-- VALID, SLOT and SLEN (rules R54, R56, R105). -/
  slots : SlotFile
  /-- ESTATE (rule R31). -/
  estate : EState
  /-- OP (rule R60). -/
  op : Opcode
  /-- TGT (rule R60). -/
  tgt : Byte
  /-- T0 (rule R61). -/
  t0 : Byte
  /-- B0 (rule R62). -/
  b0 : Byte
  /-- B1 (rule R62). -/
  b1 : Byte
  /-- MK (rule R63). -/
  mkCode : Byte
  /-- MOFF (rule R63). -/
  moff : Word
  /-- LEN (rule R64). -/
  len : Half
  /-- REMAIN (rule R65). -/
  remain : Half
  /-- KEEP (rule R66). -/
  keep : Bool
  /-- SEGLEN (rule R67). -/
  seglen : Half
  /-- SEGBUF (rule R104). -/
  segbuf : Memory
  /-- EIDX (rule R68). -/
  eidx : BitVec 24
  /-- ESLOT (rule R68). -/
  eslot : BitVec 9
  /-- The input channel, its head first (rules R69, R101). -/
  input : List Item
  /-- The output channel, its head first (rules R69, R102). -/
  output : List Byte
  /-- The model's own: the turns still to come, in order, which no step but a turn taken shortens (log entry 2). -/
  agenda : List Move
  /-- The model's own: what the host has observed and the commands it has issued, oldest first (log
  entries 3 and 14). -/
  seen : List Seen
  deriving DecidableEq, Repr

/-- Why a step stops the machine. Each can be met only in a state that no run from reset reaches (the invariants of
Safety.lean rule it out). All are safe: the model stops where the spec gives no effect. -/
inductive Fault where
  /-- Raised by EOI and MARKER when OP holds no scanning command: `OnEOI` and `OnMarker` (rules R283, R284) have no case
  for it. Safe. -/
  | noScanningCommand
  /-- Raised by SEGMENT when a payload byte would be stored at an index SEGBUF does not have (rule R104). Safe. -/
  | segbufIndex
  /-- Raised where ASSEMBLE or EMIT_SEG would read an entry of SEGBUF that nothing has written (rules R70, R104). Safe. -/
  | segbufUnwritten
  /-- Raised by SEGMENT_RECORD and ICC_PROFILE_OUT when the cursor points outside what is emitted (rules R290, R260).
  Safe. -/
  | emissionCursor
  deriving DecidableEq, Repr

/-- Why the model gives something no meaning. -/
inductive Refusal where
  /-- An instruction that is not modelled yet, by its mnemonic. Raised only by an arm of `exec`; safe. -/
  | notModelled (mnemonic : String)
  /-- A host access that is not 32 bits wide: rule R35 (a) puts it outside the model, which refuses it. Raised by the
  register window; safe. -/
  | accessNotWord
  /-- A host access at an offset that is not a multiple of 4: rule R35 (a) as above. Raised by the register window; safe. -/
  | accessUnaligned
  deriving DecidableEq, Repr

/-- The outcome of a step of this machine. -/
abbrev Outcome := Host.Outcome State Fault Refusal

/-- The state after reset, for every field the value of rule R70: IDLE in session state START, both channels empty. SEGBUF
is unspecified there and lists nothing. No turn is planned and the host has seen nothing. -/
def State.reset : State where
  params := Config.params
  irqEn := false
  cmdLast := 0
  busy := false
  doneFlag := false
  cmdOverrun := false
  sstate := .start
  result := { code := .none, err := .none, ioCause := .none, ioCode := 0 }
  pos := 0
  segMarker := 0
  segSize := 0
  segOffset := 0
  segCount := 0
  iccTotal := 0
  iccFilled := 0
  iccActive := false
  iccUsed := 0
  slots := []
  estate := .idle
  op := .none
  tgt := 0
  t0 := 0
  b0 := 0
  b1 := 0
  mkCode := 0
  moff := 0
  len := 0
  remain := 0
  keep := false
  seglen := 0
  segbuf := []
  eidx := 0
  eslot := 0
  input := []
  output := []
  agenda := []
  seen := []

end Sys2Proof.Machine
end

