-- ==== Sys2Proof/Machine/Ops.lean ====
section
/-! DEFINITION. The named operations the rules are written in: the internal memories, the channels, the end of a command
with and without an error, the ICC clear and the reset. -/

namespace Sys2Proof.Machine

/-! ### Cells: data kept by a rising key -/

/-- What stands under a key. -/
def cellGet {α : Type} (k : Nat) : List (Nat × α) → Option α
  | [] => none
  | (j, v) :: rest => if j = k then some v else cellGet k rest

/-- Store under a key, keeping the keys strictly rising and each key once. -/
def cellSet {α : Type} (k : Nat) (v : α) : List (Nat × α) → List (Nat × α)
  | [] => [(k, v)]
  | (j, u) :: rest =>
    if k < j then (k, v) :: (j, u) :: rest
    else if j = k then (k, v) :: rest
    else (j, u) :: cellSet k v rest

/-- The keys rise strictly. -/
def keysRising {α : Type} : List (Nat × α) → Bool
  | [] => true
  | (_, _) :: [] => true
  | (j, _) :: (k, v) :: rest => decide (j < k) && keysRising ((k, v) :: rest)

/-! ### SEGBUF -/

/-- What an entry of SEGBUF that nothing has written reads as: no value. Rule R70 leaves the contents after reset
unspecified and rule R104 lets no rule read one, so a read stops the model (log entry 5, safe). -/
def Memory.unlisted : Option Byte := none

/-- `SEGBUF[i]` (rule R104). -/
def Memory.read (m : Memory) (i : Nat) : Option Byte :=
  match cellGet i m with
  | some b => some b
  | none => Memory.unlisted

/-- `SEGBUF[i] <- v` (rule R104). -/
def Memory.write (m : Memory) (i : Nat) (v : Byte) : Memory := cellSet i v m

/-- The canonical form: indices rise and are entries of SEGBUF. An entry that is listed never equals what an unlisted one
reads as, which is no value. -/
def Memory.wf (m : Memory) : Bool := keysRising m && m.all fun c => decide (c.1 < Config.segbufBytes)

/-- `n` consecutive entries from index `i`, if all of them have been written. -/
def Memory.readRange (m : Memory) : Nat → Nat → Option (List Byte)
  | _, 0 => some []
  | i, n + 1 =>
    match m.read i with
    | none => none
    | some b => (m.readRange (i + 1) n).map (b :: ·)

/-! ### The slot file -/

/-- `VALID[s]` (rule R56). Number 0 names no slot: its bit always reads 0 (rule R54). -/
def State.valid (s : State) (k : Nat) : Bool := decide (1 ≤ k) && (cellGet k s.slots).isSome

/-- `SLOT[s]`: an entry that is not valid holds no bytes (rule R56). -/
def State.slot (s : State) (k : Nat) : List Byte := (cellGet k s.slots).getD []

/-- `SLOT[s] <- bytes`, which replaces the whole content and makes the entry valid (rules R105, R257). -/
def State.setSlot (s : State) (k : Nat) (bytes : List Byte) : State := { s with slots := cellSet k bytes s.slots }

/-- The canonical form of the slot file: numbers rise, are 1 to 255, and no payload is over 65,519 bytes (rule R56). -/
def SlotFile.wf (f : SlotFile) : Bool :=
  keysRising f && f.all fun c => decide (1 ≤ c.1 ∧ c.1 ≤ Config.maxChunks ∧ c.2.length ≤ Config.maxChunkBytes)

/-- The bytes held in valid slots: the sum of `SLEN[s]` (rule R57). -/
def SlotFile.bytes (f : SlotFile) : Nat := (f.map fun c => c.2.length).sum

/-! ### The channels -/

/-- The input channel has room for one more item (rule R101). An empty channel always has, since `IN_DEPTH` is at least 1. -/
def State.inputRoom (s : State) : Bool :=
  match s.input with
  | [] => true
  | items => decide (items.length < s.params.inDepth)

/-- The output channel has room for one more byte (rule R102). An empty channel always has, since `OUT_DEPTH` is at least 1. -/
def State.outputRoom (s : State) : Bool :=
  match s.output with
  | [] => true
  | bytes => decide (bytes.length < s.params.outDepth)

/-- The host pushes an item at the input channel's tail (rule R101). -/
def State.pushInput (s : State) (item : Item) : State := { s with input := s.input ++ [item] }

/-- `OutPush(b)` followed by the rest of the step; while the channel is full the engine holds in its current state
(rules R12, R102, R355). -/
def State.outPush (s : State) (b : Byte) (rest : State → State) : Outcome :=
  if s.outputRoom then .next (rest { s with output := s.output ++ [b] }) else .next s

/-! ### The end of a command -/

/-- `Finish(result, sstate)` (rule R282). -/
def State.finish (s : State) (code : ResultCode) (session : SState) : State :=
  { s with
    result := { code := code, err := .none, ioCause := .none, ioCode := 0 }
    sstate := session
    estate := .idle
    busy := false
    doneFlag := true }

/-- `raise E(code, io_cause, io_code)` (rule R336): the one way an error is taken. It saves no context and changes no mode
(rule R339): the cause is recorded in RESULT, the session becomes ERROR and the engine IDLE. The writes made earlier in the
same step stand, since they are in the state it is given. There is no return from an error that resumes the stream
(rule R337): `State.openStream` starts the next session. -/
def State.raise (s : State) (err : ErrCode) (ioCause : IoCause) (ioCode : Byte) : State :=
  { s with
    result := { code := .error, err := err, ioCause := ioCause, ioCode := ioCode }
    sstate := .error
    estate := .idle
    busy := false
    doneFlag := true }

/-- `raise FormatError(err)`: an error that is not an IOError (rules R330, R336). -/
def State.raiseFormat (s : State) (err : ErrCode) : State := s.raise err .none 0

/-- `ClearIcc()` (rule R280). -/
def State.clearIcc (s : State) : State :=
  { s with iccActive := false, iccTotal := 0, iccFilled := 0, iccUsed := 0, slots := [] }

/-- `DoOpen()` (rule R285): the only way out of EOI, ERROR and CLOSED short of reset. -/
def State.openStream (s : State) : State :=
  let s := { s with
    input := [], output := [], pos := 0, sstate := .start
    segMarker := 0, segSize := 0, segOffset := 0, segCount := 0 }
  let s := s.clearIcc
  { s with result := { s.result with code := .ok }, doneFlag := true }

/-! ### Reset -/

/-- The reset of rules R370 and R371, at any moment and in any state: every piece of state takes the value of rule R70. What
is not the block's stays: the build parameters, the turns to come and what the host has seen. -/
def State.hardReset (s : State) : State :=
  { State.reset with params := s.params, agenda := s.agenda, seen := s.seen }

/-! ### The engine's transfers of control -/

/-- `OnEOI()` (rule R283). -/
def State.onEoi (s : State) : Outcome :=
  match s.op with
  | .getSegment => .next (s.finish .noSegment .eoi)
  | .getCommonApp => .next (s.finish .listDone .eoi)
  | .getIcc => .next (if s.iccActive then s.finish .iccIncomplete .eoi else s.finish .iccAbsent .eoi)
  | .none | .openSession | .readSoi => .fault .noScanningCommand

/-- `OnMarker(M)` once KEEP is decided (rule R284). -/
def State.startReader (s : State) (keep : Bool) : State := { s with keep := keep, estate := .lenHi }

/-- `OnMarker(M)` (rule R284): which segments the running command keeps. -/
def State.onMarker (s : State) (code : Byte) : Outcome :=
  match s.op with
  | .getSegment => .next (s.startReader (code == s.tgt))
  | .getCommonApp => .next (s.startReader (code == 0xE0#8 || code == 0xE1#8 || code == 0xE2#8))
  | .getIcc => .next (s.startReader (code == 0xE2#8))
  | .none | .openSession | .readSoi => .fault .noScanningCommand

/-- `StartRecord()` (rule R289). -/
def State.startRecord (s : State) : State :=
  { s with segMarker := s.mkCode, segOffset := s.moff, segSize := s.seglen, eidx := 0, estate := .emitSeg }

/-- `OnSegmentEnd()` (rules R236, R289). -/
def State.onSegmentEnd (s : State) : State :=
  if s.keep = false then { s with estate := .scanB0 }
  else if s.op = .getIcc then { s with estate := .assemble }
  else s.startRecord

/-- `SoiPassed()` (rule R287). -/
def State.soiPassed (s : State) : State :=
  let s := { s with sstate := .ready }
  if s.op = .readSoi then s.finish .ok .ready else { s with estate := .scanB0 }

end Sys2Proof.Machine
end

