-- ==== Sys2Proof/Machine/Operands.lean ====
section
/-! DEFINITION. The operand forms: what the engine's instructions read from the buffers and the emission cursor. -/

namespace Sys2Proof.Machine

/-- `SEGBUF[0 .. SEGLEN-1]`: the segment held, if every byte of it has been written (rules R67, R104, R250). -/
def State.heldSegment (s : State) : Option (List Byte) := s.segbuf.readRange 0 s.seglen.toNat

/-- The payload bytes of the record being emitted, `SEGBUF[0 .. SEG_SIZE-1]` (rule R290). -/
def State.recordPayload (s : State) : Option (List Byte) := s.segbuf.readRange 0 s.segSize.toNat

/-- `RecordByte(i)` (rule R290) of a record's fields. -/
def recordByte (marker : Byte) (offset : Word) (size : Half) (payload : List Byte) (i : Nat) : Option Byte :=
  if i = 0 then some marker
  else if i ≤ 4 then some (offset.extractLsb' (8 * (4 - i)) 8)
  else if i ≤ 6 then some (size.extractLsb' (8 * (6 - i)) 8)
  else payload[i - 7]?

/-- `SLOT[1] .. SLOT[ICC_TOTAL]` (rules R164, R260). -/
def State.profileSlots (s : State) : List (List Byte) := (List.range s.iccTotal.toNat).map fun i => s.slot (i + 1)

/-- `SkipEmpty()` over the slots from `ESLOT` on (rule R259): go past every slot that is used up. -/
def skipEmpty : List (List Byte) → Nat → Nat → Nat × Nat
  | [], eslot, eidx => (eslot, eidx)
  | p :: rest, eslot, eidx => if eidx = p.length then skipEmpty rest (eslot + 1) 0 else (eslot, eidx)

/-- `SkipEmpty()` at a cursor of a profile: the cursor after it. -/
def skipCursor (slots : List (List Byte)) (eslot eidx : Nat) : Nat × Nat := skipEmpty (slots.drop (eslot - 1)) eslot eidx

/-- `SLOT[ESLOT][EIDX]` of a profile, if the cursor stands in it (rule R260). -/
def profileByte (slots : List (List Byte)) (eslot eidx : Nat) : Option Byte :=
  match eslot with
  | 0 => none
  | k + 1 =>
    match slots[k]? with
    | some p => p[eidx]?
    | none => none

/-- Put the cursor where `SkipEmpty()` leaves it, and finish the command when nothing is left, or go on emitting
(rules R259, R260). -/
def State.emitFrom (s : State) (slots : List (List Byte)) (eslot eidx : Nat) : State :=
  let cursor := skipCursor slots eslot eidx
  let s := { s with eslot := BitVec.ofNat 9 cursor.1, eidx := BitVec.ofNat 24 cursor.2 }
  if slots.length < cursor.1 then s.finish .iccPresent .closed else { s with estate := .emitIcc }

/-- `StartEmit()` (rule R259). -/
def State.startEmit (s : State) : State := s.emitFrom s.profileSlots 1 0

end Sys2Proof.Machine
end

