-- ==== Sys2Proof/Machine/Flags.lean ====
section
/-! DEFINITION. The codes and flags the host reads: the enumerated fields' codes, the register words, the W1C flags and the
interrupt line. -/

namespace Sys2Proof.Machine

/-- The code of SSTATE (rule R33). -/
def SState.code : SState → BitVec 3
  | .start => 0
  | .ready => 1
  | .eoi => 2
  | .error => 3
  | .closed => 4

/-- The code of ESTATE (rule R31): for models, not architectural. -/
def EState.code : EState → BitVec 4
  | .idle => 0
  | .soi0 => 1
  | .soi1 => 2
  | .scanB0 => 3
  | .scanB1 => 4
  | .lenHi => 5
  | .lenLo => 6
  | .body => 7
  | .assemble => 8
  | .emitSeg => 9
  | .emitIcc => 10

/-- The value of OP (rules R60, R151). -/
def Opcode.code : Opcode → BitVec 4
  | .none => 0x0
  | .openSession => 0x1
  | .readSoi => 0x2
  | .getSegment => 0x3
  | .getCommonApp => 0x4
  | .getIcc => 0x5

/-- The code of RESULT.RESULT (rule R44). -/
def ResultCode.code : ResultCode → BitVec 4
  | .none => 0
  | .ok => 1
  | .segment => 2
  | .noSegment => 3
  | .listDone => 4
  | .iccPresent => 5
  | .iccAbsent => 6
  | .iccIncomplete => 7
  | .error => 8
  | .illegalCommand => 9

/-- The code of RESULT.ERR (rule R45). -/
def ErrCode.code : ErrCode → BitVec 4
  | .none => 0
  | .ioError => 1
  | .missingSoi => 2
  | .invalidSegmentLength => 3
  | .invalidIccHeader => 4
  | .invalidSequenceNumber => 5
  | .inconsistentChunkCount => 6
  | .capacity => 7
  | .badOpcode => 8
  | .badState => 9

/-- The code of RESULT.IO_CAUSE (rule R46). -/
def IoCause.code : IoCause → BitVec 2
  | .none => 0
  | .eof => 1
  | .fault => 2

/-- CTRL as read: IRQ_EN in bit 1, SRST reads 0 (rule R36). -/
def State.ctrlWord (s : State) : Word := 0#30 ++ BitVec.ofBool s.irqEn ++ 0#1

/-- STATUS as read (rules R41 to R43, R47). -/
def State.statusWord (s : State) : Word :=
  0#25 ++ s.sstate.code ++ 0#1 ++ BitVec.ofBool s.cmdOverrun ++ BitVec.ofBool s.doneFlag ++ BitVec.ofBool s.busy

/-- RESULT as read (rules R44 to R46). -/
def State.resultWord (s : State) : Word :=
  0#8 ++ s.result.ioCode ++ 0#6 ++ s.result.ioCause.code ++ s.result.err.code ++ s.result.code.code

/-- SEG_INFO as read (rule R49). -/
def State.segInfoWord (s : State) : Word := s.segSize ++ 0#8 ++ s.segMarker

/-- ICC_STATE as read (rule R52). -/
def State.iccStateWord (s : State) : Word := 0#15 ++ BitVec.ofBool s.iccActive ++ s.iccFilled ++ s.iccTotal

/-- ICC_LEN as read (rule R53). -/
def State.iccLenWord (s : State) : Word := 0#8 ++ s.iccUsed

/-- A word whose bit `i` is `bit i`. -/
def wordOfBits (bit : Nat → Bool) : Word :=
  (List.range 32).foldl (fun w i => w ||| (if bit i then BitVec.twoPow 32 i else 0#32)) 0#32

/-- SLOT_VALIDk as read: bit `i` is `VALID[32k + i]` (rule R54). -/
def State.slotValidWord (s : State) (k : Nat) : Word := wordOfBits fun i => s.valid (32 * k + i)

/-- The interrupt output: a level (rules R38, R343). -/
def State.irq (s : State) : Bool := s.irqEn && s.doneFlag

/-- A STATUS write: a 1 in bit 1 clears DONE, a 1 in bit 2 clears CMD_OVERRUN, nothing else changes (rules R42, R43, R47). -/
def State.writeStatus (s : State) (w : Word) : State :=
  { s with
    doneFlag := s.doneFlag && !w.getLsbD 1
    cmdOverrun := s.cmdOverrun && !w.getLsbD 2 }

/-- A CTRL write: SRST resets the block and wins over the written IRQ_EN; else IRQ_EN takes bit 1 (rules R36, R371). -/
def State.writeCtrl (s : State) (w : Word) : State :=
  if w.getLsbD 0 then s.hardReset else { s with irqEn := w.getLsbD 1 }

end Sys2Proof.Machine
end

