-- ==== Sys2Proof/Machine/Registers.lean ====
section
/-! DEFINITION. The register window (rules R34, R35, R103): what a word access to each offset does. -/

namespace Sys2Proof.Machine

/-- A read of the word at an offset: a defined register's value at this moment, and 0 at every reserved offset
(rules R34, R35 (b), (c), (f)). -/
def State.readReg (s : State) (offset : BitVec 8) : Word :=
  match offset.toNat with
  | 0x00 => s.ctrlWord
  | 0x04 => s.cmdLast
  | 0x08 => s.statusWord
  | 0x0C => s.resultWord
  | 0x10 => s.pos
  | 0x14 => s.segInfoWord
  | 0x18 => s.segOffset
  | 0x1C => s.segCount
  | 0x20 => s.iccStateWord
  | 0x24 => s.iccLenWord
  | 0x40 => s.slotValidWord 0
  | 0x44 => s.slotValidWord 1
  | 0x48 => s.slotValidWord 2
  | 0x4C => s.slotValidWord 3
  | 0x50 => s.slotValidWord 4
  | 0x54 => s.slotValidWord 5
  | 0x58 => s.slotValidWord 6
  | 0x5C => s.slotValidWord 7
  | _ => 0#32

/-- A write of the word at an offset other than CMD's: CTRL and STATUS take it, a read-only or reserved offset does not
(rules R35 (b), (d), R36, R47, R114). -/
def State.writeReg (s : State) (offset : BitVec 8) (w : Word) : State :=
  match offset.toNat with
  | 0x00 => s.writeCtrl w
  | 0x08 => s.writeStatus w
  | _ => s

/-- The offset of CMD (rule R34). -/
def cmdOffset : BitVec 8 := 0x04

/-- The offset of STATUS (rule R34). -/
def statusOffset : BitVec 8 := 0x08

/-- The offset of RESULT (rule R34). -/
def resultOffset : BitVec 8 := 0x0C

/-- Why an access is outside the model, if it is: it must be 32 bits wide at a 4-byte aligned offset (rules R35 (a), R111). -/
def accessRefusal (offset : BitVec 8) (width : Width) : Option Refusal :=
  if width ≠ .word then some .accessNotWord
  else if offset.toNat % 4 ≠ 0 then some .accessUnaligned
  else none

end Sys2Proof.Machine
end

