-- ==== Sys2Proof/Machine/Commands.lean ====
section
/-! DEFINITION. The host's commands (spec/44_parser_commands.md): issue, legality, rejection and what each command does in
the host's write step. -/

namespace Sys2Proof.Machine

/-- `Reject(w)` (rule R281): it changes RESULT and DONE and nothing else. -/
def State.reject (s : State) (err : ErrCode) : State :=
  { s with
    result := { code := .illegalCommand, err := err, ioCause := .none, ioCode := 0 }
    doneFlag := true }

/-- The common part of an accepted command (rule R280): OP and TGT are latched, DONE, RESULT and SEG_COUNT are cleared. -/
def State.accept (s : State) (op : Opcode) (tgt : Byte) : State :=
  { s with
    op := op
    tgt := tgt
    doneFlag := false
    result := { code := .none, err := .none, ioCause := .none, ioCode := 0 }
    segCount := 0 }

/-- A scanning or reading command begins: BUSY is set and the engine leaves IDLE (rule R280). -/
def State.begin (s : State) (estate : EState) : State := { s with busy := true, estate := estate }

/-- A host write of `w` to CMD (rule R280): an overrun while a command runs; else the word is latched, and the command is
`refusedWith` an error code or does `accepted`. -/
def State.issue (s : State) (w : Word) (refusedWith : SState → Option ErrCode) (accepted : State → State) : Outcome :=
  if s.busy then .next { s with cmdOverrun := true }
  else
    let s := { s with cmdLast := w }
    match refusedWith s.sstate with
    | some err => .next (s.reject err)
    | none => .next (accepted s)

/-- A command's word (rules R150, R151): the word that CMD_LAST keeps. -/
def commandWordOf (i : Instr) : Word :=
  match encode i with
  | .command w => w
  | _ => 0#32

/-- OPEN is legal in every session state (rules R33, R281). -/
def legalAlways (_ : SState) : Option ErrCode := none

/-- READ_SOI and GET_ICC are legal in START only (rules R33, R281). -/
def legalInStart (s : SState) : Option ErrCode := if s = .start then none else some .badState

/-- GET_SEGMENT and GET_COMMON_APP are legal in READY only (rules R33, R281). -/
def legalInReady (s : SState) : Option ErrCode := if s = .ready then none else some .badState

/-- A word that is no command (rules R153, R281): BAD_OPCODE, in every session state. -/
def State.issueUndecoded (s : State) (w : Word) : Outcome := s.issue w (fun _ => some .badOpcode) id

/-- OPEN (rule R285): it finishes in the host's write step. -/
def execOpenSession (s : State) : Outcome :=
  s.issue (commandWordOf .openSession) legalAlways fun s => (s.accept .openSession 0).openStream

/-- READ_SOI (rule R286). -/
def execReadSoi (s : State) : Outcome :=
  s.issue (commandWordOf .readSoi) legalInStart fun s => (s.accept .readSoi 0).begin .soi0

/-- GET_SEGMENT (rule R288). -/
def execGetSegment (target : Byte) (s : State) : Outcome :=
  s.issue (commandWordOf (.getSegment target)) legalInReady fun s => (s.accept .getSegment target).begin .scanB0

/-- GET_COMMON_APP (rule R292). -/
def execGetCommonApp (s : State) : Outcome :=
  s.issue (commandWordOf .getCommonApp) legalInReady fun s => (s.accept .getCommonApp 0).begin .scanB0

/-- GET_ICC (rule R294): it clears the assembler's state (rules R269, R280). -/
def execGetIcc (s : State) : Outcome :=
  s.issue (commandWordOf .getIcc) legalInStart fun s => (s.accept .getIcc 0).clearIcc.begin .soi0

end Sys2Proof.Machine
end

