-- ==== Sys2Proof/Machine/Scanner.lean ====
section
/-! DEFINITION. The pair classes of the MarkerScanner (spec/41_marker_scanner.md) and the SOI pair (rules R286, R287): what
the engine does in the step that has read the second byte of the pair. -/

namespace Sys2Proof.Machine

/-- DESYNC (rule R203): the window shifts by one byte, and `b1` is not read again. -/
def execDesync (_b0 b1 : Byte) (s : State) : Outcome := .next { s with b0 := b1, estate := .scanB1 }

/-- STUFF (rule R204): both bytes are discarded and a fresh pair is read. -/
def execStuff (s : State) : Outcome := .next { s with estate := .scanB0 }

/-- FILL (rules R205, R209): B0 stays `0xFF` and a new B1 is read. -/
def execFill (s : State) : Outcome := .next { s with estate := .scanB1 }

/-- EOI (rule R206). -/
def execEoi (s : State) : Outcome := s.onEoi

/-- RST (rule R207): the pair is discarded and the restart number is not recorded. -/
def execRst (_n : BitVec 3) (s : State) : Outcome := .next { s with estate := .scanB0 }

/-- MARKER (rule R208): MOFF is POS, which already counts the code byte. -/
def execMarker (code : Byte) (s : State) : Outcome :=
  let s := { s with mkCode := code, moff := s.pos }
  s.onMarker code

/-- SOI (rules R286, R287): the first two bytes of the stream are `FF D8`. -/
def execSoi (s : State) : Outcome := .next s.soiPassed

end Sys2Proof.Machine
end

