-- ==== Sys2Proof/Machine/Reader.lean ====
section
/-! DEFINITION. The SegmentReader (spec/42_segment_reader.md) and the segment record it gives the host (rules R289 to
R291). -/

namespace Sys2Proof.Machine

/-- `LEN_HI` (rule R231). -/
def State.lengthHigh (s : State) (hi : Byte) : State :=
  { s with len := be16 hi (s.len.extractLsb' 0 8), estate := .lenLo }

/-- `LEN_LO` (rule R232): `size = L - 2` is taken on unbounded integers before its check. -/
def State.lengthLow (s : State) (hi lo : Byte) : State :=
  let s := { s with len := be16 hi lo }
  let size : Int := (s.len.toNat : Int) - 2
  if size < 0 then s.raiseFormat .invalidSegmentLength
  else
    let s := { s with remain := BitVec.ofNat 16 size.toNat, seglen := 0 }
    if size = 0 then s.onSegmentEnd else { s with estate := .body }

/-- The rest of a `BODY` step once its byte is dealt with (rules R234, R235, R236). -/
def State.bodyCount (s : State) : State :=
  let s := { s with remain := s.remain - 1 }
  if s.remain = 0 then s.onSegmentEnd else s

/-- `BODY` with KEEP = 1 copies the byte into SEGBUF, unchanged; with KEEP = 0 it drops it (rules R234, R235). -/
def State.bodyByte (s : State) (v : Byte) : Outcome :=
  if s.keep = false then .next s.bodyCount
  else if s.seglen.toNat < Config.segbufBytes then
    .next { s with segbuf := s.segbuf.write s.seglen.toNat v, seglen := s.seglen + 1 }.bodyCount
  else .fault .segbufIndex

/-- SEGMENT: one step over a segment's bytes (rules R231 to R236). -/
def execSegment (part : SegmentPart) (s : State) : Outcome :=
  match part with
  | .lengthHigh hi => .next (s.lengthHigh hi)
  | .lengthLow hi lo => .next (s.lengthLow hi lo)
  | .payload v => s.bodyByte v

/-- The rest of an `EMIT_SEG` step once its byte is pushed (rule R291). -/
def State.recordStep (s : State) (size : Half) : State :=
  let s := { s with eidx := s.eidx + 1 }
  if s.eidx.toNat = 7 + size.toNat then
    let s := { s with segCount := s.segCount + 1 }
    if s.op = .getSegment then s.finish .segment .ready else { s with estate := .scanB0 }
  else s

/-- SEGMENT_RECORD: `EMIT_SEG` pushes `RecordByte(EIDX)` and holds while the output channel is full (rules R290, R291). -/
def execSegmentRecord (marker : Byte) (offset : Word) (size : Half) (payload : List Byte) (s : State) : Outcome :=
  match recordByte marker offset size payload s.eidx.toNat with
  | some b => s.outPush b fun s => s.recordStep size
  | none => .fault .emissionCursor

end Sys2Proof.Machine
end

