-- ==== Sys2Proof/Machine/Icc.lean ====
section
/-! DEFINITION. The ICCProfileAssembler (spec/43_icc_assembler.md): the ASSEMBLE step on a chunk whose header passed steps 1
and 2, and the emission of the profile. Steps 1 and 2 (rules R251, R252) are `decodeChunk`'s. -/

namespace Sys2Proof.Machine

/-- Step 7 (rule R258): a complete profile is emitted, an incomplete one sends the engine back to the scanner. -/
def State.chunkStored (s : State) : State :=
  if s.iccFilled = s.iccTotal then s.startEmit else { s with estate := .scanB0 }

/-- `SLEN[seq]` if the slot is valid, else 0: `old` of rule R250. -/
def State.slotLen (s : State) (k : Nat) : Nat := if s.valid k then (s.slot k).length else 0

/-- `new_used = ICC_USED - old + (S - 14)` (rule R250). ICC_USED counts `old`, so the order of the terms does not matter in
any state a run reaches (log entry 8). -/
def State.newUsed (s : State) (seq : Byte) (payload : List Byte) : Nat :=
  s.iccUsed.toNat + payload.length - s.slotLen seq.toNat

/-- Step 6 (rule R257): the chunk payload replaces the slot's content, and a slot not filled before counts. -/
def State.storeChunk (s : State) (seq : Byte) (payload : List Byte) : State :=
  let used := s.newUsed seq payload
  let s := if s.valid seq.toNat then s else { s with iccFilled := s.iccFilled + 1 }
  { s.setSlot seq.toNat payload with iccUsed := BitVec.ofNat 24 used }

/-- Steps 5 to 7 and the capacity check, once step 4 has fixed or compared the count (rules R255 to R258). -/
def State.chunkCounted (s : State) (seq : Byte) (payload : List Byte) : State :=
  if s.iccTotal.toNat < seq.toNat then s.raiseFormat .invalidSequenceNumber
  else if s.params.iccMemBytes < s.newUsed seq payload then s.raiseFormat .capacity
  else (s.storeChunk seq payload).chunkStored

/-- Steps 3 to 7 (rules R253 to R258), in that order. -/
def State.assemble (s : State) (seq cnt : Byte) (payload : List Byte) : State :=
  if seq = 0#8 then s.raiseFormat .invalidSequenceNumber
  else if s.iccActive = false then { s with iccTotal := cnt, iccActive := true }.chunkCounted seq payload
  else if cnt ≠ s.iccTotal then s.raiseFormat .inconsistentChunkCount
  else s.chunkCounted seq payload

/-- ICC_CHUNK: the ASSEMBLE step, atomic, which reads no input and pushes no output (rule R250). -/
def execIccChunk (seq cnt : Byte) (payload : List Byte) (s : State) : Outcome := .next (s.assemble seq cnt payload)

/-- ICC_PROFILE_OUT: `EMIT_ICC` pushes `SLOT[ESLOT][EIDX]` and holds while the output channel is full (rule R260). -/
def execIccProfileOut (slots : List (List Byte)) (s : State) : Outcome :=
  match profileByte slots s.eslot.toNat s.eidx.toNat with
  | some b => s.outPush b fun t => t.emitFrom slots s.eslot.toNat (s.eidx.toNat + 1)
  | none => .fault .emissionCursor

end Sys2Proof.Machine
end

