-- ==== Sys2Proof/Machine/Dispatch.lean ====
section
/-! DEFINITION. One arm per instruction: the call of its meaning. -/

namespace Sys2Proof.Machine

def exec (i : Instr) (s : State) : Host.Outcome State Fault Refusal :=
  match i with
  | .openSession => Sys2Proof.Machine.execOpenSession s
  | .readSoi => Sys2Proof.Machine.execReadSoi s
  | .getSegment target => Sys2Proof.Machine.execGetSegment target s
  | .getCommonApp => Sys2Proof.Machine.execGetCommonApp s
  | .getIcc => Sys2Proof.Machine.execGetIcc s
  | .desync b0 b1 => Sys2Proof.Machine.execDesync b0 b1 s
  | .stuff => Sys2Proof.Machine.execStuff s
  | .fill => Sys2Proof.Machine.execFill s
  | .eoi => Sys2Proof.Machine.execEoi s
  | .rst n => Sys2Proof.Machine.execRst n s
  | .marker code => Sys2Proof.Machine.execMarker code s
  | .soi => Sys2Proof.Machine.execSoi s
  | .segment part => Sys2Proof.Machine.execSegment part s
  | .iccChunk seq cnt payload => Sys2Proof.Machine.execIccChunk seq cnt payload s
  | .segmentRecord marker offset size payload => Sys2Proof.Machine.execSegmentRecord marker offset size payload s
  | .iccProfileOut slots => Sys2Proof.Machine.execIccProfileOut slots s

end Sys2Proof.Machine
end

