-- ==== Sys2Proof/Machine/Fetch.lean ====
section
/-! DEFINITION. Whose turn it is and what it fetches: the host's actions and the reset input (rules R8, R16, R35), the
engine's reads (rule R13) and the instruction each turn runs. -/

namespace Sys2Proof.Machine

/-- What a turn comes to: an instruction and the state it runs in, or an outcome with no instruction. -/
inductive Fetched where
  | run (i : Instr) (s : State)
  | answer (o : Outcome)

/-- `ReadByte()` and the rest of the step (rules R12, R13). An empty channel is a hold: the state does not change
(rule R355). `End` and `Fault` are popped and end the command with an IOError, before anything else of the step
(rule R340). -/
def State.readByte (s : State) (rest : Byte → State → Fetched) : Fetched :=
  match s.input with
  | [] => .answer (.next s)
  | .byte v :: items => rest v { s with input := items, pos := s.pos + 1 }
  | .endOfStream :: items => .answer (.next ({ s with input := items }.raise .ioError .eof 0))
  | .fault c :: items => .answer (.next ({ s with input := items }.raise .ioError .fault c))

/-- SOI_1 (rule R286): both bytes have been read; a pair that is not SOI is MISSING_SOI. -/
def State.fetchSoi (s : State) (v : Byte) : Fetched :=
  match decodeSoi s.t0 v with
  | .instr i => .run i s
  | .rejected _ => .answer (.next (s.raiseFormat .missingSoi))

/-- SCAN_B1 (rule R202): B1 takes the byte read, and the pair's class is the instruction. -/
def State.fetchPair (s : State) (v : Byte) : Fetched := .run (decodePair s.b0 v) { s with b1 := v }

/-- ASSEMBLE (rule R250): the segment held in SEGBUF is decoded as a chunk; steps 1 and 2 are INVALID_ICC_HEADER
(rules R251, R252, R266). -/
def State.fetchChunk (s : State) : Fetched :=
  match s.heldSegment with
  | none => .answer (.fault .segbufUnwritten)
  | some data =>
    match decodeChunk data with
    | .instr i => .run i s
    | .rejected _ => .answer (.next (s.raiseFormat .invalidIccHeader))

/-- EMIT_SEG (rules R290, R291): the record of the segment held. -/
def State.fetchRecord (s : State) : Fetched :=
  match s.recordPayload with
  | none => .answer (.fault .segbufUnwritten)
  | some payload => .run (.segmentRecord s.segMarker s.segOffset s.segSize payload) s

/-- The engine's turn (rules R20, R31): at most one item read or one byte pushed. In IDLE it takes no step
(rules R20, R354). -/
def State.engineTurn (s : State) : Fetched :=
  match s.estate with
  | .idle => .answer (.next s)
  | .soi0 => s.readByte fun v s => .answer (.next { s with t0 := v, estate := .soi1 })
  | .soi1 => s.readByte fun v s => s.fetchSoi v
  | .scanB0 => s.readByte fun v s => .answer (.next { s with b0 := v, estate := .scanB1 })
  | .scanB1 => s.readByte fun v s => s.fetchPair v
  | .lenHi => s.readByte fun v s => .run (.segment (.lengthHigh v)) s
  | .lenLo => s.readByte fun v s => .run (.segment (.lengthLow (s.len.extractLsb' 8 8) v)) s
  | .body => s.readByte fun v s => .run (.segment (.payload v)) s
  | .assemble => s.fetchChunk
  | .emitSeg => s.fetchRecord
  | .emitIcc => .run (.iccProfileOut s.profileSlots) s

/-- The host sees a register's value (rule R17). -/
def State.see (s : State) (x : Seen) : State := { s with seen := s.seen ++ [x] }

/-- The host reads a register (rules R34, R35): no side effect on any state of the block. -/
def State.hostRead (s : State) (offset : BitVec 8) (width : Width) : Fetched :=
  match accessRefusal offset width with
  | some r => .answer (.refused r)
  | none => .answer (.next (s.see (.value offset (s.readReg offset))))

/-- The host notes that it issues the word `w`. A write while a command runs is ignored (rule R333) and issues nothing: the
bytes popped after it are still the running command's (rule R383, log entry 14). -/
def State.noteIssue (s : State) (w : Word) : State := if s.busy then s else s.see (.issued w)

/-- The host writes a register (rules R34, R35, R39): a write to CMD issues the command its word decodes to. -/
def State.hostWrite (s : State) (offset : BitVec 8) (width : Width) (w : Word) : Fetched :=
  match accessRefusal offset width with
  | some r => .answer (.refused r)
  | none =>
    if offset = cmdOffset then
      match decodeCommand w with
      | .instr i => .run i (s.noteIssue w)
      | .rejected _ => .answer ((s.noteIssue w).issueUndecoded w)
    else .answer (.next (s.writeReg offset w))

/-- The host takes the byte `b` off the output channel's head (rule R102). -/
def State.popOutput (s : State) (b : Byte) (rest : List Byte) : State := { s with output := rest }.see (.byte b)

/-- The turn at the head of the agenda. A push into a full channel and a pop from an empty one are not enabled
(rules R101, R102): the host waits, its action stays at the head, and the engine has the turn; so it is while a poll of
STATUS fails or before the channel is drained (rule R155). With nothing planned every turn is the engine's (log entry 2). -/
def fetch (s : State) : Fetched :=
  match s.agenda with
  | [] => s.engineTurn
  | .engine :: rest => { s with agenda := rest }.engineTurn
  | .read offset width :: rest => { s with agenda := rest }.hostRead offset width
  | .write offset width w :: rest => { s with agenda := rest }.hostWrite offset width w
  | .push item :: rest =>
    if s.inputRoom then .answer (.next ({ s with agenda := rest }.pushInput item)) else s.engineTurn
  | .pop :: rest =>
    match s.output with
    | [] => s.engineTurn
    | b :: bytes => .answer (.next ({ s with agenda := rest }.popOutput b bytes))
  | .drainAll :: rest =>
    match s.output with
    | [] => .answer (.next { s with agenda := rest })
    | b :: bytes => .answer (.next (s.popOutput b bytes))
  | .waitDone :: rest =>
    match s.output with
    | b :: bytes => .answer (.next (s.popOutput b bytes))
    | [] =>
      if !s.busy && s.doneFlag then
        .answer (.next ({ s with agenda := rest }.see (.value statusOffset s.statusWord)))
      else s.engineTurn
  | .reset :: rest => .answer (.next { s with agenda := rest }.hardReset)

/-! ### Placing an instruction where the next turn fetches it -/

/-- A command of the given micro-state runs: BUSY, ESTATE, and OP, which stays if it is one of `ops`. -/
def State.running (s : State) (estate : EState) (ops : List Opcode) (op : Opcode) : State :=
  { s with busy := true, estate := estate, op := if ops.contains s.op then s.op else op }

/-- The commands that scan (rules R283, R284). -/
def scanningOps : List Opcode := [.getSegment, .getCommonApp, .getIcc]

/-- The engine has the next turn. -/
def State.giveEngineTurn (s : State) : State := { s with agenda := .engine :: s.agenda }

/-- SEGBUF with these bytes from index `i` on. -/
def writeRange (m : Memory) : Nat → List Byte → Memory
  | _, [] => m
  | i, v :: rest => writeRange (m.write i v) (i + 1) rest

/-- The slot file with these slots from number `k` on. -/
def slotFileFrom : Nat → List (List Byte) → SlotFile
  | _, [] => []
  | k, p :: rest => (k, p) :: slotFileFrom (k + 1) rest

/-- The state with the bits of one instruction placed where the next turn reads them (log entry 4). A command word is the
host's next write to CMD. A byte pair has its first byte in the register that holds it and its second byte at the head of the
input channel; a byte of a segment is at that head. An APP2 payload is in SEGBUF, and an emitted structure in the registers
and memory it is emitted from, with the cursor at its first byte. -/
def State.placeCode (s : State) : Code → State
  | .command w => { s with agenda := .write cmdOffset .word w :: s.agenda }
  | .startPair b0 b1 =>
    { s.running .soi1 [.readSoi, .getIcc] .readSoi with t0 := b0, input := .byte b1 :: s.input }.giveEngineTurn
  | .scanPair b0 b1 =>
    { s.running .scanB1 scanningOps .getCommonApp with b0 := b0, input := .byte b1 :: s.input }.giveEngineTurn
  | .lengthHigh hi =>
    { s.running .lenHi scanningOps .getCommonApp with input := .byte hi :: s.input }.giveEngineTurn
  | .lengthLow hi lo =>
    { s.running .lenLo scanningOps .getCommonApp with
      len := be16 hi (s.len.extractLsb' 0 8), input := .byte lo :: s.input }.giveEngineTurn
  | .payload v =>
    { s.running .body scanningOps .getCommonApp with
      remain := if s.remain = 0 then 1 else s.remain, input := .byte v :: s.input }.giveEngineTurn
  | .app2 data =>
    { s.running .assemble [.getIcc] .getIcc with
      seglen := BitVec.ofNat 16 data.length, segbuf := writeRange s.segbuf 0 data, keep := true }.giveEngineTurn
  | .record bytes =>
    match decodeRecord bytes with
    | .instr (.segmentRecord m o z payload) =>
      { s.running .emitSeg [.getSegment, .getCommonApp] .getCommonApp with
        segMarker := m, segOffset := o, segSize := z, seglen := z, segbuf := writeRange s.segbuf 0 payload
        eidx := 0, output := [] }.giveEngineTurn
    | _ => s
  | .profile lengths bytes =>
    match splitLengths lengths bytes with
    | some slots =>
      { s.running .emitIcc [.getIcc] .getIcc with
        iccActive := true, iccTotal := BitVec.ofNat 8 slots.length, iccFilled := BitVec.ofNat 8 slots.length
        iccUsed := BitVec.ofNat 24 bytes.length, slots := slotFileFrom 1 slots
        eslot := BitVec.ofNat 9 (skipCursor slots 1 0).1, eidx := BitVec.ofNat 24 (skipCursor slots 1 0).2
        output := [] }.giveEngineTurn
    | none => s

end Sys2Proof.Machine
end

