-- ==== Sys2Proof/Machine/HostScript.lean ====
section
/-! DEFINITION. The host's side of the interface: where the register window lies (rules R7, R34), the command syntax
(rule R154) and the pseudo-instructions (rule R155), as turns of the agenda. -/

namespace Sys2Proof.Machine

/-! ### The window's place on the bus -/

/-- The window offset of a bus address, if the address lies in the window of 256 bytes at `CSR_BASE` (rules R34, R115). -/
def windowOffset (p : Params) (address : Nat) : Option (BitVec 8) :=
  if p.csrBase ≤ address ∧ address < p.csrBase + 256 then some (BitVec.ofNat 8 (address - p.csrBase)) else none

/-- A bus read as a turn; an address outside the window is no access to this block. -/
def busRead (p : Params) (address : Nat) (width : Width) : Option Move :=
  (windowOffset p address).map fun o => .read o width

/-- A bus write as a turn; an address outside the window is no access to this block. -/
def busWrite (p : Params) (address : Nat) (width : Width) (w : Word) : Option Move :=
  (windowOffset p address).map fun o => .write o width w

/-! ### Pseudo-instructions -/

/-- A word write to an offset of the window. -/
def writeMove (offset : BitVec 8) (w : Word) : Move := .write offset .word w

/-- RESET (rule R155). -/
def pseudoReset : List Move := [writeMove 0x00 0x00000001]

/-- IRQ_ON (rule R155). -/
def pseudoIrqOn : List Move := [writeMove 0x00 0x00000002]

/-- WAIT_DONE (rule R155). -/
def pseudoWaitDone : List Move := [.waitDone]

/-- EXEC (rule R155): the command's word, then WAIT_DONE. -/
def pseudoExec (i : Instr) : List Move := writeMove cmdOffset (commandWordOf i) :: pseudoWaitDone

/-- ACK (rule R155): clear DONE. -/
def pseudoAck : List Move := [writeMove statusOffset 0x00000002]

/-- ACK_OVERRUN (rule R155). -/
def pseudoAckOverrun : List Move := [writeMove statusOffset 0x00000004]

/-- FEED (rule R155). -/
def pseudoFeed (bytes : List Byte) : List Move := bytes.map fun b => .push (.byte b)

/-- FEED_END (rule R155). -/
def pseudoFeedEnd : List Move := [.push .endOfStream]

/-- FEED_FAULT (rule R155). -/
def pseudoFeedFault (c : Byte) : List Move := [.push (.fault c)]

/-- DRAIN_ALL (rule R155). -/
def pseudoDrainAll : List Move := [.drainAll]

/-! ### The host's duty towards a failed command -/

/-- What the host knows of one command it has issued (rule R383). -/
structure HostCommand where
  /-- The word it wrote to CMD. -/
  word : Word
  /-- The bytes it has popped since. -/
  popped : List Byte
  /-- The code of RESULT.RESULT it has last read since, other than NONE (rule R44). -/
  resultCode : BitVec 4
  deriving DecidableEq, Repr

/-- One more entry of what the host has seen, its commands newest first. A byte popped before any command was issued is no
command's. -/
def noteSeen : List HostCommand → Seen → List HostCommand
  | commands, .issued w => { word := w, popped := [], resultCode := 0 } :: commands
  | [], _ => []
  | c :: commands, .byte b => { c with popped := c.popped ++ [b] } :: commands
  | c :: commands, .value offset r =>
    if offset = resultOffset ∧ r.extractLsb' 0 4 ≠ 0#4 then { c with resultCode := r.extractLsb' 0 4 } :: commands
    else c :: commands

/-- The commands the host has issued, newest first. -/
def hostCommands (seen : List Seen) : List HostCommand := seen.foldl noteSeen []

/-- The bytes popped since the last command was issued, one more entry of what the host has seen taken in. -/
def countPopped : List Byte → Seen → List Byte
  | _, .issued _ => []
  | popped, .byte b => popped ++ [b]
  | popped, .value _ _ => popped

/-- The bytes the host has popped since it issued its last command: the count of rule R383. -/
def poppedSinceIssue (seen : List Seen) : List Byte := seen.foldl countPopped []

/-- The output bytes the host keeps of a command: it discards every byte of one that ended with RESULT = ERROR (rules R299,
R383; D13). It keeps none before it has read how the command ended, and a rejected command has pushed none. -/
def HostCommand.kept (c : HostCommand) : List Byte :=
  if 1 ≤ c.resultCode.toNat ∧ c.resultCode.toNat ≤ 7 then c.popped else []

/-- All the output a host that keeps the duty of rule R383 makes use of, in order: what a claim about the host's results is
to be stated in, and not `seen` itself (log entry 14). -/
def hostKeeps (seen : List Seen) : List Byte := (hostCommands seen).reverse.flatMap HostCommand.kept

/-- The bytes the command last issued has pushed, popped or not, if the output channel was empty when it was issued
(rules R299, R383). -/
def State.commandOutput (s : State) : List Byte := poppedSinceIssue s.seen ++ s.output

/-- What the host does after each command (rule R373, step 6): wait for DONE, drain the output, read RESULT. -/
def hostSettle : List Move := pseudoWaitDone ++ pseudoDrainAll ++ [.read resultOffset .word]

/-! ### Command syntax -/

/-- A line of host commands: nothing, a command, or no command at all. -/
inductive AsmLine where
  | blank
  | command (i : Instr)
  | invalid
  deriving DecidableEq, Repr

/-- An ASCII letter in capitals: mnemonics are case-insensitive (rule R154). -/
def upperChar (c : Char) : Char := if 97 ≤ c.toNat ∧ c.toNat ≤ 122 then Char.ofNat (c.toNat - 32) else c

/-- The words of a line up to its comment (rule R154): a space or a tab parts words, and `;` starts a comment. -/
def asmWords (word : List Char) : List Char → List (List Char)
  | [] => if word = [] then [] else [word]
  | c :: rest =>
    if c = ';' then (if word = [] then [] else [word])
    else if c = ' ' ∨ c = '\t' then (if word = [] then asmWords [] rest else word :: asmWords [] rest)
    else asmWords (word ++ [c]) rest

/-- A digit's value in a base of at most 16. -/
def digitValue (c : Char) : Option Nat :=
  if 48 ≤ c.toNat ∧ c.toNat ≤ 57 then some (c.toNat - 48)
  else if 65 ≤ (upperChar c).toNat ∧ (upperChar c).toNat ≤ 70 then some ((upperChar c).toNat - 55)
  else none

/-- A number's value, digit by digit. -/
def digitsValue (base : Nat) (value : Nat) : List Char → Option Nat
  | [] => some value
  | c :: rest =>
    match digitValue c with
    | some d => if d < base then digitsValue base (base * value + d) rest else none
    | none => none

/-- The marker names rule R154 lists. -/
def markerName (word : List Char) : Option Byte :=
  if word = ['S', 'O', 'I'] then some 0xD8
  else if word = ['E', 'O', 'I'] then some 0xD9
  else if word = ['A', 'P', 'P', '0'] then some 0xE0
  else if word = ['A', 'P', 'P', '1'] then some 0xE1
  else if word = ['A', 'P', 'P', '2'] then some 0xE2
  else match word with
    | ['R', 'S', 'T', d] =>
      if 48 ≤ d.toNat ∧ d.toNat ≤ 55 then some (BitVec.ofNat 8 (0xD0 + (d.toNat - 48))) else none
    | _ => none

/-- `<code>`: a number 0 to 255, decimal or `0x` hexadecimal, or a marker name (rule R154; log entry 7). -/
def asmCode (word : List Char) : Option Byte :=
  match markerName word with
  | some b => some b
  | none =>
    let number := match word with
      | '0' :: 'x' :: d :: rest => digitsValue 16 0 (d :: rest)
      | d :: rest => digitsValue 10 0 (d :: rest)
      | [] => none
    match number with
    | some n => if n ≤ 255 then some (BitVec.ofNat 8 n) else none
    | none => none

/-- The commands without an operand (rule R154). -/
def asmPlain (mnemonic : List Char) : Option Instr :=
  if mnemonic = ['O', 'P', 'E', 'N'] then some .openSession
  else if mnemonic = ['R', 'E', 'A', 'D', '_', 'S', 'O', 'I'] then some .readSoi
  else if mnemonic = ['G', 'E', 'T', '_', 'C', 'O', 'M', 'M', 'O', 'N', '_', 'A', 'P', 'P'] then some .getCommonApp
  else if mnemonic = ['G', 'E', 'T', '_', 'I', 'C', 'C'] then some .getIcc
  else none

/-- One line of the host command syntax (rule R154). Its word is the command's (`commandWordOf`, rule R151). -/
def assembleLine (line : List Char) : AsmLine :=
  match asmWords [] line with
  | [] => .blank
  | [m] =>
    match asmPlain (m.map upperChar) with
    | some i => .command i
    | none => .invalid
  | [m, c] =>
    if m.map upperChar = ['G', 'E', 'T', '_', 'S', 'E', 'G', 'M', 'E', 'N', 'T'] then
      match asmCode c with
      | some b => .command (.getSegment b)
      | none => .invalid
    else .invalid
  | _ => .invalid

end Sys2Proof.Machine
end

