-- ==== Sys2Proof/Machine/Step.lean ====
section
/-! DEFINITION. One step of the system: the next turn, and the instruction it fetches. -/

namespace Sys2Proof.Machine

/-- One step: the turn's own outcome, or the run of the instruction it fetched. -/
def step (s : State) : Host.Outcome State Fault Refusal :=
  match fetch s with
  | .run i t => exec i t
  | .answer o => o

/-- The state with an instruction of the opcode table, as the table numbers its bits, placed where the next step fetches
it. Bits that no row has are placed nowhere. -/
def State.withFetchWord (s : State) (nbits w : Nat) : State :=
  match tableCode nbits w with
  | some c => s.placeCode c
  | none => s

end Sys2Proof.Machine
end

