-- ==== Sys2Proof/Safety.lean ====
section
/-! DEFINITION. What holds of the block in every state a run reaches: the relations between its registers that the spec
states, and the ones under which no step faults. Each is a condition on one state; `State.Inv` is all of them. -/

namespace Sys2Proof.Machine

/-- BUSY is 1 exactly when ESTATE is not IDLE (rules R31, R41). -/
def BusyMatches (s : State) : Prop := s.busy = true ↔ s.estate ≠ .idle

/-- While a command runs DONE is 0 and RESULT is 0: both were cleared when it was accepted (rules R42, R44, R280). -/
def RunningQuiet (s : State) : Prop :=
  s.busy = true → s.doneFlag = false ∧ s.result = { code := .none, err := .none, ioCause := .none, ioCode := 0 }

/-- ERR is nonzero exactly with ERROR and ILLEGAL_COMMAND; IO_CAUSE exactly with IO_ERROR; IO_CODE only with FAULT
(rules R45, R46). -/
def ErrMatches (s : State) : Prop :=
  (s.result.err ≠ .none ↔ s.result.code = .error ∨ s.result.code = .illegalCommand) ∧
  (s.result.ioCause ≠ .none ↔ s.result.err = .ioError) ∧
  (s.result.ioCause ≠ .fault → s.result.ioCode = 0#8)

/-- The channels hold no more than their capacity (rules R69, R101, R102). -/
def ChannelsFit (s : State) : Prop := s.input.length ≤ s.params.inDepth ∧ s.output.length ≤ s.params.outDepth

/-- SEGBUF and the slot file keep their canonical form (rules R56, R104). -/
def MemoriesCanonical (s : State) : Prop := s.segbuf.wf = true ∧ SlotFile.wf s.slots = true

/-- OP is a command that can be in the engine's state (rules R280, R283, R284, R287, R289). -/
def OpMatches (s : State) : Prop :=
  match s.estate with
  | .idle => True
  | .soi0 | .soi1 => s.op = .readSoi ∨ s.op = .getIcc
  | .scanB0 | .scanB1 | .lenHi | .lenLo | .body => s.op = .getSegment ∨ s.op = .getCommonApp ∨ s.op = .getIcc
  | .assemble | .emitIcc => s.op = .getIcc
  | .emitSeg => s.op = .getSegment ∨ s.op = .getCommonApp

/-- SSTATE is START while the SOI pair is read and READY while the engine is past it; a result ERROR goes with the session
state ERROR (rules R281, R287, R336). -/
def SessionMatches (s : State) : Prop :=
  (match s.estate with
    | .idle => True
    | .soi0 | .soi1 => s.sstate = .start
    | _ => s.sstate = .ready) ∧
  (s.result.code = .error → s.sstate = .error)

/-- Every entry of SEGBUF below SEGLEN has been written (rules R67, R104). -/
def SegbufHeld (s : State) : Prop := ∀ i < s.seglen.toNat, (s.segbuf.read i).isSome = true

/-- The SegmentReader's counters: in BODY at least one byte remains and no more than the length field says; what is kept and
what remains add up to the payload, and a kept segment that has been read holds `size` bytes (rules R65, R67, R236). -/
def ReaderCounts (s : State) : Prop :=
  (s.estate = .body → 1 ≤ s.remain.toNat ∧ s.remain.toNat + 2 ≤ s.len.toNat ∧
    (s.keep = true → s.seglen.toNat + s.remain.toNat + 2 = s.len.toNat)) ∧
  (s.estate = .assemble ∨ s.estate = .emitSeg → s.seglen.toNat + 2 = s.len.toNat)

/-- POS against MOFF, the offset of the length field, while a segment is read and until its record is pushed
(rules R63, R208, R237). -/
def PositionMatches (s : State) : Prop :=
  match s.estate with
  | .lenHi => s.pos = s.moff
  | .lenLo => s.pos = s.moff + 1
  | .body => s.pos + s.remain.setWidth 32 = s.moff + s.len.setWidth 32
  | .assemble | .emitSeg => s.pos = s.moff + s.len.setWidth 32
  | _ => True

/-- In EMIT_SEG the record's fields are the segment's and the cursor stands in the record (rules R68, R289, R290). -/
def RecordCursor (s : State) : Prop :=
  s.estate = .emitSeg →
    s.segMarker = s.mkCode ∧ s.segOffset = s.moff ∧ s.segSize = s.seglen ∧ s.eidx.toNat < 7 + s.segSize.toNat

/-- In EMIT_ICC the cursor stands in a slot of the profile (rules R68, R260). -/
def ProfileCursor (s : State) : Prop :=
  s.estate = .emitIcc →
    1 ≤ s.eslot.toNat ∧ s.eslot.toNat ≤ s.iccTotal.toNat ∧ s.eidx.toNat < (s.slot s.eslot.toNat).length

/-- The assembler's registers: ICC_FILLED counts the valid slots, ICC_USED their bytes, which fit in the slot memory;
only slots 1 to ICC_TOTAL are valid; before a first chunk nothing is held (rules R52, R56, R57, R105, R254, R258). -/
def IccCounts (s : State) : Prop :=
  s.iccFilled.toNat = s.slots.length ∧
  s.iccUsed.toNat = SlotFile.bytes s.slots ∧
  s.iccUsed.toNat ≤ s.params.iccMemBytes ∧
  (∀ c ∈ s.slots, c.1 ≤ s.iccTotal.toNat) ∧
  (s.iccActive = false → s.iccTotal = 0#8 ∧ s.slots = [])

/-- GET_ICC scans and reads only while the profile is incomplete: once a first chunk is accepted, at least one slot is filled
and fewer than ICC_TOTAL are; when it emits, all are (rules R258, R283). -/
def IccProgress (s : State) : Prop :=
  (s.busy = true → s.op = .getIcc → s.estate ≠ .emitIcc → s.iccActive = true →
    1 ≤ s.iccFilled.toNat ∧ s.iccFilled.toNat < s.iccTotal.toNat) ∧
  (s.estate = .emitIcc → s.iccActive = true ∧ s.iccFilled = s.iccTotal)

/-- All of the above. -/
structure State.Inv (s : State) : Prop where
  busy : BusyMatches s
  quiet : RunningQuiet s
  err : ErrMatches s
  channels : ChannelsFit s
  memories : MemoriesCanonical s
  op : OpMatches s
  session : SessionMatches s
  held : SegbufHeld s
  reader : ReaderCounts s
  position : PositionMatches s
  record : RecordCursor s
  profile : ProfileCursor s
  icc : IccCounts s
  progress : IccProgress s

/-- The conditions under which no step faults. -/
def State.NoFaultCond (s : State) : Prop :=
  OpMatches s ∧ MemoriesCanonical s ∧ SegbufHeld s ∧ ReaderCounts s ∧ RecordCursor s ∧ ProfileCursor s

/-! ### The terms that claims use -/

/-- Every piece of the block's state has the value of rule R70. SEGBUF's contents are unspecified there and are not
named. -/
def State.AtReset (s : State) : Prop :=
  s.irqEn = false ∧ s.cmdLast = 0#32 ∧ s.busy = false ∧ s.doneFlag = false ∧ s.cmdOverrun = false ∧
  s.sstate = .start ∧ s.result = { code := .none, err := .none, ioCause := .none, ioCode := 0#8 } ∧ s.pos = 0#32 ∧
  s.segMarker = 0#8 ∧ s.segSize = 0#16 ∧ s.segOffset = 0#32 ∧ s.segCount = 0#32 ∧
  s.iccTotal = 0#8 ∧ s.iccFilled = 0#8 ∧ s.iccActive = false ∧ s.iccUsed = 0#24 ∧
  (∀ k, s.valid k = false ∧ s.slot k = []) ∧
  s.estate = .idle ∧ s.op = .none ∧ s.tgt = 0#8 ∧ s.t0 = 0#8 ∧ s.b0 = 0#8 ∧ s.b1 = 0#8 ∧ s.mkCode = 0#8 ∧
  s.moff = 0#32 ∧ s.len = 0#16 ∧ s.remain = 0#16 ∧ s.keep = false ∧ s.seglen = 0#16 ∧ s.eidx = 0#24 ∧ s.eslot = 0#9 ∧
  s.input = [] ∧ s.output = [] ∧ s.irq = false

/-- The states that read a byte (rules R31, R355). -/
def EState.reads : EState → Bool
  | .soi0 | .soi1 | .scanB0 | .scanB1 | .lenHi | .lenLo | .body => true
  | .idle | .assemble | .emitSeg | .emitIcc => false

/-- The states that push a byte (rules R31, R355). -/
def EState.emits : EState → Bool
  | .emitSeg | .emitIcc => true
  | .idle | .soi0 | .soi1 | .scanB0 | .scanB1 | .lenHi | .lenLo | .body | .assemble => false

/-- Where an engine step can lead, by the table of rule R301. A hold, which leads nowhere, and a reset are not in it. -/
def EState.successors : EState → List EState
  | .idle => []
  | .soi0 => [.soi1, .idle]
  | .soi1 => [.scanB0, .idle]
  | .scanB0 => [.scanB1, .idle]
  | .scanB1 => [.scanB1, .scanB0, .lenHi, .idle]
  | .lenHi => [.lenLo, .idle]
  | .lenLo => [.body, .scanB0, .emitSeg, .assemble, .idle]
  | .body => [.body, .scanB0, .emitSeg, .assemble, .idle]
  | .assemble => [.scanB0, .emitIcc, .idle]
  | .emitSeg => [.emitSeg, .scanB0, .idle]
  | .emitIcc => [.emitIcc, .idle]

/-- The bytes of a profile from a cursor on (rules R164, R260). -/
def profileRest (slots : List (List Byte)) (eslot eidx : Nat) : List Byte :=
  (slots.drop (eslot - 1)).flatten.drop eidx

/-- What the running command has pushed after the bytes `before` that stood in the channel when it was issued (rules R291,
R299, R383): whole records, SEG_COUNT of them, and in EMIT_SEG the record's bytes up to the cursor. Only GET_COMMON_APP has
pushed a record before its end. Nothing is said of EMIT_ICC, which raises no error. -/
def CommandPushed (before : List Byte) (s : State) : Prop :=
  s.estate ≠ .emitIcc → ∃ (bytes current : List Byte) (records : List Instr),
    s.commandOutput = before ++ bytes ++ current ∧
    splitRecords bytes = some records ∧
    s.segCount = BitVec.ofNat 32 records.length ∧
    (s.op ≠ .getCommonApp → records = []) ∧
    (s.estate ≠ .emitSeg → current = []) ∧
    (s.estate = .emitSeg → ∃ payload, s.recordPayload = some payload ∧
      current = (encodeRecord s.segMarker s.segOffset s.segSize payload).take s.eidx.toNat)

/-- `n` steps, ending at the first that is no next state. -/
def stepN : Nat → State → Outcome
  | 0, s => .next s
  | n + 1, s =>
    match step s with
    | .next t => stepN n t
    | .fault f => .fault f
    | .refused r => .refused r

end Sys2Proof.Machine
end

