-- ==== Sys2Proof/Certificates/Slice0/Obligations.lean ====
section
/-! DEFINITION. The statements for the provers. Each docstring names the rules a statement formalises; a clause that rests
on a choice of the model names its log entry. -/

open Sys2Proof Sys2Proof.Machine

/-! ### Encodings -/

/-- Words and pairs written out from spec/30_encoding.md decode to the instructions they stand for (rules R151, R158 to
R161, R164). -/
def Obligations.SpecWordsDecode : Prop :=
  decode (.command 0x00000001) = .instr .openSession ∧
  decode (.command 0x00000002) = .instr .readSoi ∧
  decode (.command 0x0000E203) = .instr (.getSegment 0xE2) ∧
  decode (.command 0x00000004) = .instr .getCommonApp ∧
  decode (.command 0x00000005) = .instr .getIcc ∧
  decode (.startPair 0xFF 0xD8) = .instr .soi ∧
  decode (.scanPair 0x12 0xFF) = .instr (.desync 0x12 0xFF) ∧
  decode (.scanPair 0xFF 0x00) = .instr .stuff ∧
  decode (.scanPair 0xFF 0xFF) = .instr .fill ∧
  decode (.scanPair 0xFF 0xD9) = .instr .eoi ∧
  decode (.scanPair 0xFF 0xD3) = .instr (.rst 3) ∧
  decode (.scanPair 0xFF 0xE1) = .instr (.marker 0xE1) ∧
  decode (.lengthLow 0x00 0x10) = .instr (.segment (.lengthLow 0x00 0x10)) ∧
  decode (.app2 [0x49, 0x43, 0x43, 0x5F, 0x50, 0x52, 0x4F, 0x46, 0x49, 0x4C, 0x45, 0x00, 0x01, 0x02, 0xAA]) =
    .instr (.iccChunk 0x01 0x02 [0xAA]) ∧
  decode (.record [0xE0, 0x00, 0x00, 0x00, 0x04, 0x00, 0x02, 0x4A, 0x46]) =
    .instr (.segmentRecord 0xE0 0x00000004 0x0002 [0x4A, 0x46]) ∧
  decode (.profile [1, 2] [0xAA, 0xBB, 0xCC]) = .instr (.iccProfileOut [[0xAA], [0xBB, 0xCC]])

/-- Rule R153: which words are illegal commands, that every other word is a command, and that the host's write of an illegal
word while no command runs is rejected with ILLEGAL_COMMAND and BAD_OPCODE, in every session state. (The note in `seen` is
the host's, log entry 14.) -/
def Obligations.IllegalCommandWords : Prop :=
  ∀ w : Word,
    let illegal : Prop :=
      w.extractLsb' 0 4 = 0x0#4 ∨ 0x6 ≤ (w.extractLsb' 0 4).toNat ∨ w.extractLsb' 4 4 ≠ 0x0#4 ∨
      w.extractLsb' 16 16 ≠ 0x0000#16 ∨ (w.extractLsb' 0 4 ≠ 0x3#4 ∧ w.extractLsb' 8 8 ≠ 0x00#8)
    (illegal ↔ decode (.command w) = .rejected .badOpcode) ∧
    (¬ illegal → ∃ i, decode (.command w) = .instr i ∧
      (i = .openSession ∨ i = .readSoi ∨ i = .getSegment (w.extractLsb' 8 8) ∨ i = .getCommonApp ∨ i = .getIcc)) ∧
    (∀ (s : State) (rest : List Move), illegal → s.busy = false → s.agenda = .write 0x04#8 .word w :: rest →
      step s = .next { s with
        agenda := rest
        cmdLast := w
        result := { code := .illegalCommand, err := .badOpcode, ioCause := .none, ioCode := 0#8 }
        doneFlag := true
        seen := s.seen ++ [.issued w] })

/-- Every well-formed instruction is read back from its own encoding, at every value of its operands. -/
def Obligations.DecodeEncodeRoundTrip : Prop :=
  ∀ i : Instr, WellFormed i = true → decode (encode i) = .instr i

/-- What a decoder accepts is a well-formed instruction, and its encoding is the bits it was read from: no two encodings
have one meaning. -/
def Obligations.DecodedIsWellFormedAndUnique : Prop :=
  ∀ (c : Code) (i : Instr), decode c = .instr i → WellFormed i = true ∧ encode i = c

/-- Rule R213, of the scanner's turn: it returns a code as a marker exactly when the prefix is `FF` and the code is none of
`00`, `FF`, `D0` to `D7` and `D9`. -/
def Obligations.ScannerReturnsMarkers : Prop :=
  ∀ (s : State) (v : Byte) (items : List Item), s.agenda = [] → s.estate = .scanB1 → s.input = .byte v :: items →
    ∃ i, fetch s = .run i { s with input := items, pos := s.pos + 1, b1 := v } ∧
      ∀ code : Byte, i = .marker code ↔
        s.b0 = 0xFF#8 ∧ code = v ∧ code ≠ 0x00#8 ∧ code ≠ 0xFF#8 ∧ code ≠ 0xD9#8 ∧
          ¬ (0xD0 ≤ code.toNat ∧ code.toNat ≤ 0xD7)

/-- Rule R290, with the layout of rule R160: each byte of the record of the segment held, from the registers and SEGBUF. -/
def Obligations.RecordByteContent : Prop :=
  ∀ (s : State) (payload : List Byte), payload.length = s.segSize.toNat →
    (∀ k < payload.length, s.segbuf.read k = payload[k]?) →
    s.recordPayload = some payload ∧
    (encodeRecord s.segMarker s.segOffset s.segSize payload).length = 7 + s.segSize.toNat ∧
    ∀ i < 7 + s.segSize.toNat, ∃ b : Byte,
      recordByte s.segMarker s.segOffset s.segSize payload i = some b ∧
      (encodeRecord s.segMarker s.segOffset s.segSize payload)[i]? = some b ∧
      (i = 0 → b = s.segMarker) ∧
      (1 ≤ i → i ≤ 4 → b.toNat = s.segOffset.toNat / 2 ^ (24 - 8 * (i - 1)) % 256) ∧
      (5 ≤ i → i ≤ 6 → b.toNat = s.segSize.toNat / 2 ^ (8 - 8 * (i - 5)) % 256) ∧
      (7 ≤ i → s.segbuf.read (i - 7) = some b)

/-- The command syntax and the pseudo-instructions of rules R154 and R155, on the lines and words the spec writes out. The
syntax of a number and a marker name beyond those words is the model's (log entry 7). -/
def Obligations.HostSyntax : Prop :=
  assembleLine "OPEN".toList = .command .openSession ∧
  assembleLine "read_soi ; the first command".toList = .command .readSoi ∧
  assembleLine "GET_SEGMENT APP2".toList = .command (.getSegment 0xE2) ∧
  assembleLine "GET_SEGMENT RST7".toList = .command (.getSegment 0xD7) ∧
  assembleLine "GET_SEGMENT 0xE1".toList = .command (.getSegment 0xE1) ∧
  assembleLine "GET_SEGMENT 255".toList = .command (.getSegment 0xFF) ∧
  assembleLine "GET_SEGMENT 256".toList = .invalid ∧
  assembleLine "Get_Common_App".toList = .command .getCommonApp ∧
  assembleLine "GET_ICC".toList = .command .getIcc ∧
  assembleLine "; nothing".toList = .blank ∧
  pseudoReset = [.write 0x00 .word 0x00000001] ∧
  pseudoIrqOn = [.write 0x00 .word 0x00000002] ∧
  (∀ i, pseudoExec i = .write 0x04 .word (commandWordOf i) :: pseudoWaitDone) ∧
  (∀ t : Byte, commandWordOf (.getSegment t) = 0x00000003#32 ||| (t.setWidth 32 <<< 8)) ∧
  pseudoWaitDone = [.waitDone] ∧
  pseudoAck = [.write 0x08 .word 0x00000002] ∧
  pseudoAckOverrun = [.write 0x08 .word 0x00000004] ∧
  (∀ bytes, pseudoFeed bytes = bytes.map fun b => .push (.byte b)) ∧
  pseudoFeedEnd = [.push .endOfStream] ∧
  (∀ c, pseudoFeedFault c = [.push (.fault c)]) ∧
  pseudoDrainAll = [.drainAll]

/-! ### Reset -/

/-- Rule R70: the value of every piece of state after reset, what the host's reads of it give, and the three commands that
are accepted then. -/
def Obligations.ResetValues : Prop :=
  State.reset.AtReset ∧
  (∀ offset : BitVec 8, State.reset.readReg offset = 0#32) ∧
  (∀ i, i = .openSession ∨ i = .readSoi ∨ i = .getIcc →
    ∃ t, exec i State.reset = .next t ∧ t.result.code ≠ .illegalCommand ∧ t.op ≠ .none)

/-- Rules R36, R370 and R371: the reset input and a CTRL write with SRST = 1 do the same, at any moment and in any state. The
build, the turns to come and what the host has seen are not the block's and stay (log entries 1 to 3). -/
def Obligations.ResetFromAnyState : Prop :=
  ∀ (s : State) (rest : List Move) (w : Word),
    (s.agenda = .reset :: rest ∨ (s.agenda = .write 0x00#8 .word w :: rest ∧ w.getLsbD 0 = true)) →
    ∃ t, step s = .next t ∧ t.AtReset ∧ t.params = s.params ∧ t.agenda = rest ∧ t.seen = s.seen

/-! ### Invariants -/

/-- The invariant holds right after reset. -/
def Obligations.InvariantHoldsAtReset : Prop := State.reset.Inv

/-- The invariant is kept by every step, from every state: BUSY against ESTATE, RESULT against ERR and IO_CAUSE, the channels
within their depth, the memories canonical, the counters of the reader, the cursor and the assembler. -/
def Obligations.StepKeepsInvariant : Prop :=
  ∀ s t : State, s.Inv → step s = .next t → t.Inv

/-- SEGBUF and the slot file keep their canonical form in every step of every state, with no other premise. -/
def Obligations.StepKeepsMemoriesCanonical : Prop :=
  ∀ s t : State, MemoriesCanonical s → step s = .next t → MemoriesCanonical t

/-- No step faults where the relations between the engine's registers hold (log entry 10): the faults name the states that
no run reaches. -/
def Obligations.NoStepFaults : Prop :=
  ∀ s : State, s.NoFaultCond → ∀ f, step s ≠ .fault f

/-- Rule R35 (a): the model refuses an access of another width or at an unaligned offset, and refuses nothing else. -/
def Obligations.StepRefusesOnlyBadAccesses : Prop :=
  ∀ s : State,
    (∃ r, step s = .refused r) ↔
      ∃ (offset : BitVec 8) (width : Width) (rest : List Move),
        (s.agenda = .read offset width :: rest ∨ ∃ w, s.agenda = .write offset width w :: rest) ∧
        (width ≠ .word ∨ offset.toNat % 4 ≠ 0)

/-- The build parameters are no state: no step changes one (rules R7, R72). -/
def Obligations.ParametersNeverChange : Prop :=
  ∀ s t : State, step s = .next t → t.params = s.params

/-! ### A step -/

/-- A step runs the instruction that stands where it fetches, in each of the places the block decodes at: the host's CMD
write, the start of a stream, the scanner's window, a segment's length and payload, the segment held, the record and the
profile being emitted. Around the meaning a command takes its turn off the agenda and the host notes what it issues (log entry
14), and a step that reads takes its byte off
the input channel and advances POS. -/
def Obligations.StepRunsDecodedInstruction : Prop :=
  ∀ (s : State) (i : Instr),
    (∀ w rest, s.agenda = .write 0x04#8 .word w :: rest → decode (.command w) = .instr i →
      step s = exec i ({ s with agenda := rest }.noteIssue w)) ∧
    (∀ v items, s.agenda = [] → s.input = .byte v :: items →
      (s.estate = .soi1 → decode (.startPair s.t0 v) = .instr i →
        step s = exec i { s with input := items, pos := s.pos + 1 }) ∧
      (s.estate = .scanB1 → decode (.scanPair s.b0 v) = .instr i →
        step s = exec i { s with input := items, pos := s.pos + 1, b1 := v }) ∧
      (s.estate = .lenHi → decode (.lengthHigh v) = .instr i →
        step s = exec i { s with input := items, pos := s.pos + 1 }) ∧
      (s.estate = .lenLo → decode (.lengthLow (s.len.extractLsb' 8 8) v) = .instr i →
        step s = exec i { s with input := items, pos := s.pos + 1 }) ∧
      (s.estate = .body → decode (.payload v) = .instr i →
        step s = exec i { s with input := items, pos := s.pos + 1 })) ∧
    (∀ data, s.agenda = [] → s.estate = .assemble → s.heldSegment = some data → decode (.app2 data) = .instr i →
      step s = exec i s) ∧
    (∀ payload, s.agenda = [] → s.estate = .emitSeg → s.recordPayload = some payload →
      decode (.record (encodeRecord s.segMarker s.segOffset s.segSize payload)) = .instr i → step s = exec i s) ∧
    (s.agenda = [] → s.estate = .emitIcc →
      decode (.profile (s.profileSlots.map List.length) s.profileSlots.flatten) = .instr i → step s = exec i s)

/-- Whose turn it is (log entry 2): a push and a pop are taken where rules R101 and R102 enable them, and the
engine has the turn while the host waits or nothing is planned. -/
def Obligations.TurnOrder : Prop :=
  ∀ (s : State) (rest : List Move),
    (s.agenda = .engine :: rest →
      (∀ t, step { s with agenda := [] } = .next t → step s = .next { t with agenda := rest }) ∧
      (∀ f, step { s with agenda := [] } = .fault f → step s = .fault f)) ∧
    (∀ item, s.agenda = .push item :: rest →
      (s.input.length < s.params.inDepth →
        step s = .next { s with agenda := rest, input := s.input ++ [item] }) ∧
      (s.params.inDepth ≤ s.input.length → fetch s = s.engineTurn)) ∧
    (s.agenda = .pop :: rest →
      (∀ b bytes, s.output = b :: bytes →
        step s = .next { s with agenda := rest, output := bytes, seen := s.seen ++ [.byte b] }) ∧
      (s.output = [] → fetch s = s.engineTurn)) ∧
    (s.agenda = .drainAll :: rest →
      (∀ b bytes, s.output = b :: bytes → step s = .next { s with output := bytes, seen := s.seen ++ [.byte b] }) ∧
      (s.output = [] → step s = .next { s with agenda := rest })) ∧
    (s.agenda = .waitDone :: rest →
      (∀ b bytes, s.output = b :: bytes → step s = .next { s with output := bytes, seen := s.seen ++ [.byte b] }) ∧
      (s.output = [] → s.busy = false → s.doneFlag = true →
        step s = .next { s with agenda := rest, seen := s.seen ++ [.value 0x08#8 (s.readReg 0x08#8)] }) ∧
      (s.output = [] → (s.busy = true ∨ s.doneFlag = false) → fetch s = s.engineTurn)) ∧
    (s.agenda = [] → fetch s = s.engineTurn)

/-! ### The register window -/

/-- Rules R34, R35 and R114: a read returns the register's value at that moment and changes nothing, reserved offsets read
0, and a write to a read-only or reserved offset has no effect. -/
def Obligations.RegisterAccesses : Prop :=
  ∀ (s : State) (offset : BitVec 8) (rest : List Move), offset.toNat % 4 = 0 →
    (s.agenda = .read offset .word :: rest →
      step s = .next { s with agenda := rest, seen := s.seen ++ [.value offset (s.readReg offset)] }) ∧
    (∀ w, s.agenda = .write offset .word w :: rest → offset ≠ 0x00#8 → offset ≠ 0x04#8 → offset ≠ 0x08#8 →
      step s = .next { s with agenda := rest }) ∧
    ((0x28 ≤ offset.toNat ∧ offset.toNat ≤ 0x3C ∨ 0x60 ≤ offset.toNat) → s.readReg offset = 0#32)

/-- Rule R47, with the places of BUSY, DONE and CMD_OVERRUN: STATUS as read, in every state and after reset, and a STATUS
write, which affects only bits 1 and 2. -/
def Obligations.StatusRegister : Prop :=
  ∀ s : State,
    (s.readReg 0x08#8).getLsbD 0 = s.busy ∧
    (s.readReg 0x08#8).getLsbD 1 = s.doneFlag ∧
    (s.readReg 0x08#8).getLsbD 2 = s.cmdOverrun ∧
    (s.readReg 0x08#8).getLsbD 3 = false ∧
    ((s.readReg 0x08#8).extractLsb' 4 3).toNat =
      (match s.sstate with | .start => 0 | .ready => 1 | .eoi => 2 | .error => 3 | .closed => 4) ∧
    (∀ i, 7 ≤ i → (s.readReg 0x08#8).getLsbD i = false) ∧
    State.reset.sstate = .start ∧
    (∀ w rest, s.agenda = .write 0x08#8 .word w :: rest →
      step s = .next { s with
        agenda := rest
        doneFlag := if w.getLsbD 1 then false else s.doneFlag
        cmdOverrun := if w.getLsbD 2 then false else s.cmdOverrun })

/-- Rules R44 to R46: where RESULT's fields lie, with the code of every value, and its reserved bits. -/
def Obligations.ResultRegister : Prop :=
  ∀ s : State,
    ((s.readReg 0x0C#8).extractLsb' 0 4).toNat =
      (match s.result.code with
        | .none => 0 | .ok => 1 | .segment => 2 | .noSegment => 3 | .listDone => 4 | .iccPresent => 5 | .iccAbsent => 6
        | .iccIncomplete => 7 | .error => 8 | .illegalCommand => 9) ∧
    ((s.readReg 0x0C#8).extractLsb' 4 4).toNat =
      (match s.result.err with
        | .none => 0 | .ioError => 1 | .missingSoi => 2 | .invalidSegmentLength => 3 | .invalidIccHeader => 4
        | .invalidSequenceNumber => 5 | .inconsistentChunkCount => 6 | .capacity => 7 | .badOpcode => 8 | .badState => 9) ∧
    ((s.readReg 0x0C#8).extractLsb' 8 2).toNat =
      (match s.result.ioCause with | .none => 0 | .eof => 1 | .fault => 2) ∧
    (s.readReg 0x0C#8).extractLsb' 16 8 = s.result.ioCode ∧
    (∀ i, (10 ≤ i ∧ i ≤ 15 ∨ 24 ≤ i) → (s.readReg 0x0C#8).getLsbD i = false)

/-- Rules R36, R40 and R48 to R53: where the fields of the other registers lie, and their reserved bits. -/
def Obligations.ObservationRegisters : Prop :=
  ∀ s : State,
    (s.readReg 0x00#8).getLsbD 1 = s.irqEn ∧
    (∀ i, i ≠ 1 → (s.readReg 0x00#8).getLsbD i = false) ∧
    s.readReg 0x04#8 = s.cmdLast ∧
    s.readReg 0x10#8 = s.pos ∧
    (s.readReg 0x14#8).extractLsb' 0 8 = s.segMarker ∧
    (s.readReg 0x14#8).extractLsb' 8 8 = 0#8 ∧
    (s.readReg 0x14#8).extractLsb' 16 16 = s.segSize ∧
    s.readReg 0x18#8 = s.segOffset ∧
    s.readReg 0x1C#8 = s.segCount ∧
    (s.readReg 0x20#8).extractLsb' 0 8 = s.iccTotal ∧
    (s.readReg 0x20#8).extractLsb' 8 8 = s.iccFilled ∧
    (s.readReg 0x20#8).getLsbD 16 = s.iccActive ∧
    (s.readReg 0x20#8).extractLsb' 17 15 = 0#15 ∧
    (s.readReg 0x24#8).extractLsb' 0 24 = s.iccUsed ∧
    (s.readReg 0x24#8).extractLsb' 24 8 = 0#8

/-- Rule R54: bit `i` of SLOT_VALIDk is `VALID[32k + i]`, and the bit of sequence number 0 always reads 0. A write to one has
no effect, and all read 0 after reset. -/
def Obligations.SlotValidRegisters : Prop :=
  ∀ (s : State) (k i : Nat), k < 8 → i < 32 →
    (1 ≤ 32 * k + i →
      (s.readReg (BitVec.ofNat 8 (0x40 + 4 * k))).getLsbD i = (cellGet (32 * k + i) s.slots).isSome) ∧
    (s.readReg 0x40#8).getLsbD 0 = false ∧
    State.reset.readReg (BitVec.ofNat 8 (0x40 + 4 * k)) = 0#32 ∧
    (∀ w rest, s.agenda = .write (BitVec.ofNat 8 (0x40 + 4 * k)) .word w :: rest → step s = .next { s with agenda := rest })

/-- Rule R38: the interrupt output is IRQ_EN and DONE, and a write of IRQ_EN leaves DONE alone. -/
def Obligations.InterruptLine : Prop :=
  ∀ s : State,
    (s.irq = true ↔ (s.readReg 0x00#8).getLsbD 1 = true ∧ (s.readReg 0x08#8).getLsbD 1 = true) ∧
    (∀ w rest, s.agenda = .write 0x00#8 .word w :: rest → w.getLsbD 0 = false →
      step s = .next { s with agenda := rest, irqEn := w.getLsbD 1 })

/-! ### Commands -/

/-- Rule R285: OPEN, in every session state, with all it clears; everything else, CMD_OVERRUN and CTRL among it, is
unchanged. -/
def Obligations.OpenStartsSession : Prop :=
  ∀ s : State, s.busy = false →
    exec .openSession s = .next { s with
      cmdLast := 0x00000001#32, op := .openSession, tgt := 0#8
      input := [], output := [], pos := 0#32, sstate := .start
      segMarker := 0#8, segSize := 0#16, segOffset := 0#32, segCount := 0#32
      iccActive := false, iccTotal := 0#8, iccFilled := 0#8, iccUsed := 0#24, slots := []
      result := { code := .ok, err := .none, ioCause := .none, ioCode := 0#8 }, doneFlag := true }

/-- Rules R280, R286, R288, R292 and R294: an accepted READ_SOI, GET_ICC, GET_SEGMENT or GET_COMMON_APP latches its word, OP
and TGT, clears DONE, RESULT and SEG_COUNT, sets BUSY and starts the engine; GET_ICC clears the assembler. Nothing else
changes. -/
def Obligations.CommandsAccepted : Prop :=
  ∀ s : State, s.busy = false →
    (s.sstate = .start →
      exec .readSoi s = .next { s with
        cmdLast := 0x00000002#32, op := .readSoi, tgt := 0#8, doneFlag := false, segCount := 0#32
        result := { code := .none, err := .none, ioCause := .none, ioCode := 0#8 }, busy := true, estate := .soi0 } ∧
      exec .getIcc s = .next { s with
        cmdLast := 0x00000005#32, op := .getIcc, tgt := 0#8, doneFlag := false, segCount := 0#32
        result := { code := .none, err := .none, ioCause := .none, ioCode := 0#8 }, busy := true, estate := .soi0
        iccActive := false, iccTotal := 0#8, iccFilled := 0#8, iccUsed := 0#24, slots := [] }) ∧
    (s.sstate = .ready →
      (∀ t : Byte, exec (.getSegment t) s = .next { s with
        cmdLast := 0x00000003#32 ||| (t.setWidth 32 <<< 8), op := .getSegment, tgt := t, doneFlag := false
        segCount := 0#32, result := { code := .none, err := .none, ioCause := .none, ioCode := 0#8 }
        busy := true, estate := .scanB0 }) ∧
      exec .getCommonApp s = .next { s with
        cmdLast := 0x00000004#32, op := .getCommonApp, tgt := 0#8, doneFlag := false, segCount := 0#32
        result := { code := .none, err := .none, ioCause := .none, ioCode := 0#8 }, busy := true, estate := .scanB0 })

/-- Rule R281: a command whose session state does not accept it is rejected with BAD_STATE, which changes RESULT, DONE and
CMD_LAST and nothing else. -/
def Obligations.CommandsRejectedInWrongState : Prop :=
  ∀ (s : State) (i : Instr), s.busy = false →
    ((i = .readSoi ∨ i = .getIcc) ∧ s.sstate ≠ .start ∨
      ((∃ t, i = .getSegment t) ∨ i = .getCommonApp) ∧ s.sstate ≠ .ready) →
    exec i s = .next { s with
      cmdLast := commandWordOf i
      result := { code := .illegalCommand, err := .badState, ioCause := .none, ioCode := 0#8 }
      doneFlag := true }

/-- Rule R333: a write of any word to CMD while a command runs is ignored, but for CMD_OVERRUN. -/
def Obligations.CommandWriteWhileBusy : Prop :=
  ∀ (s : State) (w : Word) (rest : List Move), s.busy = true → s.agenda = .write 0x04#8 .word w :: rest →
    step s = .next { s with agenda := rest, cmdOverrun := true }

/-- Rule R296: in EOI, ERROR and CLOSED every command but OPEN is rejected with BAD_STATE and consumes nothing. (The note
in `seen` is the host's, log entry 14.) -/
def Obligations.TerminalStatesAcceptOnlyOpen : Prop :=
  ∀ (s : State) (w : Word) (rest : List Move) (i : Instr),
    s.busy = false → (s.sstate = .eoi ∨ s.sstate = .error ∨ s.sstate = .closed) →
    s.agenda = .write 0x04#8 .word w :: rest → decode (.command w) = .instr i →
    (i ≠ .openSession →
      step s = .next { s with
        agenda := rest
        cmdLast := w
        result := { code := .illegalCommand, err := .badState, ioCause := .none, ioCode := 0#8 }
        doneFlag := true
        seen := s.seen ++ [.issued w] }) ∧
    (i = .openSession → ∃ t, step s = .next t ∧ t.sstate = .start)

/-- Rules R296 and R337: no step leaves a terminal session state but an OPEN or a reset. -/
def Obligations.OnlyOpenOrResetLeavesTerminalStates : Prop :=
  ∀ s t : State, s.Inv → (s.sstate = .eoi ∨ s.sstate = .error ∨ s.sstate = .closed) → step s = .next t →
    t.sstate ≠ s.sstate →
    ∃ rest, s.agenda = .reset :: rest ∨ s.agenda = .write 0x04#8 .word 0x00000001#32 :: rest ∨
      ∃ w, s.agenda = .write 0x00#8 .word w :: rest ∧ w.getLsbD 0 = true

/-- Rules R18 and R37: a running command stops only by its own finish, which sets DONE and leaves a result, or by a reset. -/
def Obligations.RunningCommandStopsItself : Prop :=
  ∀ s t : State, s.busy = true → step s = .next t → t.busy = false →
    (t.doneFlag = true ∧ t.result.code ≠ .none ∧ t.estate = .idle) ∨
    ∃ rest, s.agenda = .reset :: rest ∨ ∃ w, s.agenda = .write 0x00#8 .word w :: rest ∧ w.getLsbD 0 = true

/-- Rules R113, R123 and R333: while a command runs, a turn of the host's other than a reset leaves the engine's state, its
memories and its result alone. It changes at most IRQ_EN, the two W1C flags and the far ends of the channels. -/
def Obligations.HostTurnsLeaveTheEngine : Prop :=
  ∀ (s t : State) (move : Move) (rest : List Move), s.busy = true → s.agenda = move :: rest →
    move ≠ .engine → move ≠ .reset →
    (∀ item, move = .push item → s.input.length < s.params.inDepth) →
    (move = .pop ∨ move = .waitDone → s.output ≠ []) →
    (∀ w, move = .write 0x00#8 .word w → w.getLsbD 0 = false) → step s = .next t →
    t = { s with
      irqEn := t.irqEn, doneFlag := t.doneFlag, cmdOverrun := t.cmdOverrun, input := t.input, output := t.output
      agenda := t.agenda, seen := t.seen } ∧
    (t.input = s.input ∨ ∃ item, move = .push item ∧ t.input = s.input ++ [item]) ∧
    (t.output = s.output ∨ ∃ b, s.output = b :: t.output ∧ t.seen = s.seen ++ [.byte b])

/-- Rule R40: CMD reads CMD_LAST, which a write to CMD sets while BUSY is 0, accepted or not, and which nothing else changes
but a reset. -/
def Obligations.CmdLastFollowsIdleWrites : Prop :=
  State.reset.cmdLast = 0#32 ∧
  ∀ s t : State, s.readReg 0x04#8 = s.cmdLast ∧
    (step s = .next t →
      (∀ w rest, s.agenda = .write 0x04#8 .word w :: rest → t.cmdLast = if s.busy then s.cmdLast else w) ∧
      ((∀ w rest, s.agenda ≠ .write 0x04#8 .word w :: rest) →
        t.cmdLast = s.cmdLast ∨ t.cmdLast = 0#32 ∧ t.AtReset))

/-! ### The engine's reads -/

/-- Rule R13, in every state that reads: a byte advances POS by 1 and leaves the channel, `End` and `Fault` end the command
with an IOError that carries the stream's code, and an empty channel is a hold. -/
def Obligations.ReadByteItems : Prop :=
  ∀ s : State, s.agenda = [] → s.estate.reads = true →
    (∀ rest v items, s.input = .byte v :: items →
      s.readByte rest = rest v { s with input := items, pos := s.pos + 1#32 }) ∧
    (s.input = [] → step s = .next s) ∧
    (∀ v items t, s.input = .byte v :: items → step s = .next t → t.pos = s.pos + 1#32 ∧ t.input = items) ∧
    (∀ items, s.input = .endOfStream :: items → step s = .next { s with
      input := items, result := { code := .error, err := .ioError, ioCause := .eof, ioCode := 0#8 }
      sstate := .error, estate := .idle, busy := false, doneFlag := true }) ∧
    (∀ c items, s.input = .fault c :: items → step s = .next { s with
      input := items, result := { code := .error, err := .ioError, ioCause := .fault, ioCode := c }
      sstate := .error, estate := .idle, busy := false, doneFlag := true })

/-- Rules R201, R203 to R205 and R207: the scanner's first byte, and the pair classes that keep it scanning. Nothing but the
window and ESTATE changes. -/
def Obligations.ScannerScansOn : Prop :=
  ∀ s : State,
    (∀ v items, s.agenda = [] → s.estate = .scanB0 → s.input = .byte v :: items →
      step s = .next { s with input := items, pos := s.pos + 1#32, b0 := v, estate := .scanB1 }) ∧
    (∀ b0 b1 : Byte, exec (.desync b0 b1) s = .next { s with b0 := b1, estate := .scanB1 }) ∧
    exec .stuff s = .next { s with estate := .scanB0 } ∧
    exec .fill s = .next { s with estate := .scanB1 } ∧
    (∀ n : BitVec 3, exec (.rst n) s = .next { s with estate := .scanB0 })

/-- Rule R283: what EOI ends each scanning command with, and what an unfinished GET_ICC has then accepted. -/
def Obligations.EoiEndsTheScan : Prop :=
  ∀ s : State,
    (s.op = .getSegment → exec .eoi s = .next { s with
      result := { code := .noSegment, err := .none, ioCause := .none, ioCode := 0#8 }
      sstate := .eoi, estate := .idle, busy := false, doneFlag := true }) ∧
    (s.op = .getCommonApp → exec .eoi s = .next { s with
      result := { code := .listDone, err := .none, ioCause := .none, ioCode := 0#8 }
      sstate := .eoi, estate := .idle, busy := false, doneFlag := true }) ∧
    (s.op = .getIcc → exec .eoi s = .next { s with
      result := { code := if s.iccActive then .iccIncomplete else .iccAbsent, err := .none, ioCause := .none, ioCode := 0#8 }
      sstate := .eoi, estate := .idle, busy := false, doneFlag := true }) ∧
    (s.Inv → s.estate = .scanB1 → s.op = .getIcc → s.iccActive = true →
      1 ≤ s.iccFilled.toNat ∧ s.iccFilled.toNat < s.iccTotal.toNat)

/-- Rules R208 and R284: a marker's code and offset are kept, KEEP is decided by the command, and the reader starts. -/
def Obligations.MarkerStartsReader : Prop :=
  ∀ (s : State) (code : Byte),
    (s.op = .getSegment → exec (.marker code) s = .next { s with
      mkCode := code, moff := s.pos, keep := decide (code = s.tgt), estate := .lenHi }) ∧
    (s.op = .getCommonApp → exec (.marker code) s = .next { s with
      mkCode := code, moff := s.pos, keep := decide (code = 0xE0#8 ∨ code = 0xE1#8 ∨ code = 0xE2#8), estate := .lenHi }) ∧
    (s.op = .getIcc → exec (.marker code) s = .next { s with
      mkCode := code, moff := s.pos, keep := decide (code = 0xE2#8), estate := .lenHi })

/-- Rules R286 and R287: the two steps of the SOI check, both bytes read before it, and what follows when it passes. -/
def Obligations.SoiCheck : Prop :=
  ∀ (s : State) (v : Byte) (items : List Item), s.agenda = [] → s.input = .byte v :: items →
    (s.estate = .soi0 →
      step s = .next { s with input := items, pos := s.pos + 1#32, t0 := v, estate := .soi1 }) ∧
    (s.estate = .soi1 → (s.t0 ≠ 0xFF#8 ∨ v ≠ 0xD8#8) → step s = .next { s with
      input := items, pos := s.pos + 1#32
      result := { code := .error, err := .missingSoi, ioCause := .none, ioCode := 0#8 }
      sstate := .error, estate := .idle, busy := false, doneFlag := true }) ∧
    (s.estate = .soi1 → s.t0 = 0xFF#8 → v = 0xD8#8 →
      step s = exec .soi { s with input := items, pos := s.pos + 1#32 })

/-- Rule R287: SOI ends READ_SOI with OK and starts GET_ICC's scan, in session state READY. -/
def Obligations.SoiPassed : Prop :=
  ∀ s : State,
    (s.op = .readSoi → exec .soi s = .next { s with
      result := { code := .ok, err := .none, ioCause := .none, ioCode := 0#8 }
      sstate := .ready, estate := .idle, busy := false, doneFlag := true }) ∧
    (s.op ≠ .readSoi → exec .soi s = .next { s with sstate := .ready, estate := .scanB0 })

/-- Rules R231, R232 and R233: the length field, high byte first, and the check of `L - 2` on unbounded integers. -/
def Obligations.LengthField : Prop :=
  ∀ (s : State) (hi lo : Byte),
    exec (.segment (.lengthHigh hi)) s = .next { s with
      len := BitVec.ofNat 16 (256 * hi.toNat + s.len.toNat % 256), estate := .lenLo } ∧
    (∀ L : Half, L.toNat = 256 * hi.toNat + lo.toNat →
      (L.toNat < 2 → exec (.segment (.lengthLow hi lo)) s = .next { s with
        len := L, result := { code := .error, err := .invalidSegmentLength, ioCause := .none, ioCode := 0#8 }
        sstate := .error, estate := .idle, busy := false, doneFlag := true }) ∧
      (L.toNat = 2 → exec (.segment (.lengthLow hi lo)) s =
        .next { s with len := L, remain := 0#16, seglen := 0#16 }.onSegmentEnd) ∧
      (2 < L.toNat → exec (.segment (.lengthLow hi lo)) s = .next { s with
        len := L, remain := L - 2#16, seglen := 0#16, estate := .body }))

/-- Rules R234 and R235: a payload byte is dropped or copied, and the last one ends the segment. Every byte of SEGBUF but the
one stored at SEGLEN reads as before. -/
def Obligations.PayloadByte : Prop :=
  ∀ (s : State) (v : Byte),
    (s.keep = false → exec (.segment (.payload v)) s =
      .next (if s.remain = 1#16 then { s with remain := 0#16 }.onSegmentEnd else { s with remain := s.remain - 1#16 })) ∧
    (s.keep = true → s.seglen.toNat < 65533 →
      ∃ m : Memory, m.read s.seglen.toNat = some v ∧ (∀ a, a ≠ s.seglen.toNat → m.read a = s.segbuf.read a) ∧
        exec (.segment (.payload v)) s =
          .next (if s.remain = 1#16 then
            { s with segbuf := m, seglen := s.seglen + 1#16, remain := 0#16 }.onSegmentEnd
          else { s with segbuf := m, seglen := s.seglen + 1#16, remain := s.remain - 1#16 }))

/-- Rule R289: what the end of a segment starts. -/
def Obligations.SegmentEnd : Prop :=
  ∀ s : State,
    (s.keep = false → s.onSegmentEnd = { s with estate := .scanB0 }) ∧
    (s.keep = true → s.op = .getIcc → s.onSegmentEnd = { s with estate := .assemble }) ∧
    (s.keep = true → s.op ≠ .getIcc → s.onSegmentEnd = { s with
      segMarker := s.mkCode, segOffset := s.moff, segSize := s.seglen, eidx := 0#24, estate := .emitSeg })

/-- Rules R231, R232 and R234 to R237: a whole segment, from LEN_HI to the step that performs OnSegmentEnd, takes `2 + size` bytes off the channel,
advances POS by `2 + size` and, if it is kept, leaves its payload and nothing else changed in SEGBUF. -/
def Obligations.SegmentReadRun : Prop :=
  ∀ (s : State) (payload : List Byte) (hi lo : Byte) (items : List Item),
    s.agenda = [] → s.estate = .lenHi → payload.length ≤ 65533 → 256 * hi.toNat + lo.toNat = payload.length + 2 →
    s.input = (hi :: lo :: payload).map Item.byte ++ items →
    ∃ u : State, stepN (2 + payload.length) s = .next u.onSegmentEnd ∧
      u.pos = s.pos + BitVec.ofNat 32 (2 + payload.length) ∧
      u.seglen.toNat = (if s.keep then payload.length else 0) ∧
      (∀ a, u.segbuf.read a = if s.keep = true ∧ a < payload.length then payload[a]? else s.segbuf.read a) ∧
      u = { s with
        input := items, pos := u.pos, len := BitVec.ofNat 16 (payload.length + 2), remain := 0#16
        seglen := u.seglen, segbuf := u.segbuf, estate := u.estate }

/-! ### The record -/

/-- Rule R291: one byte of the record is pushed, the last one counts the record and ends GET_SEGMENT or sends
GET_COMMON_APP on; a full output channel is a hold. -/
def Obligations.RecordByteStep : Prop :=
  ∀ (s : State) (marker : Byte) (offset : Word) (size : Half) (payload : List Byte),
    payload.length = size.toNat → s.eidx.toNat < 7 + size.toNat →
    (s.params.outDepth ≤ s.output.length →
      exec (.segmentRecord marker offset size payload) s = .next s) ∧
    (s.output.length < s.params.outDepth →
      ∃ b, (encodeRecord marker offset size payload)[s.eidx.toNat]? = some b ∧
        exec (.segmentRecord marker offset size payload) s = .next (
          let u := { s with output := s.output ++ [b], eidx := s.eidx + 1#24 }
          if s.eidx.toNat + 1 < 7 + size.toNat then u
          else if s.op = .getSegment then { u with
            segCount := s.segCount + 1#32
            result := { code := .segment, err := .none, ioCause := .none, ioCode := 0#8 }
            sstate := .ready, estate := .idle, busy := false, doneFlag := true }
          else { u with segCount := s.segCount + 1#32, estate := .scanB0 }))

/-- Rules R160, R289 to R291: with room for it, the record of the segment held is pushed whole, in order, in `7 + size`
steps. -/
def Obligations.RecordRun : Prop :=
  ∀ (s : State) (payload : List Byte), s.agenda = [] → s.estate = .emitSeg → s.eidx = 0#24 →
    s.recordPayload = some payload → s.output.length + (7 + payload.length) ≤ s.params.outDepth →
    stepN (7 + payload.length) s = .next (
      let u := { s with
        output := s.output ++ encodeRecord s.segMarker s.segOffset s.segSize payload
        eidx := BitVec.ofNat 24 (7 + payload.length), segCount := s.segCount + 1#32 }
      if s.op = .getSegment then { u with
        result := { code := .segment, err := .none, ioCause := .none, ioCode := 0#8 }
        sstate := .ready, estate := .idle, busy := false, doneFlag := true }
      else { u with estate := .scanB0 })

/-! ### The assembler -/

/-- Rules R250 to R256, R264 and R265: the checks on the segment held, in their order; the first that fails ends the command
with its error, and the count that step 4 has fixed stays. A chunk that passes them all is stored as its ICC_CHUNK. -/
def Obligations.IccChecksRunInOrder : Prop :=
  ∀ (s : State) (data : List Byte), s.Inv → s.agenda = [] → s.estate = .assemble →
    data.length = s.seglen.toNat → (∀ k < data.length, s.segbuf.read k = data[k]?) →
    (data.length < 14 → step s = .next (s.raise .invalidIccHeader .none 0)) ∧
    (14 ≤ data.length →
      data.take 12 ≠ [0x49, 0x43, 0x43, 0x5F, 0x50, 0x52, 0x4F, 0x46, 0x49, 0x4C, 0x45, 0x00] →
      step s = .next (s.raise .invalidIccHeader .none 0)) ∧
    (∀ (seq cnt : Byte) (payload : List Byte),
      data = [0x49, 0x43, 0x43, 0x5F, 0x50, 0x52, 0x4F, 0x46, 0x49, 0x4C, 0x45, 0x00] ++ seq :: cnt :: payload →
      let counted := if s.iccActive then s else { s with iccTotal := cnt, iccActive := true }
      let old := if s.valid seq.toNat then (s.slot seq.toNat).length else 0
      step s =
        if seq = 0#8 then .next (s.raise .invalidSequenceNumber .none 0)
        else if s.iccActive = true ∧ cnt ≠ s.iccTotal then .next (s.raise .inconsistentChunkCount .none 0)
        else if cnt.toNat < seq.toNat then .next (counted.raise .invalidSequenceNumber .none 0)
        else if s.params.iccMemBytes < s.iccUsed.toNat - old + payload.length then .next (counted.raise .capacity .none 0)
        else exec (.iccChunk seq cnt payload) s)

/-- Rules R254, R257 and R258: a chunk that passes the checks is stored in its slot, replaces what the slot held and counts
once; nothing else of the slot file changes. The engine goes back to the scanner while the profile is incomplete, and starts
its emission in the same step when it is complete. -/
def Obligations.ChunkStored : Prop :=
  ∀ (s : State) (seq cnt : Byte) (payload : List Byte), IccCounts s → MemoriesCanonical s → payload.length ≤ 65519 →
    seq ≠ 0#8 → seq.toNat ≤ cnt.toNat → (s.iccActive = true → cnt = s.iccTotal) →
    let old := if s.valid seq.toNat then (s.slot seq.toNat).length else 0
    s.iccUsed.toNat - old + payload.length ≤ s.params.iccMemBytes →
    ∃ u : State,
      u = { s with iccTotal := cnt, iccActive := true, iccFilled := u.iccFilled, iccUsed := u.iccUsed, slots := u.slots } ∧
      u.iccFilled = (if s.valid seq.toNat then s.iccFilled else s.iccFilled + 1#8) ∧
      u.iccUsed.toNat = s.iccUsed.toNat - old + payload.length ∧
      (∀ k, u.valid k = (decide (k = seq.toNat) || s.valid k)) ∧
      (∀ k, u.slot k = if k = seq.toNat then payload else s.slot k) ∧
      exec (.iccChunk seq cnt payload) s =
        .next (if u.iccFilled = cnt then u.startEmit else { u with estate := .scanB0 })

/-- Rule R259: the emission starts at the first slot that holds a byte, and a profile of 0 bytes is finished at once. -/
def Obligations.EmissionStarts : Prop :=
  ∀ s : State,
    ((∀ k, 1 ≤ k → k ≤ s.iccTotal.toNat → s.slot k = []) →
      s.startEmit = { s with
        eslot := BitVec.ofNat 9 (s.iccTotal.toNat + 1), eidx := 0#24
        result := { code := .iccPresent, err := .none, ioCause := .none, ioCode := 0#8 }
        sstate := .closed, estate := .idle, busy := false, doneFlag := true }) ∧
    (∀ k, 1 ≤ k → k ≤ s.iccTotal.toNat → s.slot k ≠ [] → (∀ j, 1 ≤ j → j < k → s.slot j = []) →
      s.startEmit = { s with eslot := BitVec.ofNat 9 k, eidx := 0#24, estate := .emitIcc })

/-- Rule R263: a chunk whose count byte is 0 always fails, with INVALID_SEQUENCE_NUMBER on a first chunk and with
INCONSISTENT_CHUNK_COUNT on a later one, where the fixed total is at least 1. (A sequence number of 0 is the earlier check.) -/
def Obligations.CountZeroAlwaysFails : Prop :=
  ∀ (s : State) (seq : Byte) (payload : List Byte), s.Inv → s.estate = .assemble → seq ≠ 0#8 →
    (s.iccActive = false → exec (.iccChunk seq 0x00 payload) s = .next { s with
      iccTotal := 0#8, iccActive := true
      result := { code := .error, err := .invalidSequenceNumber, ioCause := .none, ioCode := 0#8 }
      sstate := .error, estate := .idle, busy := false, doneFlag := true }) ∧
    (s.iccActive = true → 1 ≤ s.iccTotal.toNat ∧ exec (.iccChunk seq 0x00 payload) s = .next { s with
      result := { code := .error, err := .inconsistentChunkCount, ioCause := .none, ioCode := 0#8 }
      sstate := .error, estate := .idle, busy := false, doneFlag := true })

/-- Rule R260: one byte of the profile is pushed, and the cursor stands at the next byte; the last byte finishes the command.
A full output channel is a hold. -/
def Obligations.ProfileByteStep : Prop :=
  ∀ (s : State) (slots : List (List Byte)) (p : List Byte),
    slots.length ≤ 255 → (∀ q ∈ slots, q.length ≤ 65519) →
    1 ≤ s.eslot.toNat → slots[s.eslot.toNat - 1]? = some p → s.eidx.toNat < p.length →
    (s.params.outDepth ≤ s.output.length → exec (.iccProfileOut slots) s = .next s) ∧
    (s.output.length < s.params.outDepth →
      ∃ b rest t, exec (.iccProfileOut slots) s = .next t ∧ p[s.eidx.toNat]? = some b ∧
        profileRest slots s.eslot.toNat s.eidx.toNat = b :: rest ∧
        (rest = [] → t = { s with
          output := s.output ++ [b], eslot := BitVec.ofNat 9 (slots.length + 1), eidx := 0#24
          result := { code := .iccPresent, err := .none, ioCause := .none, ioCode := 0#8 }
          sstate := .closed, estate := .idle, busy := false, doneFlag := true }) ∧
        (rest ≠ [] → t = { s with output := s.output ++ [b], eslot := t.eslot, eidx := t.eidx, estate := .emitIcc } ∧
          profileRest slots t.eslot.toNat t.eidx.toNat = rest ∧
          1 ≤ t.eslot.toNat ∧ ∃ q, slots[t.eslot.toNat - 1]? = some q ∧ t.eidx.toNat < q.length) ∧
        (s.eidx.toNat + 1 < p.length → t.eslot = s.eslot ∧ t.eidx = s.eidx + 1#24))

/-- Rules R164, R260 and R261: with room for it, what is left of the profile is pushed in slot order, one byte a step, and
GET_ICC ends with ICC_PRESENT in session state CLOSED. -/
def Obligations.ProfileRun : Prop :=
  ∀ s : State, s.Inv → s.agenda = [] → s.estate = .emitIcc →
    let rest := profileRest s.profileSlots s.eslot.toNat s.eidx.toNat
    s.output.length + rest.length ≤ s.params.outDepth →
    stepN rest.length s = .next { s with
      output := s.output ++ rest, eslot := BitVec.ofNat 9 (s.iccTotal.toNat + 1), eidx := 0#24
      result := { code := .iccPresent, err := .none, ioCause := .none, ioCode := 0#8 }
      sstate := .closed, estate := .idle, busy := false, doneFlag := true }

/-- Rules R53 and R258: when ICC_FILLED is ICC_TOTAL every slot 1 to ICC_TOTAL is valid and no other is, and ICC_LEN is the
length of the profile. -/
def Obligations.CompleteProfile : Prop :=
  ∀ s : State, s.Inv → s.iccFilled = s.iccTotal →
    (∀ k, s.valid k = true ↔ 1 ≤ k ∧ k ≤ s.iccTotal.toNat) ∧
    ((s.readReg 0x24#8).extractLsb' 0 24).toNat = s.profileSlots.flatten.length

/-- Rules R261 and R262: after any arrivals, in any order and with repeats, a slot holds the last payload that arrived for
it, and what it held before if none did. -/
def Obligations.LastChunkWins : Prop :=
  ∀ (arrivals : List (Byte × List Byte)) (s : State) (k : Nat),
    (arrivals.foldl (fun s a => s.storeChunk a.1 a.2) s).slot k =
      match arrivals.reverse.find? (fun a => a.1.toNat == k) with
      | some a => a.2
      | none => s.slot k

/-! ### The engine as a whole -/

/-- Rules R354 and R355: the engine makes no step in exactly these cases: it is IDLE; it needs a byte and the input channel
is empty; it has a byte to push and the output channel is full. -/
def Obligations.EngineHoldsExactly : Prop :=
  ∀ s : State, s.Inv → s.agenda = [] →
    (step s = .next s ↔
      s.estate = .idle ∨ (s.estate.reads = true ∧ s.input = []) ∨
      (s.estate.emits = true ∧ s.params.outDepth ≤ s.output.length))

/-- Rule R301: an engine step that is no hold follows the table, and the only way out of IDLE is an accepted command. -/
def Obligations.EngineTransitions : Prop :=
  ∀ s t : State, step s = .next t →
    (s.agenda = [] → t = s ∨ t.estate ∈ s.estate.successors) ∧
    (s.estate = .idle → t.estate ≠ .idle →
      ∃ w rest i, s.agenda = .write 0x04#8 .word w :: rest ∧ decode (.command w) = .instr i ∧ t.busy = true ∧
        ((i = .readSoi ∨ i = .getIcc) ∧ t.estate = .soi0 ∨
          ((∃ target, i = .getSegment target) ∨ i = .getCommonApp) ∧ t.estate = .scanB0))

/-- Rules R20 and R112: an engine step reads at most one item or pushes at most one byte, never both. -/
def Obligations.EngineMovesOneUnit : Prop :=
  ∀ s t : State, s.agenda = [] → step s = .next t →
    (t.input = s.input ∧ (t.output = s.output ∨ ∃ b, t.output = s.output ++ [b])) ∨
    (∃ item, s.input = item :: t.input ∧ t.output = s.output)

/-- Rules R44, R295 and R330: how each command can end, with which result, which error, in which engine state and in which
session state; no other ending exists. -/
def Obligations.CommandOutcomes : Prop :=
  ∀ s t : State, s.Inv → s.agenda = [] → s.busy = true → step s = .next t → t.busy = false →
    (s.op = .readSoi ∧ t.result.code = .ok ∧ t.sstate = .ready) ∨
    (s.op = .getSegment ∧ t.result.code = .segment ∧ t.sstate = .ready ∧ s.estate = .emitSeg) ∨
    (s.op = .getSegment ∧ t.result.code = .noSegment ∧ t.sstate = .eoi) ∨
    (s.op = .getCommonApp ∧ t.result.code = .listDone ∧ t.sstate = .eoi) ∨
    (s.op = .getIcc ∧ t.result.code = .iccPresent ∧ t.sstate = .closed ∧ t.iccFilled = t.iccTotal) ∨
    (s.op = .getIcc ∧ t.result.code = .iccAbsent ∧ t.sstate = .eoi ∧ s.iccActive = false) ∨
    (s.op = .getIcc ∧ t.result.code = .iccIncomplete ∧ t.sstate = .eoi ∧ s.iccActive = true ∧
      s.iccFilled.toNat < s.iccTotal.toNat) ∨
    (t.result.code = .error ∧ t.sstate = .error ∧ t.output = s.output ∧
      ((t.result.err = .ioError ∧ s.estate.reads = true) ∨
        (t.result.err = .missingSoi ∧ s.estate = .soi1 ∧ (s.op = .readSoi ∨ s.op = .getIcc)) ∨
        (t.result.err = .invalidSegmentLength ∧ s.estate = .lenLo) ∨
        ((t.result.err = .invalidIccHeader ∨ t.result.err = .invalidSequenceNumber ∨
          t.result.err = .inconsistentChunkCount ∨ t.result.err = .capacity) ∧ s.estate = .assemble ∧ s.op = .getIcc)))

/-- Rules R282 and R336: the two endings of a command, with all they write. -/
def Obligations.CommandEndings : Prop :=
  ∀ s : State,
    (∀ err ioCause ioCode, s.raise err ioCause ioCode = { s with
      result := { code := .error, err := err, ioCause := ioCause, ioCode := ioCode }
      sstate := .error, estate := .idle, busy := false, doneFlag := true }) ∧
    (∀ code session, s.finish code session = { s with
      result := { code := code, err := .none, ioCause := .none, ioCode := 0#8 }
      sstate := session, estate := .idle, busy := false, doneFlag := true })

/-- Rules R299, R336 and R383. A step that raises an error pushes no byte, and leaves the session in ERROR and the engine IDLE
with DONE set. What a command has pushed before is followed from its acceptance through every step until it ends with an
error: whole records, SEG_COUNT of them, of GET_COMMON_APP only, and nothing of another command that fails. A host that waits
for DONE, drains the output and reads RESULT then keeps no byte of a command that ended with ERROR, and every byte of one
that ended without error. (How the host keeps its count is log entry 14.) -/
def Obligations.ErrorsPushNothing : Prop :=
  (∀ s t : State, step s = .next t → t.result.code = .error → s.result.code ≠ .error →
    t.output = s.output ∧ t.sstate = .error ∧ t.estate = .idle ∧ t.busy = false ∧ t.doneFlag = true) ∧
  (∀ (s t : State) (w : Word) (rest : List Move), s.busy = false → s.agenda = .write 0x04#8 .word w :: rest →
    step s = .next t → t.busy = true → CommandPushed s.output t) ∧
  (∀ (s t : State) (before : List Byte), s.Inv → s.busy = true → CommandPushed before s → step s = .next t →
    (t.busy = true → CommandPushed before t) ∧
    (t.busy = false → t.result.code = .error → ∃ (bytes : List Byte) (records : List Instr),
      t.commandOutput = before ++ bytes ∧ splitRecords bytes = some records ∧
      t.segCount = BitVec.ofNat 32 records.length ∧ (t.op ≠ .getCommonApp → bytes = []))) ∧
  (∀ (s : State) (rest : List Move) (earlier later : List Seen) (w : Word),
    s.busy = false → s.doneFlag = true → s.result.code ≠ .none → s.agenda = hostSettle ++ rest →
    s.seen = earlier ++ .issued w :: later → (∀ v, .issued v ∉ later) →
    ∃ t : State, stepN (s.output.length + 3) s = .next t ∧
      t = { s with agenda := rest, output := [], seen := t.seen } ∧
      hostKeeps t.seen = hostKeeps earlier ++
        if s.result.code = .error ∨ s.result.code = .illegalCommand then [] else s.commandOutput)

/-- Rules R56, R104, R105 and R125: which instructions write the internal memories. Only a kept payload byte changes SEGBUF,
at SEGLEN; only ICC_CHUNK, OPEN and GET_ICC change the slot file. -/
def Obligations.InternalMemoryFrames : Prop :=
  ∀ (i : Instr) (s t : State), exec i s = .next t →
    ((∀ v, i ≠ .segment (.payload v)) → t.segbuf = s.segbuf) ∧
    (∀ v, i = .segment (.payload v) →
      ∀ a, (s.keep = false ∨ a ≠ s.seglen.toNat) → t.segbuf.read a = s.segbuf.read a) ∧
    ((∀ seq cnt payload, i ≠ .iccChunk seq cnt payload) → i ≠ .openSession → i ≠ .getIcc →
      t.slots = s.slots ∧ t.iccUsed = s.iccUsed ∧ t.iccFilled = s.iccFilled ∧ t.iccTotal = s.iccTotal ∧
      t.iccActive = s.iccActive) ∧
    (∀ seq cnt payload, i = .iccChunk seq cnt payload → ∀ k, k ≠ seq.toNat → t.slot k = s.slot k)

/-- The faults, by name, where the spec gives no effect (log entry 10): no case of `OnEOI` or `OnMarker`, no such entry of
SEGBUF, a cursor outside what is emitted. -/
def Obligations.FaultsByName : Prop :=
  ∀ s : State,
    ((s.op = .none ∨ s.op = .openSession ∨ s.op = .readSoi) →
      exec .eoi s = .fault .noScanningCommand ∧ ∀ code, exec (.marker code) s = .fault .noScanningCommand) ∧
    (∀ v, s.keep = true → 65533 ≤ s.seglen.toNat → exec (.segment (.payload v)) s = .fault .segbufIndex) ∧
    (∀ marker offset size payload, payload.length = size.toNat → 7 + size.toNat ≤ s.eidx.toNat →
      exec (.segmentRecord marker offset size payload) s = .fault .emissionCursor) ∧
    (∀ slots, (s.eslot = 0#9 ∨ slots.length < s.eslot.toNat) →
      exec (.iccProfileOut slots) s = .fault .emissionCursor) ∧
    (s.agenda = [] → s.estate = .assemble → s.heldSegment = none → step s = .fault .segbufUnwritten) ∧
    (s.agenda = [] → s.estate = .emitSeg → s.recordPayload = none → step s = .fault .segbufUnwritten)
end

