-- ==== Sys2Proof/Laws/State.lean ====
section
/-! SUPPORT. The small laws of the state's updates: what each leaves in each field, so that no proof unfolds one. -/

namespace Sys2Proof.Machine

/-! ### `Finish` (rule R282) -/

@[simp] theorem State.finish_params (s : State) (c : ResultCode) (ss : SState) : (s.finish c ss).params = s.params := rfl
@[simp] theorem State.finish_irqEn (s : State) (c : ResultCode) (ss : SState) : (s.finish c ss).irqEn = s.irqEn := rfl
@[simp] theorem State.finish_cmdLast (s : State) (c : ResultCode) (ss : SState) : (s.finish c ss).cmdLast = s.cmdLast := rfl
@[simp] theorem State.finish_busy (s : State) (c : ResultCode) (ss : SState) : (s.finish c ss).busy = false := rfl
@[simp] theorem State.finish_doneFlag (s : State) (c : ResultCode) (ss : SState) : (s.finish c ss).doneFlag = true := rfl
@[simp] theorem State.finish_cmdOverrun (s : State) (c : ResultCode) (ss : SState) : (s.finish c ss).cmdOverrun = s.cmdOverrun := rfl
@[simp] theorem State.finish_sstate (s : State) (c : ResultCode) (ss : SState) : (s.finish c ss).sstate = ss := rfl
@[simp] theorem State.finish_result (s : State) (c : ResultCode) (ss : SState) : (s.finish c ss).result = { code := c, err := .none, ioCause := .none, ioCode := 0 } := rfl
@[simp] theorem State.finish_pos (s : State) (c : ResultCode) (ss : SState) : (s.finish c ss).pos = s.pos := rfl
@[simp] theorem State.finish_segMarker (s : State) (c : ResultCode) (ss : SState) : (s.finish c ss).segMarker = s.segMarker := rfl
@[simp] theorem State.finish_segSize (s : State) (c : ResultCode) (ss : SState) : (s.finish c ss).segSize = s.segSize := rfl
@[simp] theorem State.finish_segOffset (s : State) (c : ResultCode) (ss : SState) : (s.finish c ss).segOffset = s.segOffset := rfl
@[simp] theorem State.finish_segCount (s : State) (c : ResultCode) (ss : SState) : (s.finish c ss).segCount = s.segCount := rfl
@[simp] theorem State.finish_iccTotal (s : State) (c : ResultCode) (ss : SState) : (s.finish c ss).iccTotal = s.iccTotal := rfl
@[simp] theorem State.finish_iccFilled (s : State) (c : ResultCode) (ss : SState) : (s.finish c ss).iccFilled = s.iccFilled := rfl
@[simp] theorem State.finish_iccActive (s : State) (c : ResultCode) (ss : SState) : (s.finish c ss).iccActive = s.iccActive := rfl
@[simp] theorem State.finish_iccUsed (s : State) (c : ResultCode) (ss : SState) : (s.finish c ss).iccUsed = s.iccUsed := rfl
@[simp] theorem State.finish_slots (s : State) (c : ResultCode) (ss : SState) : (s.finish c ss).slots = s.slots := rfl
@[simp] theorem State.finish_estate (s : State) (c : ResultCode) (ss : SState) : (s.finish c ss).estate = .idle := rfl
@[simp] theorem State.finish_op (s : State) (c : ResultCode) (ss : SState) : (s.finish c ss).op = s.op := rfl
@[simp] theorem State.finish_tgt (s : State) (c : ResultCode) (ss : SState) : (s.finish c ss).tgt = s.tgt := rfl
@[simp] theorem State.finish_t0 (s : State) (c : ResultCode) (ss : SState) : (s.finish c ss).t0 = s.t0 := rfl
@[simp] theorem State.finish_b0 (s : State) (c : ResultCode) (ss : SState) : (s.finish c ss).b0 = s.b0 := rfl
@[simp] theorem State.finish_b1 (s : State) (c : ResultCode) (ss : SState) : (s.finish c ss).b1 = s.b1 := rfl
@[simp] theorem State.finish_mkCode (s : State) (c : ResultCode) (ss : SState) : (s.finish c ss).mkCode = s.mkCode := rfl
@[simp] theorem State.finish_moff (s : State) (c : ResultCode) (ss : SState) : (s.finish c ss).moff = s.moff := rfl
@[simp] theorem State.finish_len (s : State) (c : ResultCode) (ss : SState) : (s.finish c ss).len = s.len := rfl
@[simp] theorem State.finish_remain (s : State) (c : ResultCode) (ss : SState) : (s.finish c ss).remain = s.remain := rfl
@[simp] theorem State.finish_keep (s : State) (c : ResultCode) (ss : SState) : (s.finish c ss).keep = s.keep := rfl
@[simp] theorem State.finish_seglen (s : State) (c : ResultCode) (ss : SState) : (s.finish c ss).seglen = s.seglen := rfl
@[simp] theorem State.finish_segbuf (s : State) (c : ResultCode) (ss : SState) : (s.finish c ss).segbuf = s.segbuf := rfl
@[simp] theorem State.finish_eidx (s : State) (c : ResultCode) (ss : SState) : (s.finish c ss).eidx = s.eidx := rfl
@[simp] theorem State.finish_eslot (s : State) (c : ResultCode) (ss : SState) : (s.finish c ss).eslot = s.eslot := rfl
@[simp] theorem State.finish_input (s : State) (c : ResultCode) (ss : SState) : (s.finish c ss).input = s.input := rfl
@[simp] theorem State.finish_output (s : State) (c : ResultCode) (ss : SState) : (s.finish c ss).output = s.output := rfl
@[simp] theorem State.finish_agenda (s : State) (c : ResultCode) (ss : SState) : (s.finish c ss).agenda = s.agenda := rfl
@[simp] theorem State.finish_seen (s : State) (c : ResultCode) (ss : SState) : (s.finish c ss).seen = s.seen := rfl

/-! ### `raise` (rule R336) -/

@[simp] theorem State.raise_params (s : State) (e : ErrCode) (k : IoCause) (q : Byte) : (s.raise e k q).params = s.params := rfl
@[simp] theorem State.raise_irqEn (s : State) (e : ErrCode) (k : IoCause) (q : Byte) : (s.raise e k q).irqEn = s.irqEn := rfl
@[simp] theorem State.raise_cmdLast (s : State) (e : ErrCode) (k : IoCause) (q : Byte) : (s.raise e k q).cmdLast = s.cmdLast := rfl
@[simp] theorem State.raise_busy (s : State) (e : ErrCode) (k : IoCause) (q : Byte) : (s.raise e k q).busy = false := rfl
@[simp] theorem State.raise_doneFlag (s : State) (e : ErrCode) (k : IoCause) (q : Byte) : (s.raise e k q).doneFlag = true := rfl
@[simp] theorem State.raise_cmdOverrun (s : State) (e : ErrCode) (k : IoCause) (q : Byte) : (s.raise e k q).cmdOverrun = s.cmdOverrun := rfl
@[simp] theorem State.raise_sstate (s : State) (e : ErrCode) (k : IoCause) (q : Byte) : (s.raise e k q).sstate = .error := rfl
@[simp] theorem State.raise_result (s : State) (e : ErrCode) (k : IoCause) (q : Byte) : (s.raise e k q).result = { code := .error, err := e, ioCause := k, ioCode := q } := rfl
@[simp] theorem State.raise_pos (s : State) (e : ErrCode) (k : IoCause) (q : Byte) : (s.raise e k q).pos = s.pos := rfl
@[simp] theorem State.raise_segMarker (s : State) (e : ErrCode) (k : IoCause) (q : Byte) : (s.raise e k q).segMarker = s.segMarker := rfl
@[simp] theorem State.raise_segSize (s : State) (e : ErrCode) (k : IoCause) (q : Byte) : (s.raise e k q).segSize = s.segSize := rfl
@[simp] theorem State.raise_segOffset (s : State) (e : ErrCode) (k : IoCause) (q : Byte) : (s.raise e k q).segOffset = s.segOffset := rfl
@[simp] theorem State.raise_segCount (s : State) (e : ErrCode) (k : IoCause) (q : Byte) : (s.raise e k q).segCount = s.segCount := rfl
@[simp] theorem State.raise_iccTotal (s : State) (e : ErrCode) (k : IoCause) (q : Byte) : (s.raise e k q).iccTotal = s.iccTotal := rfl
@[simp] theorem State.raise_iccFilled (s : State) (e : ErrCode) (k : IoCause) (q : Byte) : (s.raise e k q).iccFilled = s.iccFilled := rfl
@[simp] theorem State.raise_iccActive (s : State) (e : ErrCode) (k : IoCause) (q : Byte) : (s.raise e k q).iccActive = s.iccActive := rfl
@[simp] theorem State.raise_iccUsed (s : State) (e : ErrCode) (k : IoCause) (q : Byte) : (s.raise e k q).iccUsed = s.iccUsed := rfl
@[simp] theorem State.raise_slots (s : State) (e : ErrCode) (k : IoCause) (q : Byte) : (s.raise e k q).slots = s.slots := rfl
@[simp] theorem State.raise_estate (s : State) (e : ErrCode) (k : IoCause) (q : Byte) : (s.raise e k q).estate = .idle := rfl
@[simp] theorem State.raise_op (s : State) (e : ErrCode) (k : IoCause) (q : Byte) : (s.raise e k q).op = s.op := rfl
@[simp] theorem State.raise_tgt (s : State) (e : ErrCode) (k : IoCause) (q : Byte) : (s.raise e k q).tgt = s.tgt := rfl
@[simp] theorem State.raise_t0 (s : State) (e : ErrCode) (k : IoCause) (q : Byte) : (s.raise e k q).t0 = s.t0 := rfl
@[simp] theorem State.raise_b0 (s : State) (e : ErrCode) (k : IoCause) (q : Byte) : (s.raise e k q).b0 = s.b0 := rfl
@[simp] theorem State.raise_b1 (s : State) (e : ErrCode) (k : IoCause) (q : Byte) : (s.raise e k q).b1 = s.b1 := rfl
@[simp] theorem State.raise_mkCode (s : State) (e : ErrCode) (k : IoCause) (q : Byte) : (s.raise e k q).mkCode = s.mkCode := rfl
@[simp] theorem State.raise_moff (s : State) (e : ErrCode) (k : IoCause) (q : Byte) : (s.raise e k q).moff = s.moff := rfl
@[simp] theorem State.raise_len (s : State) (e : ErrCode) (k : IoCause) (q : Byte) : (s.raise e k q).len = s.len := rfl
@[simp] theorem State.raise_remain (s : State) (e : ErrCode) (k : IoCause) (q : Byte) : (s.raise e k q).remain = s.remain := rfl
@[simp] theorem State.raise_keep (s : State) (e : ErrCode) (k : IoCause) (q : Byte) : (s.raise e k q).keep = s.keep := rfl
@[simp] theorem State.raise_seglen (s : State) (e : ErrCode) (k : IoCause) (q : Byte) : (s.raise e k q).seglen = s.seglen := rfl
@[simp] theorem State.raise_segbuf (s : State) (e : ErrCode) (k : IoCause) (q : Byte) : (s.raise e k q).segbuf = s.segbuf := rfl
@[simp] theorem State.raise_eidx (s : State) (e : ErrCode) (k : IoCause) (q : Byte) : (s.raise e k q).eidx = s.eidx := rfl
@[simp] theorem State.raise_eslot (s : State) (e : ErrCode) (k : IoCause) (q : Byte) : (s.raise e k q).eslot = s.eslot := rfl
@[simp] theorem State.raise_input (s : State) (e : ErrCode) (k : IoCause) (q : Byte) : (s.raise e k q).input = s.input := rfl
@[simp] theorem State.raise_output (s : State) (e : ErrCode) (k : IoCause) (q : Byte) : (s.raise e k q).output = s.output := rfl
@[simp] theorem State.raise_agenda (s : State) (e : ErrCode) (k : IoCause) (q : Byte) : (s.raise e k q).agenda = s.agenda := rfl
@[simp] theorem State.raise_seen (s : State) (e : ErrCode) (k : IoCause) (q : Byte) : (s.raise e k q).seen = s.seen := rfl

/-! ### `raise FormatError` (rule R336) -/

@[simp] theorem State.raiseFormat_params (s : State) (e : ErrCode) : (s.raiseFormat e).params = s.params := rfl
@[simp] theorem State.raiseFormat_irqEn (s : State) (e : ErrCode) : (s.raiseFormat e).irqEn = s.irqEn := rfl
@[simp] theorem State.raiseFormat_cmdLast (s : State) (e : ErrCode) : (s.raiseFormat e).cmdLast = s.cmdLast := rfl
@[simp] theorem State.raiseFormat_busy (s : State) (e : ErrCode) : (s.raiseFormat e).busy = false := rfl
@[simp] theorem State.raiseFormat_doneFlag (s : State) (e : ErrCode) : (s.raiseFormat e).doneFlag = true := rfl
@[simp] theorem State.raiseFormat_cmdOverrun (s : State) (e : ErrCode) : (s.raiseFormat e).cmdOverrun = s.cmdOverrun := rfl
@[simp] theorem State.raiseFormat_sstate (s : State) (e : ErrCode) : (s.raiseFormat e).sstate = .error := rfl
@[simp] theorem State.raiseFormat_result (s : State) (e : ErrCode) : (s.raiseFormat e).result = { code := .error, err := e, ioCause := .none, ioCode := 0 } := rfl
@[simp] theorem State.raiseFormat_pos (s : State) (e : ErrCode) : (s.raiseFormat e).pos = s.pos := rfl
@[simp] theorem State.raiseFormat_segMarker (s : State) (e : ErrCode) : (s.raiseFormat e).segMarker = s.segMarker := rfl
@[simp] theorem State.raiseFormat_segSize (s : State) (e : ErrCode) : (s.raiseFormat e).segSize = s.segSize := rfl
@[simp] theorem State.raiseFormat_segOffset (s : State) (e : ErrCode) : (s.raiseFormat e).segOffset = s.segOffset := rfl
@[simp] theorem State.raiseFormat_segCount (s : State) (e : ErrCode) : (s.raiseFormat e).segCount = s.segCount := rfl
@[simp] theorem State.raiseFormat_iccTotal (s : State) (e : ErrCode) : (s.raiseFormat e).iccTotal = s.iccTotal := rfl
@[simp] theorem State.raiseFormat_iccFilled (s : State) (e : ErrCode) : (s.raiseFormat e).iccFilled = s.iccFilled := rfl
@[simp] theorem State.raiseFormat_iccActive (s : State) (e : ErrCode) : (s.raiseFormat e).iccActive = s.iccActive := rfl
@[simp] theorem State.raiseFormat_iccUsed (s : State) (e : ErrCode) : (s.raiseFormat e).iccUsed = s.iccUsed := rfl
@[simp] theorem State.raiseFormat_slots (s : State) (e : ErrCode) : (s.raiseFormat e).slots = s.slots := rfl
@[simp] theorem State.raiseFormat_estate (s : State) (e : ErrCode) : (s.raiseFormat e).estate = .idle := rfl
@[simp] theorem State.raiseFormat_op (s : State) (e : ErrCode) : (s.raiseFormat e).op = s.op := rfl
@[simp] theorem State.raiseFormat_tgt (s : State) (e : ErrCode) : (s.raiseFormat e).tgt = s.tgt := rfl
@[simp] theorem State.raiseFormat_t0 (s : State) (e : ErrCode) : (s.raiseFormat e).t0 = s.t0 := rfl
@[simp] theorem State.raiseFormat_b0 (s : State) (e : ErrCode) : (s.raiseFormat e).b0 = s.b0 := rfl
@[simp] theorem State.raiseFormat_b1 (s : State) (e : ErrCode) : (s.raiseFormat e).b1 = s.b1 := rfl
@[simp] theorem State.raiseFormat_mkCode (s : State) (e : ErrCode) : (s.raiseFormat e).mkCode = s.mkCode := rfl
@[simp] theorem State.raiseFormat_moff (s : State) (e : ErrCode) : (s.raiseFormat e).moff = s.moff := rfl
@[simp] theorem State.raiseFormat_len (s : State) (e : ErrCode) : (s.raiseFormat e).len = s.len := rfl
@[simp] theorem State.raiseFormat_remain (s : State) (e : ErrCode) : (s.raiseFormat e).remain = s.remain := rfl
@[simp] theorem State.raiseFormat_keep (s : State) (e : ErrCode) : (s.raiseFormat e).keep = s.keep := rfl
@[simp] theorem State.raiseFormat_seglen (s : State) (e : ErrCode) : (s.raiseFormat e).seglen = s.seglen := rfl
@[simp] theorem State.raiseFormat_segbuf (s : State) (e : ErrCode) : (s.raiseFormat e).segbuf = s.segbuf := rfl
@[simp] theorem State.raiseFormat_eidx (s : State) (e : ErrCode) : (s.raiseFormat e).eidx = s.eidx := rfl
@[simp] theorem State.raiseFormat_eslot (s : State) (e : ErrCode) : (s.raiseFormat e).eslot = s.eslot := rfl
@[simp] theorem State.raiseFormat_input (s : State) (e : ErrCode) : (s.raiseFormat e).input = s.input := rfl
@[simp] theorem State.raiseFormat_output (s : State) (e : ErrCode) : (s.raiseFormat e).output = s.output := rfl
@[simp] theorem State.raiseFormat_agenda (s : State) (e : ErrCode) : (s.raiseFormat e).agenda = s.agenda := rfl
@[simp] theorem State.raiseFormat_seen (s : State) (e : ErrCode) : (s.raiseFormat e).seen = s.seen := rfl

/-! ### `ClearIcc` (rule R280) -/

@[simp] theorem State.clearIcc_params (s : State) : s.clearIcc.params = s.params := rfl
@[simp] theorem State.clearIcc_irqEn (s : State) : s.clearIcc.irqEn = s.irqEn := rfl
@[simp] theorem State.clearIcc_cmdLast (s : State) : s.clearIcc.cmdLast = s.cmdLast := rfl
@[simp] theorem State.clearIcc_busy (s : State) : s.clearIcc.busy = s.busy := rfl
@[simp] theorem State.clearIcc_doneFlag (s : State) : s.clearIcc.doneFlag = s.doneFlag := rfl
@[simp] theorem State.clearIcc_cmdOverrun (s : State) : s.clearIcc.cmdOverrun = s.cmdOverrun := rfl
@[simp] theorem State.clearIcc_sstate (s : State) : s.clearIcc.sstate = s.sstate := rfl
@[simp] theorem State.clearIcc_result (s : State) : s.clearIcc.result = s.result := rfl
@[simp] theorem State.clearIcc_pos (s : State) : s.clearIcc.pos = s.pos := rfl
@[simp] theorem State.clearIcc_segMarker (s : State) : s.clearIcc.segMarker = s.segMarker := rfl
@[simp] theorem State.clearIcc_segSize (s : State) : s.clearIcc.segSize = s.segSize := rfl
@[simp] theorem State.clearIcc_segOffset (s : State) : s.clearIcc.segOffset = s.segOffset := rfl
@[simp] theorem State.clearIcc_segCount (s : State) : s.clearIcc.segCount = s.segCount := rfl
@[simp] theorem State.clearIcc_iccTotal (s : State) : s.clearIcc.iccTotal = 0 := rfl
@[simp] theorem State.clearIcc_iccFilled (s : State) : s.clearIcc.iccFilled = 0 := rfl
@[simp] theorem State.clearIcc_iccActive (s : State) : s.clearIcc.iccActive = false := rfl
@[simp] theorem State.clearIcc_iccUsed (s : State) : s.clearIcc.iccUsed = 0 := rfl
@[simp] theorem State.clearIcc_slots (s : State) : s.clearIcc.slots = [] := rfl
@[simp] theorem State.clearIcc_estate (s : State) : s.clearIcc.estate = s.estate := rfl
@[simp] theorem State.clearIcc_op (s : State) : s.clearIcc.op = s.op := rfl
@[simp] theorem State.clearIcc_tgt (s : State) : s.clearIcc.tgt = s.tgt := rfl
@[simp] theorem State.clearIcc_t0 (s : State) : s.clearIcc.t0 = s.t0 := rfl
@[simp] theorem State.clearIcc_b0 (s : State) : s.clearIcc.b0 = s.b0 := rfl
@[simp] theorem State.clearIcc_b1 (s : State) : s.clearIcc.b1 = s.b1 := rfl
@[simp] theorem State.clearIcc_mkCode (s : State) : s.clearIcc.mkCode = s.mkCode := rfl
@[simp] theorem State.clearIcc_moff (s : State) : s.clearIcc.moff = s.moff := rfl
@[simp] theorem State.clearIcc_len (s : State) : s.clearIcc.len = s.len := rfl
@[simp] theorem State.clearIcc_remain (s : State) : s.clearIcc.remain = s.remain := rfl
@[simp] theorem State.clearIcc_keep (s : State) : s.clearIcc.keep = s.keep := rfl
@[simp] theorem State.clearIcc_seglen (s : State) : s.clearIcc.seglen = s.seglen := rfl
@[simp] theorem State.clearIcc_segbuf (s : State) : s.clearIcc.segbuf = s.segbuf := rfl
@[simp] theorem State.clearIcc_eidx (s : State) : s.clearIcc.eidx = s.eidx := rfl
@[simp] theorem State.clearIcc_eslot (s : State) : s.clearIcc.eslot = s.eslot := rfl
@[simp] theorem State.clearIcc_input (s : State) : s.clearIcc.input = s.input := rfl
@[simp] theorem State.clearIcc_output (s : State) : s.clearIcc.output = s.output := rfl
@[simp] theorem State.clearIcc_agenda (s : State) : s.clearIcc.agenda = s.agenda := rfl
@[simp] theorem State.clearIcc_seen (s : State) : s.clearIcc.seen = s.seen := rfl

/-! ### `DoOpen` (rule R285) -/

@[simp] theorem State.openStream_params (s : State) : s.openStream.params = s.params := rfl
@[simp] theorem State.openStream_irqEn (s : State) : s.openStream.irqEn = s.irqEn := rfl
@[simp] theorem State.openStream_cmdLast (s : State) : s.openStream.cmdLast = s.cmdLast := rfl
@[simp] theorem State.openStream_busy (s : State) : s.openStream.busy = s.busy := rfl
@[simp] theorem State.openStream_doneFlag (s : State) : s.openStream.doneFlag = true := rfl
@[simp] theorem State.openStream_cmdOverrun (s : State) : s.openStream.cmdOverrun = s.cmdOverrun := rfl
@[simp] theorem State.openStream_sstate (s : State) : s.openStream.sstate = .start := rfl
@[simp] theorem State.openStream_result (s : State) : s.openStream.result = { s.result with code := .ok } := rfl
@[simp] theorem State.openStream_pos (s : State) : s.openStream.pos = 0 := rfl
@[simp] theorem State.openStream_segMarker (s : State) : s.openStream.segMarker = 0 := rfl
@[simp] theorem State.openStream_segSize (s : State) : s.openStream.segSize = 0 := rfl
@[simp] theorem State.openStream_segOffset (s : State) : s.openStream.segOffset = 0 := rfl
@[simp] theorem State.openStream_segCount (s : State) : s.openStream.segCount = 0 := rfl
@[simp] theorem State.openStream_iccTotal (s : State) : s.openStream.iccTotal = 0 := rfl
@[simp] theorem State.openStream_iccFilled (s : State) : s.openStream.iccFilled = 0 := rfl
@[simp] theorem State.openStream_iccActive (s : State) : s.openStream.iccActive = false := rfl
@[simp] theorem State.openStream_iccUsed (s : State) : s.openStream.iccUsed = 0 := rfl
@[simp] theorem State.openStream_slots (s : State) : s.openStream.slots = [] := rfl
@[simp] theorem State.openStream_estate (s : State) : s.openStream.estate = s.estate := rfl
@[simp] theorem State.openStream_op (s : State) : s.openStream.op = s.op := rfl
@[simp] theorem State.openStream_tgt (s : State) : s.openStream.tgt = s.tgt := rfl
@[simp] theorem State.openStream_t0 (s : State) : s.openStream.t0 = s.t0 := rfl
@[simp] theorem State.openStream_b0 (s : State) : s.openStream.b0 = s.b0 := rfl
@[simp] theorem State.openStream_b1 (s : State) : s.openStream.b1 = s.b1 := rfl
@[simp] theorem State.openStream_mkCode (s : State) : s.openStream.mkCode = s.mkCode := rfl
@[simp] theorem State.openStream_moff (s : State) : s.openStream.moff = s.moff := rfl
@[simp] theorem State.openStream_len (s : State) : s.openStream.len = s.len := rfl
@[simp] theorem State.openStream_remain (s : State) : s.openStream.remain = s.remain := rfl
@[simp] theorem State.openStream_keep (s : State) : s.openStream.keep = s.keep := rfl
@[simp] theorem State.openStream_seglen (s : State) : s.openStream.seglen = s.seglen := rfl
@[simp] theorem State.openStream_segbuf (s : State) : s.openStream.segbuf = s.segbuf := rfl
@[simp] theorem State.openStream_eidx (s : State) : s.openStream.eidx = s.eidx := rfl
@[simp] theorem State.openStream_eslot (s : State) : s.openStream.eslot = s.eslot := rfl
@[simp] theorem State.openStream_input (s : State) : s.openStream.input = [] := rfl
@[simp] theorem State.openStream_output (s : State) : s.openStream.output = [] := rfl
@[simp] theorem State.openStream_agenda (s : State) : s.openStream.agenda = s.agenda := rfl
@[simp] theorem State.openStream_seen (s : State) : s.openStream.seen = s.seen := rfl

/-! ### an accepted command (rule R280) -/

@[simp] theorem State.accept_params (s : State) (o : Opcode) (t : Byte) : (s.accept o t).params = s.params := rfl
@[simp] theorem State.accept_irqEn (s : State) (o : Opcode) (t : Byte) : (s.accept o t).irqEn = s.irqEn := rfl
@[simp] theorem State.accept_cmdLast (s : State) (o : Opcode) (t : Byte) : (s.accept o t).cmdLast = s.cmdLast := rfl
@[simp] theorem State.accept_busy (s : State) (o : Opcode) (t : Byte) : (s.accept o t).busy = s.busy := rfl
@[simp] theorem State.accept_doneFlag (s : State) (o : Opcode) (t : Byte) : (s.accept o t).doneFlag = false := rfl
@[simp] theorem State.accept_cmdOverrun (s : State) (o : Opcode) (t : Byte) : (s.accept o t).cmdOverrun = s.cmdOverrun := rfl
@[simp] theorem State.accept_sstate (s : State) (o : Opcode) (t : Byte) : (s.accept o t).sstate = s.sstate := rfl
@[simp] theorem State.accept_result (s : State) (o : Opcode) (t : Byte) : (s.accept o t).result = { code := .none, err := .none, ioCause := .none, ioCode := 0 } := rfl
@[simp] theorem State.accept_pos (s : State) (o : Opcode) (t : Byte) : (s.accept o t).pos = s.pos := rfl
@[simp] theorem State.accept_segMarker (s : State) (o : Opcode) (t : Byte) : (s.accept o t).segMarker = s.segMarker := rfl
@[simp] theorem State.accept_segSize (s : State) (o : Opcode) (t : Byte) : (s.accept o t).segSize = s.segSize := rfl
@[simp] theorem State.accept_segOffset (s : State) (o : Opcode) (t : Byte) : (s.accept o t).segOffset = s.segOffset := rfl
@[simp] theorem State.accept_segCount (s : State) (o : Opcode) (t : Byte) : (s.accept o t).segCount = 0 := rfl
@[simp] theorem State.accept_iccTotal (s : State) (o : Opcode) (t : Byte) : (s.accept o t).iccTotal = s.iccTotal := rfl
@[simp] theorem State.accept_iccFilled (s : State) (o : Opcode) (t : Byte) : (s.accept o t).iccFilled = s.iccFilled := rfl
@[simp] theorem State.accept_iccActive (s : State) (o : Opcode) (t : Byte) : (s.accept o t).iccActive = s.iccActive := rfl
@[simp] theorem State.accept_iccUsed (s : State) (o : Opcode) (t : Byte) : (s.accept o t).iccUsed = s.iccUsed := rfl
@[simp] theorem State.accept_slots (s : State) (o : Opcode) (t : Byte) : (s.accept o t).slots = s.slots := rfl
@[simp] theorem State.accept_estate (s : State) (o : Opcode) (t : Byte) : (s.accept o t).estate = s.estate := rfl
@[simp] theorem State.accept_op (s : State) (o : Opcode) (t : Byte) : (s.accept o t).op = o := rfl
@[simp] theorem State.accept_tgt (s : State) (o : Opcode) (t : Byte) : (s.accept o t).tgt = t := rfl
@[simp] theorem State.accept_t0 (s : State) (o : Opcode) (t : Byte) : (s.accept o t).t0 = s.t0 := rfl
@[simp] theorem State.accept_b0 (s : State) (o : Opcode) (t : Byte) : (s.accept o t).b0 = s.b0 := rfl
@[simp] theorem State.accept_b1 (s : State) (o : Opcode) (t : Byte) : (s.accept o t).b1 = s.b1 := rfl
@[simp] theorem State.accept_mkCode (s : State) (o : Opcode) (t : Byte) : (s.accept o t).mkCode = s.mkCode := rfl
@[simp] theorem State.accept_moff (s : State) (o : Opcode) (t : Byte) : (s.accept o t).moff = s.moff := rfl
@[simp] theorem State.accept_len (s : State) (o : Opcode) (t : Byte) : (s.accept o t).len = s.len := rfl
@[simp] theorem State.accept_remain (s : State) (o : Opcode) (t : Byte) : (s.accept o t).remain = s.remain := rfl
@[simp] theorem State.accept_keep (s : State) (o : Opcode) (t : Byte) : (s.accept o t).keep = s.keep := rfl
@[simp] theorem State.accept_seglen (s : State) (o : Opcode) (t : Byte) : (s.accept o t).seglen = s.seglen := rfl
@[simp] theorem State.accept_segbuf (s : State) (o : Opcode) (t : Byte) : (s.accept o t).segbuf = s.segbuf := rfl
@[simp] theorem State.accept_eidx (s : State) (o : Opcode) (t : Byte) : (s.accept o t).eidx = s.eidx := rfl
@[simp] theorem State.accept_eslot (s : State) (o : Opcode) (t : Byte) : (s.accept o t).eslot = s.eslot := rfl
@[simp] theorem State.accept_input (s : State) (o : Opcode) (t : Byte) : (s.accept o t).input = s.input := rfl
@[simp] theorem State.accept_output (s : State) (o : Opcode) (t : Byte) : (s.accept o t).output = s.output := rfl
@[simp] theorem State.accept_agenda (s : State) (o : Opcode) (t : Byte) : (s.accept o t).agenda = s.agenda := rfl
@[simp] theorem State.accept_seen (s : State) (o : Opcode) (t : Byte) : (s.accept o t).seen = s.seen := rfl

/-! ### `Reject` (rule R281) -/

@[simp] theorem State.reject_params (s : State) (e : ErrCode) : (s.reject e).params = s.params := rfl
@[simp] theorem State.reject_irqEn (s : State) (e : ErrCode) : (s.reject e).irqEn = s.irqEn := rfl
@[simp] theorem State.reject_cmdLast (s : State) (e : ErrCode) : (s.reject e).cmdLast = s.cmdLast := rfl
@[simp] theorem State.reject_busy (s : State) (e : ErrCode) : (s.reject e).busy = s.busy := rfl
@[simp] theorem State.reject_doneFlag (s : State) (e : ErrCode) : (s.reject e).doneFlag = true := rfl
@[simp] theorem State.reject_cmdOverrun (s : State) (e : ErrCode) : (s.reject e).cmdOverrun = s.cmdOverrun := rfl
@[simp] theorem State.reject_sstate (s : State) (e : ErrCode) : (s.reject e).sstate = s.sstate := rfl
@[simp] theorem State.reject_result (s : State) (e : ErrCode) : (s.reject e).result = { code := .illegalCommand, err := e, ioCause := .none, ioCode := 0 } := rfl
@[simp] theorem State.reject_pos (s : State) (e : ErrCode) : (s.reject e).pos = s.pos := rfl
@[simp] theorem State.reject_segMarker (s : State) (e : ErrCode) : (s.reject e).segMarker = s.segMarker := rfl
@[simp] theorem State.reject_segSize (s : State) (e : ErrCode) : (s.reject e).segSize = s.segSize := rfl
@[simp] theorem State.reject_segOffset (s : State) (e : ErrCode) : (s.reject e).segOffset = s.segOffset := rfl
@[simp] theorem State.reject_segCount (s : State) (e : ErrCode) : (s.reject e).segCount = s.segCount := rfl
@[simp] theorem State.reject_iccTotal (s : State) (e : ErrCode) : (s.reject e).iccTotal = s.iccTotal := rfl
@[simp] theorem State.reject_iccFilled (s : State) (e : ErrCode) : (s.reject e).iccFilled = s.iccFilled := rfl
@[simp] theorem State.reject_iccActive (s : State) (e : ErrCode) : (s.reject e).iccActive = s.iccActive := rfl
@[simp] theorem State.reject_iccUsed (s : State) (e : ErrCode) : (s.reject e).iccUsed = s.iccUsed := rfl
@[simp] theorem State.reject_slots (s : State) (e : ErrCode) : (s.reject e).slots = s.slots := rfl
@[simp] theorem State.reject_estate (s : State) (e : ErrCode) : (s.reject e).estate = s.estate := rfl
@[simp] theorem State.reject_op (s : State) (e : ErrCode) : (s.reject e).op = s.op := rfl
@[simp] theorem State.reject_tgt (s : State) (e : ErrCode) : (s.reject e).tgt = s.tgt := rfl
@[simp] theorem State.reject_t0 (s : State) (e : ErrCode) : (s.reject e).t0 = s.t0 := rfl
@[simp] theorem State.reject_b0 (s : State) (e : ErrCode) : (s.reject e).b0 = s.b0 := rfl
@[simp] theorem State.reject_b1 (s : State) (e : ErrCode) : (s.reject e).b1 = s.b1 := rfl
@[simp] theorem State.reject_mkCode (s : State) (e : ErrCode) : (s.reject e).mkCode = s.mkCode := rfl
@[simp] theorem State.reject_moff (s : State) (e : ErrCode) : (s.reject e).moff = s.moff := rfl
@[simp] theorem State.reject_len (s : State) (e : ErrCode) : (s.reject e).len = s.len := rfl
@[simp] theorem State.reject_remain (s : State) (e : ErrCode) : (s.reject e).remain = s.remain := rfl
@[simp] theorem State.reject_keep (s : State) (e : ErrCode) : (s.reject e).keep = s.keep := rfl
@[simp] theorem State.reject_seglen (s : State) (e : ErrCode) : (s.reject e).seglen = s.seglen := rfl
@[simp] theorem State.reject_segbuf (s : State) (e : ErrCode) : (s.reject e).segbuf = s.segbuf := rfl
@[simp] theorem State.reject_eidx (s : State) (e : ErrCode) : (s.reject e).eidx = s.eidx := rfl
@[simp] theorem State.reject_eslot (s : State) (e : ErrCode) : (s.reject e).eslot = s.eslot := rfl
@[simp] theorem State.reject_input (s : State) (e : ErrCode) : (s.reject e).input = s.input := rfl
@[simp] theorem State.reject_output (s : State) (e : ErrCode) : (s.reject e).output = s.output := rfl
@[simp] theorem State.reject_agenda (s : State) (e : ErrCode) : (s.reject e).agenda = s.agenda := rfl
@[simp] theorem State.reject_seen (s : State) (e : ErrCode) : (s.reject e).seen = s.seen := rfl

/-! ### `StartRecord` (rule R289) -/

@[simp] theorem State.startRecord_params (s : State) : s.startRecord.params = s.params := rfl
@[simp] theorem State.startRecord_irqEn (s : State) : s.startRecord.irqEn = s.irqEn := rfl
@[simp] theorem State.startRecord_cmdLast (s : State) : s.startRecord.cmdLast = s.cmdLast := rfl
@[simp] theorem State.startRecord_busy (s : State) : s.startRecord.busy = s.busy := rfl
@[simp] theorem State.startRecord_doneFlag (s : State) : s.startRecord.doneFlag = s.doneFlag := rfl
@[simp] theorem State.startRecord_cmdOverrun (s : State) : s.startRecord.cmdOverrun = s.cmdOverrun := rfl
@[simp] theorem State.startRecord_sstate (s : State) : s.startRecord.sstate = s.sstate := rfl
@[simp] theorem State.startRecord_result (s : State) : s.startRecord.result = s.result := rfl
@[simp] theorem State.startRecord_pos (s : State) : s.startRecord.pos = s.pos := rfl
@[simp] theorem State.startRecord_segMarker (s : State) : s.startRecord.segMarker = s.mkCode := rfl
@[simp] theorem State.startRecord_segSize (s : State) : s.startRecord.segSize = s.seglen := rfl
@[simp] theorem State.startRecord_segOffset (s : State) : s.startRecord.segOffset = s.moff := rfl
@[simp] theorem State.startRecord_segCount (s : State) : s.startRecord.segCount = s.segCount := rfl
@[simp] theorem State.startRecord_iccTotal (s : State) : s.startRecord.iccTotal = s.iccTotal := rfl
@[simp] theorem State.startRecord_iccFilled (s : State) : s.startRecord.iccFilled = s.iccFilled := rfl
@[simp] theorem State.startRecord_iccActive (s : State) : s.startRecord.iccActive = s.iccActive := rfl
@[simp] theorem State.startRecord_iccUsed (s : State) : s.startRecord.iccUsed = s.iccUsed := rfl
@[simp] theorem State.startRecord_slots (s : State) : s.startRecord.slots = s.slots := rfl
@[simp] theorem State.startRecord_estate (s : State) : s.startRecord.estate = .emitSeg := rfl
@[simp] theorem State.startRecord_op (s : State) : s.startRecord.op = s.op := rfl
@[simp] theorem State.startRecord_tgt (s : State) : s.startRecord.tgt = s.tgt := rfl
@[simp] theorem State.startRecord_t0 (s : State) : s.startRecord.t0 = s.t0 := rfl
@[simp] theorem State.startRecord_b0 (s : State) : s.startRecord.b0 = s.b0 := rfl
@[simp] theorem State.startRecord_b1 (s : State) : s.startRecord.b1 = s.b1 := rfl
@[simp] theorem State.startRecord_mkCode (s : State) : s.startRecord.mkCode = s.mkCode := rfl
@[simp] theorem State.startRecord_moff (s : State) : s.startRecord.moff = s.moff := rfl
@[simp] theorem State.startRecord_len (s : State) : s.startRecord.len = s.len := rfl
@[simp] theorem State.startRecord_remain (s : State) : s.startRecord.remain = s.remain := rfl
@[simp] theorem State.startRecord_keep (s : State) : s.startRecord.keep = s.keep := rfl
@[simp] theorem State.startRecord_seglen (s : State) : s.startRecord.seglen = s.seglen := rfl
@[simp] theorem State.startRecord_segbuf (s : State) : s.startRecord.segbuf = s.segbuf := rfl
@[simp] theorem State.startRecord_eidx (s : State) : s.startRecord.eidx = 0 := rfl
@[simp] theorem State.startRecord_eslot (s : State) : s.startRecord.eslot = s.eslot := rfl
@[simp] theorem State.startRecord_input (s : State) : s.startRecord.input = s.input := rfl
@[simp] theorem State.startRecord_output (s : State) : s.startRecord.output = s.output := rfl
@[simp] theorem State.startRecord_agenda (s : State) : s.startRecord.agenda = s.agenda := rfl
@[simp] theorem State.startRecord_seen (s : State) : s.startRecord.seen = s.seen := rfl

/-! ### Reset (rules R370, R371): the build, the agenda and what the host saw stay -/

@[simp] theorem State.hardReset_params (s : State) : s.hardReset.params = s.params := rfl
@[simp] theorem State.hardReset_irqEn (s : State) : s.hardReset.irqEn = State.reset.irqEn := rfl
@[simp] theorem State.hardReset_cmdLast (s : State) : s.hardReset.cmdLast = State.reset.cmdLast := rfl
@[simp] theorem State.hardReset_busy (s : State) : s.hardReset.busy = State.reset.busy := rfl
@[simp] theorem State.hardReset_doneFlag (s : State) : s.hardReset.doneFlag = State.reset.doneFlag := rfl
@[simp] theorem State.hardReset_cmdOverrun (s : State) : s.hardReset.cmdOverrun = State.reset.cmdOverrun := rfl
@[simp] theorem State.hardReset_sstate (s : State) : s.hardReset.sstate = State.reset.sstate := rfl
@[simp] theorem State.hardReset_result (s : State) : s.hardReset.result = State.reset.result := rfl
@[simp] theorem State.hardReset_pos (s : State) : s.hardReset.pos = State.reset.pos := rfl
@[simp] theorem State.hardReset_segMarker (s : State) : s.hardReset.segMarker = State.reset.segMarker := rfl
@[simp] theorem State.hardReset_segSize (s : State) : s.hardReset.segSize = State.reset.segSize := rfl
@[simp] theorem State.hardReset_segOffset (s : State) : s.hardReset.segOffset = State.reset.segOffset := rfl
@[simp] theorem State.hardReset_segCount (s : State) : s.hardReset.segCount = State.reset.segCount := rfl
@[simp] theorem State.hardReset_iccTotal (s : State) : s.hardReset.iccTotal = State.reset.iccTotal := rfl
@[simp] theorem State.hardReset_iccFilled (s : State) : s.hardReset.iccFilled = State.reset.iccFilled := rfl
@[simp] theorem State.hardReset_iccActive (s : State) : s.hardReset.iccActive = State.reset.iccActive := rfl
@[simp] theorem State.hardReset_iccUsed (s : State) : s.hardReset.iccUsed = State.reset.iccUsed := rfl
@[simp] theorem State.hardReset_slots (s : State) : s.hardReset.slots = State.reset.slots := rfl
@[simp] theorem State.hardReset_estate (s : State) : s.hardReset.estate = State.reset.estate := rfl
@[simp] theorem State.hardReset_op (s : State) : s.hardReset.op = State.reset.op := rfl
@[simp] theorem State.hardReset_tgt (s : State) : s.hardReset.tgt = State.reset.tgt := rfl
@[simp] theorem State.hardReset_t0 (s : State) : s.hardReset.t0 = State.reset.t0 := rfl
@[simp] theorem State.hardReset_b0 (s : State) : s.hardReset.b0 = State.reset.b0 := rfl
@[simp] theorem State.hardReset_b1 (s : State) : s.hardReset.b1 = State.reset.b1 := rfl
@[simp] theorem State.hardReset_mkCode (s : State) : s.hardReset.mkCode = State.reset.mkCode := rfl
@[simp] theorem State.hardReset_moff (s : State) : s.hardReset.moff = State.reset.moff := rfl
@[simp] theorem State.hardReset_len (s : State) : s.hardReset.len = State.reset.len := rfl
@[simp] theorem State.hardReset_remain (s : State) : s.hardReset.remain = State.reset.remain := rfl
@[simp] theorem State.hardReset_keep (s : State) : s.hardReset.keep = State.reset.keep := rfl
@[simp] theorem State.hardReset_seglen (s : State) : s.hardReset.seglen = State.reset.seglen := rfl
@[simp] theorem State.hardReset_segbuf (s : State) : s.hardReset.segbuf = State.reset.segbuf := rfl
@[simp] theorem State.hardReset_eidx (s : State) : s.hardReset.eidx = State.reset.eidx := rfl
@[simp] theorem State.hardReset_eslot (s : State) : s.hardReset.eslot = State.reset.eslot := rfl
@[simp] theorem State.hardReset_input (s : State) : s.hardReset.input = State.reset.input := rfl
@[simp] theorem State.hardReset_output (s : State) : s.hardReset.output = State.reset.output := rfl
@[simp] theorem State.hardReset_agenda (s : State) : s.hardReset.agenda = s.agenda := rfl
@[simp] theorem State.hardReset_seen (s : State) : s.hardReset.seen = s.seen := rfl

/-! ### The updates that are one field or two -/

theorem State.begin_eq (s : State) (e : EState) : s.begin e = { s with busy := true, estate := e } := rfl
theorem State.startReader_eq (s : State) (k : Bool) : s.startReader k = { s with keep := k, estate := .lenHi } := rfl
theorem State.pushInput_eq (s : State) (x : Item) : s.pushInput x = { s with input := s.input ++ [x] } := rfl
theorem State.noteIssue_eq (s : State) (w : Word) :
    s.noteIssue w = { s with seen := if s.busy then s.seen else s.seen ++ [.issued w] } := by
  unfold State.noteIssue
  split <;> rfl
theorem State.noteIssue_busy {s : State} (w : Word) (h : s.busy = true) : s.noteIssue w = s := by
  simp [State.noteIssue, h]
theorem State.noteIssue_idle {s : State} (w : Word) (h : s.busy = false) :
    s.noteIssue w = { s with seen := s.seen ++ [.issued w] } := by
  simp [State.noteIssue_eq, h]
theorem State.see_eq (s : State) (x : Seen) : s.see x = { s with seen := s.seen ++ [x] } := rfl
theorem State.popOutput_eq (s : State) (b : Byte) (bs : List Byte) :
    s.popOutput b bs = { s with output := bs, seen := s.seen ++ [.byte b] } := rfl
theorem State.setSlot_eq (s : State) (k : Nat) (p : List Byte) : s.setSlot k p = { s with slots := cellSet k p s.slots } := rfl

end Sys2Proof.Machine
end

