-- ==== Sys2Proof/Laws/Cells.lean ====
section
/-! SUPPORT. The laws of the internal memories: SEGBUF and the slot file read back what was written, leave every other
place alone and keep their canonical form. -/

namespace Sys2Proof.Machine

/-! ### Cells -/

theorem cellGet_cellSet {α : Type} (j k : Nat) (v : α) (m : List (Nat × α)) :
    cellGet j (cellSet k v m) = if j = k then some v else cellGet j m := by
  induction m with
  | nil => simp [cellSet, cellGet, eq_comm]
  | cons c m ih =>
    obtain ⟨a, u⟩ := c
    simp only [cellSet]
    split
    · simp [cellGet, eq_comm]
    split
    · subst a; by_cases j = k <;> simp_all [cellGet, eq_comm]
    · simp only [cellGet, ih]; by_cases h1 : a = j <;> by_cases h2 : j = k <;> simp_all

theorem keysRising_cons {α : Type} {k : Nat} {v : α} {m : List (Nat × α)} :
    keysRising ((k, v) :: m) = true ↔ (∀ c ∈ m, k < c.1) ∧ keysRising m = true := by
  induction m generalizing k v with
  | nil => simp [keysRising]
  | cons c m ih =>
    obtain ⟨a, u⟩ := c
    simp only [keysRising, Bool.and_eq_true, decide_eq_true_eq, ih]
    constructor
    · rintro ⟨h1, h2, h3⟩
      refine ⟨fun c hc => ?_, h2, h3⟩
      simp only [List.mem_cons] at hc
      rcases hc with rfl | hc
      · exact h1
      · have := h2 c hc; omega
    · rintro ⟨h1, h2, h3⟩; exact ⟨h1 (a, u) (by simp), h2, h3⟩

theorem mem_cellSet {α : Type} {k : Nat} {v : α} {m : List (Nat × α)} {c : Nat × α} (h : c ∈ cellSet k v m) :
    c = (k, v) ∨ c ∈ m := by
  induction m with
  | nil => simp only [cellSet, List.mem_singleton] at h; exact .inl h
  | cons d m ih =>
    obtain ⟨a, u⟩ := d
    simp only [cellSet] at h
    split at h
    · simp only [List.mem_cons] at h ⊢; grind
    split at h <;> (simp only [List.mem_cons] at h ⊢; grind)

theorem keysRising_cellSet {α : Type} {k : Nat} {v : α} {m : List (Nat × α)} (h : keysRising m = true) :
    keysRising (cellSet k v m) = true := by
  induction m with
  | nil => simp [cellSet, keysRising]
  | cons d m ih =>
    obtain ⟨a, u⟩ := d
    have ⟨h1, h2⟩ := keysRising_cons.1 h
    simp only [cellSet]
    split
    · rw [keysRising_cons]
      refine ⟨fun c hc => ?_, h⟩
      simp only [List.mem_cons] at hc
      rcases hc with rfl | hc
      · assumption
      · have := h1 c hc; omega
    split
    · subst a; exact keysRising_cons.2 ⟨h1, h2⟩
    · rw [keysRising_cons]
      refine ⟨fun c hc => ?_, ih h2⟩
      rcases mem_cellSet hc with rfl | hc
      · simp only; omega
      · exact h1 c hc

theorem cellGet_none_of_lt {α : Type} {k : Nat} {m : List (Nat × α)} (h : ∀ c ∈ m, k < c.1) : cellGet k m = none := by
  induction m with
  | nil => rfl
  | cons d m ih =>
    obtain ⟨x, y⟩ := d
    have := h (x, y) (by simp)
    simp only [cellGet]
    rw [if_neg (by simp at this; omega)]
    exact ih fun c hc => h c (by simp [hc])

theorem length_cellSet {α : Type} {k : Nat} {v : α} {m : List (Nat × α)} (h : keysRising m = true) :
    (cellSet k v m).length = if (cellGet k m).isSome then m.length else m.length + 1 := by
  induction m with
  | nil => simp [cellSet, cellGet]
  | cons d m ih =>
    obtain ⟨a, u⟩ := d
    have ⟨h1, h2⟩ := keysRising_cons.1 h
    simp only [cellSet]
    split
    · rename_i hlt
      have := cellGet_none_of_lt (k := k) (m := m) fun c hc => by have := h1 c hc; omega
      simp [cellGet, this]; omega
    split
    · simp [cellGet, *]
    · rename_i h4; simp only [List.length_cons, ih h2, cellGet, h4, if_false]; split <;> rfl

/-! ### SEGBUF -/

/-- A read after a write: the byte written at its index, and every other entry as before. -/
theorem Memory.read_write (m : Memory) (i j : Nat) (v : Byte) :
    (m.write i v).read j = if j = i then some v else m.read j := by
  simp only [Memory.read, Memory.write, cellGet_cellSet]
  by_cases h : j = i <;> simp [h]

@[simp] theorem Memory.read_write_same (m : Memory) (i : Nat) (v : Byte) : (m.write i v).read i = some v := by
  simp [Memory.read_write]

theorem Memory.read_write_other (m : Memory) {i j : Nat} (v : Byte) (h : j ≠ i) : (m.write i v).read j = m.read j := by
  simp [Memory.read_write, h]

/-- A write to an entry SEGBUF has keeps the canonical form. -/
theorem Memory.wf_write {m : Memory} {i : Nat} (v : Byte) (h : m.wf = true) (hi : i < Config.segbufBytes) :
    (m.write i v).wf = true := by
  simp only [Memory.wf, Bool.and_eq_true, Memory.write, List.all_eq_true] at *
  refine ⟨keysRising_cellSet h.1, fun c hc => ?_⟩
  rcases mem_cellSet hc with rfl | hc
  · simp [hi]
  · exact h.2 c hc

/-- Bytes written from an index on keep the canonical form while they fit in SEGBUF. -/
theorem Memory.wf_writeRange {m : Memory} {i : Nat} {bytes : List Byte} (h : m.wf = true)
    (hi : i + bytes.length ≤ Config.segbufBytes) : (writeRange m i bytes).wf = true := by
  induction bytes generalizing m i with
  | nil => exact h
  | cons v rest ih =>
    simp only [List.length_cons] at hi
    exact ih (Memory.wf_write v h (by omega)) (by omega)

theorem reset_segbuf_wf : State.reset.segbuf.wf = true := rfl

theorem Memory.readRange_length {m : Memory} {n i : Nat} {bytes : List Byte} (h : m.readRange i n = some bytes) :
    bytes.length = n := by
  induction n generalizing i bytes with
  | zero => simp only [Memory.readRange, Option.some.injEq] at h; simp [← h]
  | succ n ih =>
    simp only [Memory.readRange] at h
    split at h
    · cases h
    · simp only [Option.map_eq_some_iff] at h
      obtain ⟨rest, h1, rfl⟩ := h
      simp [ih h1]

/-- A range of entries that have all been written can be read. -/
theorem Memory.readRange_isSome {m : Memory} {n i : Nat} (h : ∀ j, i ≤ j → j < i + n → (m.read j).isSome = true) :
    (m.readRange i n).isSome = true := by
  induction n generalizing i with
  | zero => rfl
  | succ n ih =>
    have h0 := h i (by omega) (by omega)
    have h1 := ih (i := i + 1) fun j hj hj' => h j (by omega) (by omega)
    simp only [Memory.readRange]
    split
    · simp_all
    · simpa using h1

/-- The bytes of a range are the entries' bytes. -/
theorem Memory.readRange_getElem? {m : Memory} {n i : Nat} {bytes : List Byte} (h : m.readRange i n = some bytes)
    {k : Nat} (hk : k < n) : bytes[k]? = m.read (i + k) := by
  induction n generalizing i bytes k with
  | zero => omega
  | succ n ih =>
    simp only [Memory.readRange] at h
    split at h
    · cases h
    · rename_i b hb
      simp only [Option.map_eq_some_iff] at h
      obtain ⟨rest, h1, rfl⟩ := h
      cases k with
      | zero => simp [hb]
      | succ k => simpa [Nat.add_assoc, Nat.add_comm 1 k] using ih h1 (k := k) (by omega)

/-- Entries that read as a byte sequence are that range. -/
theorem Memory.readRange_of_reads {m : Memory} {n i : Nat} {bytes : List Byte} (hl : bytes.length = n)
    (h : ∀ k < n, m.read (i + k) = bytes[k]?) : m.readRange i n = some bytes := by
  induction n generalizing i bytes with
  | zero => cases bytes <;> simp_all [Memory.readRange]
  | succ n ih =>
    cases bytes with
    | nil => simp at hl
    | cons b rest =>
      have h0 := h 0 (by omega)
      have h1 := ih (i := i + 1) (bytes := rest) (by simpa using hl) fun k hk => by
        have := h (k + 1) (by omega)
        simpa [Nat.add_assoc, Nat.add_comm 1] using this
      simp only [Nat.add_zero, List.getElem?_cons_zero] at h0
      simp [Memory.readRange, h0, h1]

/-! ### The slot file -/

/-- A slot after another is stored: only the one stored changes. -/
theorem State.slot_setSlot (s : State) (k j : Nat) (bytes : List Byte) :
    (s.setSlot k bytes).slot j = if j = k then bytes else s.slot j := by
  simp only [State.slot, State.setSlot, cellGet_cellSet]
  by_cases h : j = k <;> simp [h]

theorem State.valid_setSlot (s : State) (k j : Nat) (bytes : List Byte) (hk : 1 ≤ k) :
    (s.setSlot k bytes).valid j = (decide (j = k) || s.valid j) := by
  simp only [State.valid, State.setSlot, cellGet_cellSet]
  by_cases h : j = k <;> simp [h, hk]

/-- Slot 0 is never valid (rule R54). -/
@[simp] theorem State.valid_zero (s : State) : s.valid 0 = false := by simp [State.valid]

theorem SlotFile.wf_cellSet {f : SlotFile} {k : Nat} {bytes : List Byte} (h : SlotFile.wf f = true) (h1 : 1 ≤ k)
    (h2 : k ≤ Config.maxChunks) (h3 : bytes.length ≤ Config.maxChunkBytes) : SlotFile.wf (cellSet k bytes f) = true := by
  simp only [SlotFile.wf, Bool.and_eq_true, List.all_eq_true] at *
  refine ⟨keysRising_cellSet h.1, fun c hc => ?_⟩
  rcases mem_cellSet hc with rfl | hc
  · simp [h1, h2, h3]
  · exact h.2 c hc

theorem reset_slots_wf : SlotFile.wf State.reset.slots = true := rfl

/-- Keys that rise strictly above `a` and no further than `b` are at most `b - a`. -/
theorem keysRising_length_le {α : Type} {a b : Nat} {m : List (Nat × α)} (h : keysRising m = true)
    (hm : ∀ c ∈ m, a < c.1 ∧ c.1 ≤ b) : m.length ≤ b - a := by
  induction m generalizing a with
  | nil => simp
  | cons d m ih =>
    obtain ⟨k, v⟩ := d
    have ⟨h1, h2⟩ := keysRising_cons.1 h
    have hk : a < k ∧ k ≤ b := hm (k, v) (by simp)
    have hl := ih h2 fun c hc => ⟨h1 c hc, (hm c (by simp [hc])).2⟩
    simp only [List.length_cons]
    omega

/-- No more slots are valid than there are (rule R56). -/
theorem SlotFile.length_le {f : SlotFile} (h : SlotFile.wf f = true) : f.length ≤ Config.maxChunks := by
  simp only [SlotFile.wf, Bool.and_eq_true, List.all_eq_true] at h
  exact keysRising_length_le (a := 0) (b := Config.maxChunks) h.1 fun c hc => by have := of_decide_eq_true (h.2 c hc); omega

/-- A store replaces what the slot held in the sum of the slots' bytes (rules R57, R250). -/
theorem SlotFile.bytes_cellSet {f : SlotFile} {k : Nat} {bytes : List Byte} (h : keysRising f = true) :
    SlotFile.bytes (cellSet k bytes f) + ((cellGet k f).getD []).length = SlotFile.bytes f + bytes.length := by
  induction f with
  | nil => simp [cellSet, cellGet, SlotFile.bytes]
  | cons d m ih =>
    obtain ⟨a, u⟩ := d
    have ⟨h1, h2⟩ := keysRising_cons.1 h
    simp only [SlotFile.bytes] at ih
    simp only [cellSet]
    split
    · rename_i hlt
      have := cellGet_none_of_lt (k := k) (m := m) fun c hc => by have := h1 c hc; omega
      simp [cellGet, this, SlotFile.bytes, show a ≠ k by omega]; omega
    split
    · simp [cellGet, *, SlotFile.bytes]; omega
    · rename_i h3 h4; have := ih h2; simp [cellGet, h4, SlotFile.bytes]; omega

/-- No 255 slots hold more than 255 x 65,519 bytes (rule R256). -/
theorem SlotFile.bytes_le {f : SlotFile} (h : SlotFile.wf f = true) :
    SlotFile.bytes f ≤ f.length * Config.maxChunkBytes := by
  simp only [SlotFile.wf, Bool.and_eq_true, List.all_eq_true] at h
  replace h := h.2
  induction f with
  | nil => simp [SlotFile.bytes]
  | cons d m ih =>
    have h1 := (of_decide_eq_true (h d (by simp))).2.2
    have h2 := ih fun c hc => h c (by simp [hc])
    simp only [SlotFile.bytes, Config.maxChunkBytes, List.map_cons, List.sum_cons, List.length_cons] at *
    omega

theorem State.slot_length_le {s : State} (h : SlotFile.wf s.slots = true) (k : Nat) :
    (s.slot k).length ≤ Config.maxChunkBytes := by
  simp only [SlotFile.wf, Bool.and_eq_true, List.all_eq_true] at h
  replace h := h.2
  unfold State.slot
  generalize s.slots = m at *
  induction m with
  | nil => simp [cellGet]
  | cons d m ih =>
    obtain ⟨a, u⟩ := d
    simp only [cellGet]
    split
    · exact (of_decide_eq_true (h (a, u) (by simp))).2.2
    · exact ih fun c hc => h c (by simp [hc])

end Sys2Proof.Machine
end

