-- ==== Sys2Proof/Laws/Ops.lean ====
section
/-! SUPPORT. One law per shared operation: everything it can answer, for proofs to cite instead of unfolding it. -/

namespace Sys2Proof.Machine

/-! ### The channels -/

/-- The four things a read can come to (rules R12, R13): a hold, a byte, the end of the stream, a stream fault. -/
theorem State.readByte_cases (s : State) (k : Byte → State → Fetched) :
    (s.input = [] ∧ s.readByte k = .answer (.next s)) ∨
    (∃ v items, s.input = .byte v :: items ∧ s.readByte k = k v { s with input := items, pos := s.pos + 1 }) ∨
    (∃ items, s.input = .endOfStream :: items ∧
      s.readByte k = .answer (.next ({ s with input := items }.raise .ioError .eof 0))) ∨
    (∃ c items, s.input = .fault c :: items ∧
      s.readByte k = .answer (.next ({ s with input := items }.raise .ioError .fault c))) := by
  unfold State.readByte
  rcases s.input with _ | ⟨_ | _ | _, items⟩ <;> simp

theorem State.readByte_byte {s : State} {v : Byte} {items : List Item} (k : Byte → State → Fetched)
    (h : s.input = .byte v :: items) : s.readByte k = k v { s with input := items, pos := s.pos + 1 } := by
  simp [State.readByte, h]

theorem State.readByte_hold {s : State} (k : Byte → State → Fetched) (h : s.input = []) :
    s.readByte k = .answer (.next s) := by
  simp [State.readByte, h]

theorem State.readByte_end {s : State} {items : List Item} (k : Byte → State → Fetched)
    (h : s.input = .endOfStream :: items) :
    s.readByte k = .answer (.next ({ s with input := items }.raise .ioError .eof 0)) := by
  simp [State.readByte, h]

theorem State.readByte_fault {s : State} {c : Byte} {items : List Item} (k : Byte → State → Fetched)
    (h : s.input = .fault c :: items) :
    s.readByte k = .answer (.next ({ s with input := items }.raise .ioError .fault c)) := by
  simp [State.readByte, h]

theorem State.outPush_room {s : State} (b : Byte) (rest : State → State) (h : s.outputRoom = true) :
    s.outPush b rest = .next (rest { s with output := s.output ++ [b] }) := by
  simp [State.outPush, h]

theorem State.outPush_full {s : State} (b : Byte) (rest : State → State) (h : s.outputRoom = false) :
    s.outPush b rest = .next s := by
  simp [State.outPush, h]

/-- A push either appends its byte and goes on or holds: it never stops (rules R12, R102). -/
theorem State.outPush_cases (s : State) (b : Byte) (rest : State → State) :
    (s.outputRoom = true ∧ s.outPush b rest = .next (rest { s with output := s.output ++ [b] })) ∨
    (s.outputRoom = false ∧ s.outPush b rest = .next s) := by
  unfold State.outPush
  cases s.outputRoom <;> simp

theorem State.outputRoom_iff {s : State} :
    s.outputRoom = true ↔ s.output.length < s.params.outDepth := by
  unfold State.outputRoom Params.outDepth
  split <;> simp_all

theorem State.inputRoom_iff {s : State} : s.inputRoom = true ↔ s.input.length < s.params.inDepth := by
  unfold State.inputRoom Params.inDepth
  split <;> simp_all

/-! ### Command issue (rule R280) -/

theorem State.issue_busy {s : State} (w : Word) (f : SState → Option ErrCode) (g : State → State) (h : s.busy = true) :
    s.issue w f g = .next { s with cmdOverrun := true } := by
  simp [State.issue, h]

theorem State.issue_refused {s : State} (w : Word) {f : SState → Option ErrCode} (g : State → State) {err : ErrCode}
    (h : s.busy = false) (hf : f s.sstate = some err) :
    s.issue w f g = .next ({ s with cmdLast := w }.reject err) := by
  simp [State.issue, h, hf]

theorem State.issue_accepted {s : State} (w : Word) {f : SState → Option ErrCode} (g : State → State)
    (h : s.busy = false) (hf : f s.sstate = none) : s.issue w f g = .next (g { s with cmdLast := w }) := by
  simp [State.issue, h, hf]

/-- A CMD write always completes: as an overrun, a rejection or an acceptance. -/
theorem State.issue_cases (s : State) (w : Word) (f : SState → Option ErrCode) (g : State → State) :
    (s.busy = true ∧ s.issue w f g = .next { s with cmdOverrun := true }) ∨
    (∃ err, s.busy = false ∧ f s.sstate = some err ∧ s.issue w f g = .next ({ s with cmdLast := w }.reject err)) ∨
    (s.busy = false ∧ f s.sstate = none ∧ s.issue w f g = .next (g { s with cmdLast := w })) := by
  rcases Bool.eq_false_or_eq_true s.busy with h | h
  · exact .inl ⟨h, State.issue_busy w f g h⟩
  · obtain hf | ⟨err, hf⟩ : f s.sstate = none ∨ ∃ err, f s.sstate = some err := by cases f s.sstate <;> simp
    · exact .inr (.inr ⟨h, hf, State.issue_accepted w g h hf⟩)
    · exact .inr (.inl ⟨err, h, hf, State.issue_refused w g h hf⟩)

@[simp] theorem commandWordOf_openSession : commandWordOf .openSession = 0x00000001#32 := by decide
@[simp] theorem commandWordOf_readSoi : commandWordOf .readSoi = 0x00000002#32 := by decide
@[simp] theorem commandWordOf_getCommonApp : commandWordOf .getCommonApp = 0x00000004#32 := by decide
@[simp] theorem commandWordOf_getIcc : commandWordOf .getIcc = 0x00000005#32 := by decide
@[simp] theorem commandWordOf_getSegment (t : Byte) : commandWordOf (.getSegment t) = commandWord t 0x3 := rfl

theorem legalInStart_none {ss : SState} : legalInStart ss = none ↔ ss = .start := by
  unfold legalInStart; split <;> simp_all

theorem legalInReady_none {ss : SState} : legalInReady ss = none ↔ ss = .ready := by
  unfold legalInReady; split <;> simp_all

/-! ### The engine's transfers of control -/

theorem State.onEoi_getSegment {s : State} (h : s.op = .getSegment) : s.onEoi = .next (s.finish .noSegment .eoi) := by
  simp [State.onEoi, h]

theorem State.onEoi_getCommonApp {s : State} (h : s.op = .getCommonApp) : s.onEoi = .next (s.finish .listDone .eoi) := by
  simp [State.onEoi, h]

theorem State.onEoi_getIcc {s : State} (h : s.op = .getIcc) :
    s.onEoi = .next (if s.iccActive then s.finish .iccIncomplete .eoi else s.finish .iccAbsent .eoi) := by
  simp [State.onEoi, h]

theorem State.onMarker_getSegment {s : State} (code : Byte) (h : s.op = .getSegment) :
    s.onMarker code = .next (s.startReader (code == s.tgt)) := by
  simp [State.onMarker, h]

theorem State.onMarker_getCommonApp {s : State} (code : Byte) (h : s.op = .getCommonApp) :
    s.onMarker code = .next (s.startReader (code == 0xE0#8 || code == 0xE1#8 || code == 0xE2#8)) := by
  simp [State.onMarker, h]

theorem State.onMarker_getIcc {s : State} (code : Byte) (h : s.op = .getIcc) :
    s.onMarker code = .next (s.startReader (code == 0xE2#8)) := by
  simp [State.onMarker, h]

theorem State.onSegmentEnd_discarded {s : State} (h : s.keep = false) : s.onSegmentEnd = { s with estate := .scanB0 } := by
  simp [State.onSegmentEnd, h]

theorem State.onSegmentEnd_icc {s : State} (h : s.keep = true) (ho : s.op = .getIcc) :
    s.onSegmentEnd = { s with estate := .assemble } := by
  simp [State.onSegmentEnd, h, ho]

theorem State.onSegmentEnd_record {s : State} (h : s.keep = true) (ho : s.op ≠ .getIcc) :
    s.onSegmentEnd = s.startRecord := by
  simp [State.onSegmentEnd, h, ho]

/-! ### The segment reader -/

/-- A length field below 2 (rule R232). -/
theorem State.lengthLow_invalid {s : State} {hi lo : Byte} (h : (be16 hi lo).toNat < 2) :
    s.lengthLow hi lo = { s with len := be16 hi lo }.raiseFormat .invalidSegmentLength := by
  have : ((be16 hi lo).toNat : Int) - 2 < 0 := by omega
  simp only [State.lengthLow, this, if_true]

/-- A length field of 2: an empty payload (rule R232). -/
theorem State.lengthLow_empty {s : State} {hi lo : Byte} (h : (be16 hi lo).toNat = 2) :
    s.lengthLow hi lo = { s with len := be16 hi lo, remain := 0, seglen := 0 }.onSegmentEnd := by
  have h2 : ((be16 hi lo).toNat : Int) - 2 = 0 := by omega
  simp only [State.lengthLow, h2, if_true]; rfl

/-- A longer length field (rule R232). -/
theorem State.lengthLow_body {s : State} {hi lo : Byte} (h : 2 < (be16 hi lo).toNat) :
    s.lengthLow hi lo = { s with
      len := be16 hi lo, remain := BitVec.ofNat 16 ((be16 hi lo).toNat - 2), seglen := 0, estate := .body } := by
  have h1 : ¬ ((be16 hi lo).toNat : Int) - 2 < 0 := by omega
  have h2 : ¬ ((be16 hi lo).toNat : Int) - 2 = 0 := by omega
  have h3 : (((be16 hi lo).toNat : Int) - 2).toNat = (be16 hi lo).toNat - 2 := by omega
  simp only [State.lengthLow, h1, h2, h3, if_false]

theorem State.bodyByte_dropped {s : State} (v : Byte) (h : s.keep = false) : s.bodyByte v = .next s.bodyCount := by
  simp [State.bodyByte, h]

theorem State.bodyByte_kept {s : State} (v : Byte) (h : s.keep = true) (hl : s.seglen.toNat < Config.segbufBytes) :
    s.bodyByte v =
      .next { s with segbuf := s.segbuf.write s.seglen.toNat v, seglen := s.seglen + 1 }.bodyCount := by
  simp [State.bodyByte, h, hl]

/-! ### Fields -/

/-- A length field's value (rule R107). -/
theorem be16_toNat (hi lo : Byte) : (be16 hi lo).toNat = 256 * hi.toNat + lo.toNat := by
  have := lo.isLt
  simp only [be16, BitVec.toNat_append]
  rw [← Nat.shiftLeft_add_eq_or_of_lt this]
  simp only [Nat.shiftLeft_eq]; omega

theorem wordOfBits_foldl (bit : Nat → Bool) {n i : Nat} (hi : i < 32) :
    ((List.range n).foldl (fun w i => w ||| (if bit i then BitVec.twoPow 32 i else 0#32)) 0#32).getLsbD i =
      (decide (i < n) && bit i) := by
  induction n with
  | zero => simp
  | succ n ih =>
    rw [List.range_succ, List.foldl_append]
    simp only [List.foldl_cons, List.foldl_nil, BitVec.getLsbD_or, ih]
    have h2 : (if bit n = true then BitVec.twoPow 32 n else 0#32).getLsbD i = (decide (i = n) && bit n) := by
      split <;> rename_i hb <;> simp only [BitVec.getLsbD_twoPow, hb, BitVec.getLsbD_zero, Bool.and_true, Bool.and_false]
      by_cases h : n = i <;> simp [h, eq_comm] <;> omega
    rw [h2]
    by_cases h1 : i = n
    · subst h1; simp
    · have : (i < n + 1) = (i < n) := by apply propext; omega
      simp [h1, this]

/-- A word made of bits has them (rule R54). -/
theorem wordOfBits_getLsbD (bit : Nat → Bool) {i : Nat} (hi : i < 32) : (wordOfBits bit).getLsbD i = bit i := by
  have := wordOfBits_foldl bit (n := 32) hi
  rw [wordOfBits, this]; simp [hi]

/-! ### Decoding -/

/-- What an accepted chunk is: the payload that follows its 14-byte header (rules R161, R251, R252). -/
theorem decodeChunk_instr {data : List Byte} {i : Instr} (h : decodeChunk data = .instr i) :
    ∃ seq cnt payload, i = .iccChunk seq cnt payload ∧ data.drop 12 = seq :: cnt :: payload ∧
      payload.length + 14 = data.length ∧ data.length ≤ Config.segbufBytes := by
  unfold decodeChunk at h
  split at h
  · cases h
  split at h
  · cases h
  rename_i h1 h2
  split at h
  · rename_i a b p hd
    cases h
    refine ⟨a, b, p, rfl, hd, ?_, by omega⟩
    have := congrArg List.length hd
    simp only [List.length_drop, List.length_cons] at this
    omega
  · cases h

/-- The classes of rule R158, each with the pair it stands for. -/
theorem decodePair_cases (b0 b1 : Byte) :
    (b0 ≠ 0xFF#8 ∧ decodePair b0 b1 = .desync b0 b1) ∨
    (b0 = 0xFF#8 ∧ b1 = 0x00#8 ∧ decodePair b0 b1 = .stuff) ∨
    (b0 = 0xFF#8 ∧ b1 = 0xFF#8 ∧ decodePair b0 b1 = .fill) ∨
    (b0 = 0xFF#8 ∧ b1 = 0xD9#8 ∧ decodePair b0 b1 = .eoi) ∨
    (b0 = 0xFF#8 ∧ (0xD0 ≤ b1.toNat ∧ b1.toNat ≤ 0xD7) ∧ decodePair b0 b1 = .rst (b1.extractLsb' 0 3)) ∨
    (b0 = 0xFF#8 ∧ isMarkerCode b1 = true ∧ decodePair b0 b1 = .marker b1) := by
  unfold decodePair
  split
  · exact .inl ⟨‹_›, rfl⟩
  rename_i h0
  have h0 : b0 = 0xFF#8 := by simpa using h0
  split
  · exact .inr (.inl ⟨h0, ‹_›, rfl⟩)
  split
  · exact .inr (.inr (.inl ⟨h0, ‹_›, rfl⟩))
  split
  · exact .inr (.inr (.inr (.inl ⟨h0, ‹_›, rfl⟩)))
  split
  · exact .inr (.inr (.inr (.inr (.inl ⟨h0, ‹_›, rfl⟩))))
  · refine .inr (.inr (.inr (.inr (.inr ⟨h0, ?_, rfl⟩))))
    have h1 : b1.toNat ≠ 0x00 := fun h => by rename_i a _ _ _; exact a (BitVec.eq_of_toNat_eq h)
    have h2 : b1.toNat ≠ 0xFF := fun h => by rename_i _ a _ _; exact a (BitVec.eq_of_toNat_eq h)
    have h3 : b1.toNat ≠ 0xD9 := fun h => by rename_i _ _ a _; exact a (BitVec.eq_of_toNat_eq h)
    have := b1.isLt
    simp only [isMarkerCode, Bool.or_eq_true, Bool.and_eq_true, decide_eq_true_eq, beq_iff_eq]
    omega

/-! ### Storing a chunk (rule R257) -/

theorem State.storeChunk_eq (s : State) (seq : Byte) (payload : List Byte) :
    s.storeChunk seq payload = { s with
      iccFilled := if s.valid seq.toNat then s.iccFilled else s.iccFilled + 1
      slots := cellSet seq.toNat payload s.slots
      iccUsed := BitVec.ofNat 24 (s.newUsed seq payload) } := by
  simp only [State.storeChunk, State.setSlot]
  split <;> simp_all

theorem State.slot_storeChunk (s : State) (seq : Byte) (payload : List Byte) (k : Nat) :
    (s.storeChunk seq payload).slot k = if k = seq.toNat then payload else s.slot k := by
  rw [State.storeChunk_eq]
  exact State.slot_setSlot s seq.toNat k payload

theorem State.valid_storeChunk (s : State) (seq : Byte) (payload : List Byte) (k : Nat) (h : 1 ≤ seq.toNat) :
    (s.storeChunk seq payload).valid k = (decide (k = seq.toNat) || s.valid k) := by
  rw [State.storeChunk_eq]
  exact State.valid_setSlot s seq.toNat k payload h

/-! ### The emission cursor -/

/-- Where `SkipEmpty` stops (rule R259): no further than one past the last slot, and inside a slot if not past it. -/
theorem skipEmpty_spec (l : List (List Byte)) (k i : Nat) (h : ∀ p, l[0]? = some p → i ≤ p.length) :
    k ≤ (skipEmpty l k i).1 ∧ (skipEmpty l k i).1 ≤ k + l.length ∧
    ((skipEmpty l k i).1 < k + l.length →
      ∃ p, l[(skipEmpty l k i).1 - k]? = some p ∧ (skipEmpty l k i).2 < p.length) := by
  induction l generalizing k i with
  | nil => simp [skipEmpty]
  | cons p l ih =>
    simp only [skipEmpty]
    split
    · obtain ⟨a, b, c⟩ := ih (k + 1) 0 (by simp)
      refine ⟨by omega, by simp only [List.length_cons]; omega, fun hl => ?_⟩
      simp only [List.length_cons] at hl
      obtain ⟨q, hq, hq2⟩ := c (by omega)
      refine ⟨q, ?_, hq2⟩
      rw [show (skipEmpty l (k + 1) 0).1 - k = ((skipEmpty l (k + 1) 0).1 - (k + 1)) + 1 by omega]
      simpa using hq
    · have := h p (by simp)
      refine ⟨by simp, by simp, fun _ => ⟨p, by simp, ?_⟩⟩
      simp only; omega

@[simp] theorem State.profileSlots_length (s : State) : s.profileSlots.length = s.iccTotal.toNat := by
  simp [State.profileSlots]

end Sys2Proof.Machine
end

