-- ==== Sys2Proof/Laws/Step.lean ====
section
/-! SUPPORT. The laws of a step: which turn is next, what it fetches and what the step answers. -/

namespace Sys2Proof.Machine

/-- A turn that fetches an instruction runs it. -/
theorem step_of_run {s t : State} {i : Instr} (h : fetch s = .run i t) : step s = exec i t := by
  simp [step, h]

/-- A turn with no instruction answers for itself. -/
theorem step_of_answer {s : State} {o : Outcome} (h : fetch s = .answer o) : step s = o := by
  simp [step, h]

/-- Every step is a run of an instruction or an answer. -/
theorem step_cases (s : State) :
    (∃ i t, fetch s = .run i t ∧ step s = exec i t) ∨ (∃ o, fetch s = .answer o ∧ step s = o) := by
  cases h : fetch s with
  | run i t => exact .inl ⟨i, t, rfl, step_of_run h⟩
  | answer o => exact .inr ⟨o, rfl, step_of_answer h⟩

/-! ### Whose turn it is (log entry 2) -/

theorem fetch_nil {s : State} (h : s.agenda = []) : fetch s = s.engineTurn := by simp [fetch, h]

theorem fetch_engine {s : State} {rest : List Move} (h : s.agenda = .engine :: rest) :
    fetch s = { s with agenda := rest }.engineTurn := by simp [fetch, h]

theorem fetch_read {s : State} {rest : List Move} {offset : BitVec 8} {width : Width}
    (h : s.agenda = .read offset width :: rest) : fetch s = { s with agenda := rest }.hostRead offset width := by
  simp [fetch, h]

theorem fetch_write {s : State} {rest : List Move} {offset : BitVec 8} {width : Width} {w : Word}
    (h : s.agenda = .write offset width w :: rest) : fetch s = { s with agenda := rest }.hostWrite offset width w := by
  simp [fetch, h]

theorem fetch_push_room {s : State} {rest : List Move} {item : Item} (h : s.agenda = .push item :: rest)
    (hr : s.inputRoom = true) : fetch s = .answer (.next ({ s with agenda := rest }.pushInput item)) := by
  simp [fetch, h, hr]

theorem fetch_push_full {s : State} {rest : List Move} {item : Item} (h : s.agenda = .push item :: rest)
    (hr : s.inputRoom = false) : fetch s = s.engineTurn := by
  simp [fetch, h, hr]

theorem fetch_pop {s : State} {rest : List Move} {b : Byte} {bytes : List Byte} (h : s.agenda = .pop :: rest)
    (ho : s.output = b :: bytes) : fetch s = .answer (.next ({ s with agenda := rest }.popOutput b bytes)) := by
  simp [fetch, h, ho]

theorem fetch_pop_empty {s : State} {rest : List Move} (h : s.agenda = .pop :: rest) (ho : s.output = []) :
    fetch s = s.engineTurn := by
  simp [fetch, h, ho]

theorem fetch_reset {s : State} {rest : List Move} (h : s.agenda = .reset :: rest) :
    fetch s = .answer (.next { s with agenda := rest }.hardReset) := by simp [fetch, h]

/-! ### The engine's turn in each state (rule R31) -/

theorem engineTurn_idle {s : State} (h : s.estate = .idle) : s.engineTurn = .answer (.next s) := by
  simp [State.engineTurn, h]

theorem engineTurn_soi0 {s : State} (h : s.estate = .soi0) :
    s.engineTurn = s.readByte fun v s => .answer (.next { s with t0 := v, estate := .soi1 }) := by
  simp [State.engineTurn, h]

theorem engineTurn_soi1 {s : State} (h : s.estate = .soi1) : s.engineTurn = s.readByte fun v s => s.fetchSoi v := by
  simp [State.engineTurn, h]

theorem engineTurn_scanB0 {s : State} (h : s.estate = .scanB0) :
    s.engineTurn = s.readByte fun v s => .answer (.next { s with b0 := v, estate := .scanB1 }) := by
  simp [State.engineTurn, h]

theorem engineTurn_scanB1 {s : State} (h : s.estate = .scanB1) :
    s.engineTurn = s.readByte fun v s => s.fetchPair v := by
  simp [State.engineTurn, h]

theorem engineTurn_lenHi {s : State} (h : s.estate = .lenHi) :
    s.engineTurn = s.readByte fun v s => .run (.segment (.lengthHigh v)) s := by
  simp [State.engineTurn, h]

theorem engineTurn_lenLo {s : State} (h : s.estate = .lenLo) :
    s.engineTurn = s.readByte fun v s => .run (.segment (.lengthLow (s.len.extractLsb' 8 8) v)) s := by
  simp [State.engineTurn, h]

theorem engineTurn_body {s : State} (h : s.estate = .body) :
    s.engineTurn = s.readByte fun v s => .run (.segment (.payload v)) s := by
  simp [State.engineTurn, h]

theorem engineTurn_assemble {s : State} (h : s.estate = .assemble) : s.engineTurn = s.fetchChunk := by
  simp [State.engineTurn, h]

theorem engineTurn_emitSeg {s : State} (h : s.estate = .emitSeg) : s.engineTurn = s.fetchRecord := by
  simp [State.engineTurn, h]

theorem engineTurn_emitIcc {s : State} (h : s.estate = .emitIcc) :
    s.engineTurn = .run (.iccProfileOut s.profileSlots) s := by
  simp [State.engineTurn, h]

/-! ### The host's accesses (rule R35) -/

theorem hostRead_word {s : State} {offset : BitVec 8} (h : offset.toNat % 4 = 0) :
    s.hostRead offset .word = .answer (.next (s.see (.value offset (s.readReg offset)))) := by
  simp [State.hostRead, accessRefusal, h]

theorem hostWrite_command {s : State} {w : Word} {i : Instr} (h : decodeCommand w = .instr i) :
    s.hostWrite cmdOffset .word w = .run i (s.noteIssue w) := by
  simp [State.hostWrite, accessRefusal, cmdOffset, h]

theorem hostWrite_undecoded {s : State} {w : Word} {why : Undecoded} (h : decodeCommand w = .rejected why) :
    s.hostWrite cmdOffset .word w = .answer ((s.noteIssue w).issueUndecoded w) := by
  simp [State.hostWrite, accessRefusal, cmdOffset, h]

theorem hostWrite_register {s : State} {offset : BitVec 8} {w : Word} (h : offset.toNat % 4 = 0)
    (hc : offset ≠ cmdOffset) : s.hostWrite offset .word w = .answer (.next (s.writeReg offset w)) := by
  simp [State.hostWrite, accessRefusal, h, hc]

/-! ### Everything a step can be -/

/-- What a turn comes to, with the instruction it fetched run. -/
def Fetched.outcome : Fetched → Outcome
  | .run i t => exec i t
  | .answer o => o

theorem step_eq_outcome (s : State) : step s = (fetch s).outcome := by
  unfold step Fetched.outcome
  rfl

/-- Every access that is not refused is a word access. -/
theorem accessRefusal_none {offset : BitVec 8} {width : Width} (h : accessRefusal offset width = none) : width = .word := by
  unfold accessRefusal at h
  split at h
  · cases h
  · rename_i hw
    simpa using hw

/-- Everything a step that answers a next state can have been: a turn of the engine, whether its own or while the host waits;
a read; a write to a register, a command, a word that is no command; a push; a byte taken by a pop or by one of the two
loops; the end of either loop; a reset. -/
theorem step_next_cases {s t : State} (h : step s = .next t) :
    (s.engineTurn.outcome = .next t ∧ ∀ offset width w rest, s.agenda ≠ .write offset width w :: rest) ∨
    (∃ rest, s.agenda = .engine :: rest ∧ { s with agenda := rest }.engineTurn.outcome = .next t) ∨
    (∃ offset rest, s.agenda = .read offset .word :: rest ∧
      t = { s with agenda := rest, seen := s.seen ++ [.value offset (s.readReg offset)] }) ∨
    (∃ offset w rest, s.agenda = .write offset .word w :: rest ∧ offset ≠ cmdOffset ∧
      t = { s with agenda := rest }.writeReg offset w) ∨
    (∃ w rest i, s.agenda = .write cmdOffset .word w :: rest ∧ decodeCommand w = .instr i ∧
      exec i ({ s with agenda := rest }.noteIssue w) = .next t) ∨
    (∃ w rest why, s.agenda = .write cmdOffset .word w :: rest ∧ decodeCommand w = .rejected why ∧
      ({ s with agenda := rest }.noteIssue w).issueUndecoded w = .next t) ∨
    (∃ item rest, s.agenda = .push item :: rest ∧ s.inputRoom = true ∧
      t = { s with agenda := rest, input := s.input ++ [item] }) ∨
    (∃ rest b bytes move, s.agenda = move :: rest ∧ (move = .pop ∨ move = .drainAll ∨ move = .waitDone) ∧
      s.output = b :: bytes ∧
      (t = { s with agenda := rest, output := bytes, seen := s.seen ++ [.byte b] } ∨
        t = { s with output := bytes, seen := s.seen ++ [.byte b] })) ∨
    (∃ rest, s.agenda = .drainAll :: rest ∧ t = { s with agenda := rest }) ∨
    (∃ rest, s.agenda = .waitDone :: rest ∧ s.busy = false ∧ s.output = [] ∧
      t = { s with agenda := rest, seen := s.seen ++ [.value statusOffset s.statusWord] }) ∨
    (∃ rest, s.agenda = .reset :: rest ∧ t = { s with agenda := rest }.hardReset) := by
  rw [step_eq_outcome] at h
  unfold fetch at h
  split at h
  · exact .inl ⟨h, by simp [*]⟩
  · exact .inr (.inl ⟨_, ‹_›, h⟩)
  · rename_i ha
    unfold State.hostRead at h
    split at h
    · cases h
    · obtain rfl := accessRefusal_none ‹_›
      cases h
      exact .inr (.inr (.inl ⟨_, _, ha, rfl⟩))
  · rename_i ha
    unfold State.hostWrite at h
    split at h
    · cases h
    · obtain rfl := accessRefusal_none ‹_›
      split at h
      · rename_i ho
        subst ho
        split at h
        · exact .inr (.inr (.inr (.inr (.inl ⟨_, _, _, ha, ‹_›, h⟩))))
        · exact .inr (.inr (.inr (.inr (.inr (.inl ⟨_, _, _, ha, ‹_›, h⟩)))))
      · cases h
        exact .inr (.inr (.inr (.inl ⟨_, _, _, ha, ‹_›, rfl⟩)))
  · split at h
    · cases h
      exact .inr (.inr (.inr (.inr (.inr (.inr (.inl ⟨_, _, ‹_›, ‹_›, rfl⟩))))))
    · exact .inl ⟨h, by simp [*]⟩
  · split at h
    · exact .inl ⟨h, by simp [*]⟩
    · cases h
      exact .inr (.inr (.inr (.inr (.inr (.inr (.inr (.inl ⟨_, _, _, _, ‹_›, .inl rfl, ‹_›, .inl rfl⟩)))))))
  · split at h
    · cases h
      exact .inr (.inr (.inr (.inr (.inr (.inr (.inr (.inr (.inl ⟨_, ‹_›, rfl⟩))))))))
    · cases h
      exact .inr (.inr (.inr (.inr (.inr (.inr (.inr (.inl ⟨_, _, _, _, ‹_›, .inr (.inl rfl), ‹_›, .inr rfl⟩)))))))
  · split at h
    · cases h
      exact .inr (.inr (.inr (.inr (.inr (.inr (.inr (.inl ⟨_, _, _, _, ‹_›, .inr (.inr rfl), ‹_›, .inr rfl⟩)))))))
    · split at h
      · rename_i hd
        simp only [Bool.and_eq_true, Bool.not_eq_true'] at hd
        cases h
        exact .inr (.inr (.inr (.inr (.inr (.inr (.inr (.inr (.inr (.inl ⟨_, ‹_›, hd.1, ‹_›, rfl⟩)))))))))
      · exact .inl ⟨h, by simp [*]⟩
  · cases h
    exact .inr (.inr (.inr (.inr (.inr (.inr (.inr (.inr (.inr (.inr ⟨_, ‹_›, rfl⟩)))))))))

/-- Steps one after the other. -/
theorem stepN_add {n : Nat} {s t : State} (h : stepN n s = .next t) (m : Nat) : stepN (n + m) s = stepN m t := by
  induction n generalizing s with
  | zero =>
    simp only [stepN, Host.Outcome.next.injEq] at h
    simp [h]
  | succ n ih =>
    rw [Nat.add_right_comm]
    simp only [stepN] at h ⊢
    split at h
    · exact ih h
    · cases h
    · cases h

/-- The whole invariant speaks of no turn still to come and of nothing the host has seen. -/
theorem State.Inv.agenda_seen {s : State} (h : s.Inv) (a : List Move) (q : List Seen) :
    State.Inv { s with agenda := a, seen := q } :=
  ⟨h.1, h.2, h.3, h.4, h.5, h.6, h.7, h.8, h.9, h.10, h.11, h.12, h.13, h.14⟩

end Sys2Proof.Machine
end

