-- ==== Sys2Proof/Laws/Emission.lean ====
section
/-! SUPPORT. The laws of the profile's emission: `SkipEmpty` passes over no byte, and after each byte the cursor stands at
the next one or the command is finished. -/

namespace Sys2Proof.Machine

/-- The bytes of the slots from number `k` on, from index `i` of the first. -/
theorem flatten_drop_cons {slots : List (List Byte)} {k : Nat} {p : List Byte} (h : slots[k]? = some p) {i : Nat}
    (hi : i ≤ p.length) :
    (slots.drop k).flatten.drop i = p.drop i ++ (slots.drop (k + 1)).flatten := by
  obtain ⟨hk, hp⟩ := List.getElem?_eq_some_iff.1 h
  rw [List.drop_eq_getElem_cons hk, hp, List.flatten_cons, List.drop_append_of_le_length hi]

/-- `SkipEmpty` leaves the bytes that are still to come as they are, and past the last slot none is (rules R259, R260). -/
theorem skipEmpty_bytes (l : List (List Byte)) (k i : Nat) (h : ∀ p, l[0]? = some p → i ≤ p.length)
    (h0 : l = [] → i = 0) :
    (l.drop ((skipEmpty l k i).1 - k)).flatten.drop (skipEmpty l k i).2 = l.flatten.drop i ∧
    ((skipEmpty l k i).1 = k + l.length → (skipEmpty l k i).2 = 0 ∧ l.flatten.drop i = []) := by
  induction l generalizing k i with
  | nil => simp [skipEmpty, h0 rfl]
  | cons p l ih =>
    simp only [skipEmpty]
    split
    · rename_i hi
      have hs := skipEmpty_spec l (k + 1) 0 (by simp)
      obtain ⟨i1, i2⟩ := ih (k + 1) 0 (by simp) (by simp)
      rw [show (skipEmpty l (k + 1) 0).1 - k = ((skipEmpty l (k + 1) 0).1 - (k + 1)) + 1 by have := hs.1; omega]
      refine ⟨by simp at i1 ⊢; rw [i1]; simp [hi], fun hh => ?_⟩
      simp only [List.length_cons] at hh
      obtain ⟨j1, j2⟩ := i2 (by omega)
      exact ⟨j1, by simp only [List.drop_zero] at j2; simp [hi, j2]⟩
    · exact ⟨by simp, fun hh => by simp at hh⟩

/-- Everything `State.emitFrom` can answer, for a profile of legal slots and a cursor no further than the end of its slot. -/
theorem State.emitFrom_cases (s : State) {slots : List (List Byte)} {k i : Nat} {p : List Byte}
    (h1 : slots.length ≤ Config.maxChunks) (h2 : ∀ q ∈ slots, q.length ≤ Config.maxChunkBytes) (hk : 1 ≤ k)
    (hp : slots[k - 1]? = some p) (hi : i ≤ p.length) :
    (profileRest slots k i = [] ∧
      s.emitFrom slots k i =
        { s with eslot := BitVec.ofNat 9 (slots.length + 1), eidx := 0 }.finish .iccPresent .closed) ∨
    (profileRest slots k i ≠ [] ∧ ∃ (eslot : BitVec 9) (eidx : BitVec 24),
      s.emitFrom slots k i = { s with eslot := eslot, eidx := eidx, estate := .emitIcc } ∧
      profileRest slots eslot.toNat eidx.toNat = profileRest slots k i ∧ 1 ≤ eslot.toNat ∧
      (∃ q, slots[eslot.toNat - 1]? = some q ∧ eidx.toNat < q.length) ∧
      (i < p.length → eslot.toNat = k ∧ eidx.toNat = i)) := by
  obtain ⟨hkl, hpe⟩ := List.getElem?_eq_some_iff.1 hp
  have hfirst : ∀ q, (slots.drop (k - 1))[0]? = some q → i ≤ q.length := by
    intro q hq
    simp only [List.getElem?_drop, Nat.add_zero, hp, Option.some.injEq] at hq
    exact hq ▸ hi
  have hspec := skipEmpty_spec (slots.drop (k - 1)) k i hfirst
  have hbytes := skipEmpty_bytes (slots.drop (k - 1)) k i hfirst fun h => by
    have := congrArg List.length h
    simp only [List.length_drop, List.length_nil] at this
    omega
  have hfast : i < p.length → skipEmpty (slots.drop (k - 1)) k i = (k, i) := by
    intro hlt
    rw [List.drop_eq_getElem_cons hkl, hpe, skipEmpty, if_neg (by omega)]
  simp only [State.emitFrom, skipCursor]
  obtain ⟨k', i', hz⟩ : ∃ x y, skipEmpty (slots.drop (k - 1)) k i = (x, y) := ⟨_, _, rfl⟩
  simp only [hz, List.length_drop] at hspec hbytes hfast ⊢
  obtain ⟨hlo, hhi, hin⟩ := hspec
  obtain ⟨hsame, hover⟩ := hbytes
  by_cases hend : slots.length < k'
  · obtain ⟨e1, e2⟩ := hover (by clear hin; omega)
    rw [if_pos hend]
    refine .inl ⟨e2, ?_⟩
    rw [show slots.length + 1 = k' by clear hin; omega, e1]
    rfl
  · obtain ⟨q, hq, hq2⟩ := hin (by clear hin; omega)
    clear hin
    rw [List.getElem?_drop, show k - 1 + (k' - k) = k' - 1 by omega] at hq
    rw [if_neg hend]
    have hql := h2 q (List.mem_of_getElem? hq)
    simp only [Config.maxChunks, Config.maxChunkBytes] at h1 hql
    have hk9 : (BitVec.ofNat 9 k').toNat = k' := by simp; omega
    have hi24 : (BitVec.ofNat 24 i').toNat = i' := by simp; omega
    rw [List.drop_drop, show k - 1 + (k' - k) = k' - 1 by omega] at hsame
    have hrest : profileRest slots k' i' = profileRest slots k i := hsame
    have hne : profileRest slots k' i' ≠ [] := by
      rw [profileRest, flatten_drop_cons hq (by omega)]
      simp; omega
    refine .inr ⟨fun h => hne (hrest.trans h), _, _, rfl, ?_, ?_, ?_, ?_⟩
    · rw [hk9, hi24, hrest]
    · rw [hk9]; omega
    · rw [hk9, hi24]; exact ⟨q, hq, hq2⟩
    · intro hlt
      have := hfast hlt
      simp only [Prod.mk.injEq] at this
      rw [hk9, hi24]; exact this

end Sys2Proof.Machine
end

