-- ==== Sys2Proof/Laws/Host.lean ====
section
/-! SUPPORT. The laws of what the host keeps: records read off one after the other, the bytes popped since a command was
issued, and the commands the host has issued. -/

namespace Sys2Proof

theorem length_bytes32 (v : Word) : (bytes32 v).length = 4 := rfl

/-- A record starts with its own length, whatever follows it. -/
theorem recordLength_append {xs : List Byte} (h : 7 ≤ xs.length) (ys : List Byte) :
    recordLength (xs ++ ys) = recordLength xs := by
  match xs, h with
  | _ :: _ :: _ :: _ :: _ :: _ :: _ :: _, _ => rfl

/-- A sequence that decodes as a record has at least the header. -/
theorem decodeRecord_length {bytes : List Byte} {i : Instr} (h : decodeRecord bytes = .instr i) : 7 ≤ bytes.length := by
  unfold decodeRecord at h
  split at h
  · simp
  · cases h

theorem be16_bytes (v : Half) : be16 (v.extractLsb' 8 8) (v.extractLsb' 0 8) = v := by
  apply BitVec.eq_of_toNat_eq
  simp [Machine.be16_toNat, BitVec.extractLsb'_toNat, Nat.shiftRight_eq_div_pow]
  omega

theorem be32_eq (a b c d : Byte) : be32 a b c d = be16 a b ++ be16 c d := BitVec.append_assoc (x₁ := a ++ b)

theorem be32_bytes (v : Word) :
    be32 (v.extractLsb' 24 8) (v.extractLsb' 16 8) (v.extractLsb' 8 8) (v.extractLsb' 0 8) = v := by
  have h (x y : Half) : (x ++ y).toNat = 65536 * x.toNat + y.toNat := by
    rw [BitVec.toNat_append, ← Nat.shiftLeft_add_eq_or_of_lt y.isLt, Nat.shiftLeft_eq]; omega
  apply BitVec.eq_of_toNat_eq
  rw [be32_eq, h]
  simp [Machine.be16_toNat, BitVec.extractLsb'_toNat, Nat.shiftRight_eq_div_pow]
  omega

/-- A record decodes to its own fields (rule R160). -/
theorem decodeRecord_encodeRecord (m : Byte) (o : Word) {z : Half} {payload : List Byte} (hl : payload.length = z.toNat)
    (hz : z.toNat ≤ Config.segbufBytes) :
    decodeRecord (encodeRecord m o z payload) = .instr (.segmentRecord m o z payload) := by
  simp [encodeRecord, recordHeader, bytes32, bytes16, decodeRecord, be16_bytes, be32_bytes, hl, hz]

theorem recordLength_encodeRecord (m : Byte) (o : Word) (z : Half) (payload : List Byte) :
    recordLength (encodeRecord m o z payload) = 7 + z.toNat := by
  simp [encodeRecord, recordHeader, bytes32, bytes16, recordLength, be16_bytes]

theorem length_encodeRecord (m : Byte) (o : Word) {z : Half} {payload : List Byte} (hl : payload.length = z.toNat) :
    (encodeRecord m o z payload).length = 7 + z.toNat := by
  simp [encodeRecord, recordHeader, bytes32, bytes16, hl]; omega

/-- One record more after any number of whole records. -/
theorem splitRecordsUpTo_append (n : Nat) {xs : List Byte} {records : List Instr} (m : Byte) (o : Word) {z : Half}
    {payload : List Byte} (hl : payload.length = z.toNat) (hz : z.toNat ≤ Config.segbufBytes)
    (h : splitRecordsUpTo n xs = some records) {k : Nat} (hk : n < k) :
    splitRecordsUpTo k (xs ++ encodeRecord m o z payload) = some (records ++ [.segmentRecord m o z payload]) := by
  induction n generalizing xs records k with
  | zero =>
    cases xs with
    | cons b rest => simp [splitRecordsUpTo] at h
    | nil =>
      simp only [splitRecordsUpTo, Option.some.injEq] at h
      subst h
      obtain ⟨k, rfl⟩ : ∃ j, k = j + 1 := ⟨k - 1, by omega⟩
      have hcons : encodeRecord m o z payload = m :: (bytes32 o ++ bytes16 z ++ payload) := rfl
      have hlen := length_encodeRecord m o hl
      rw [List.nil_append, hcons, splitRecordsUpTo, ← hcons, recordLength_encodeRecord, ← hlen, List.take_length,
        decodeRecord_encodeRecord m o hl hz, List.drop_length]
      cases k <;> rfl
  | succ n ih =>
    cases xs with
    | nil =>
      simp only [splitRecordsUpTo, Option.some.injEq] at h
      subst h
      exact ih (xs := []) (by cases n <;> rfl) (by omega)
    | cons b rest =>
      obtain ⟨k, rfl⟩ : ∃ j, k = j + 1 := ⟨k - 1, by omega⟩
      simp only [splitRecordsUpTo] at h
      split at h
      · rename_i i hd
        obtain ⟨tail, ht, rfl⟩ := Option.map_eq_some_iff.1 h
        have hmin := decodeRecord_length hd
        rw [List.length_take] at hmin
        have h7 : 7 ≤ (b :: rest).length := by omega
        have hlen : recordLength (b :: rest) ≤ (b :: rest).length := by
          by_contra hgt
          rw [List.take_of_length_le (by omega)] at hd
          unfold decodeRecord at hd
          split at hd
          · rename_i heq
            rw [heq] at hgt
            split at hd
            · rename_i hc
              simp only [recordLength, List.drop_succ_cons, List.drop_zero, List.length_cons, hc.1] at hgt
              omega
            · cases hd
          · cases hd
        rw [List.cons_append, splitRecordsUpTo, ← List.cons_append, recordLength_append h7,
          List.take_append_of_le_length hlen, List.drop_append_of_le_length hlen, hd]
        simp only
        rw [ih ht (by omega)]
        rfl
      · cases h

/-- Whole records with one record more are whole records (rules R160, R383). -/
theorem splitRecords_append {xs : List Byte} {records : List Instr} (m : Byte) (o : Word) {z : Half} {payload : List Byte}
    (hl : payload.length = z.toNat) (hz : z.toNat ≤ Config.segbufBytes) (h : splitRecords xs = some records) :
    splitRecords (xs ++ encodeRecord m o z payload) = some (records ++ [.segmentRecord m o z payload]) :=
  splitRecordsUpTo_append _ m o hl hz h (by rw [List.length_append, length_encodeRecord m o hl]; omega)

@[simp] theorem splitRecords_nil : splitRecords [] = some [] := rfl

/-- No record, no byte. -/
theorem splitRecords_eq_nil {xs : List Byte} (h : splitRecords xs = some []) : xs = [] := by
  cases xs with
  | nil => rfl
  | cons b rest =>
    simp only [splitRecords, List.length_cons, splitRecordsUpTo] at h
    split at h
    · simp at h
    · cases h

end Sys2Proof

namespace Sys2Proof.Machine

@[simp] theorem poppedSinceIssue_issued (seen : List Seen) (w : Word) : poppedSinceIssue (seen ++ [.issued w]) = [] := by
  simp [poppedSinceIssue, countPopped]

@[simp] theorem poppedSinceIssue_byte (seen : List Seen) (b : Byte) :
    poppedSinceIssue (seen ++ [.byte b]) = poppedSinceIssue seen ++ [b] := by
  simp [poppedSinceIssue, countPopped]

@[simp] theorem poppedSinceIssue_value (seen : List Seen) (offset : BitVec 8) (r : Word) :
    poppedSinceIssue (seen ++ [.value offset r]) = poppedSinceIssue seen := by
  simp [poppedSinceIssue, countPopped]

/-- RESULT as read holds the result's code in its low bits (rule R44). -/
theorem State.resultWord_code (s : State) : s.resultWord.extractLsb' 0 4 = s.result.code.code := by
  have h (x : BitVec 28) (c : BitVec 4) : (x ++ c).extractLsb' 0 4 = c := by
    refine BitVec.eq_of_getLsbD_eq fun i hi => ?_
    rw [BitVec.getLsbD_extractLsb', Nat.zero_add, BitVec.getLsbD_append]
    simp [hi]
  exact h _ _

/-- While the host waits with output to take, it takes all of it. -/
theorem stepN_waitDone_pops {s : State} {rest : List Move} (h : s.agenda = .waitDone :: rest) :
    stepN s.output.length s = .next { s with output := [], seen := s.seen ++ s.output.map .byte } := by
  generalize ho : s.output = bytes
  induction bytes generalizing s with
  | nil =>
    simp only [List.length_nil, stepN, List.map_nil, List.append_nil]
    rw [← ho]
  | cons b bytes ih =>
    have hstep : step s = .next { s with output := bytes, seen := s.seen ++ [.byte b] } := by
      simp [step, fetch, h, ho, State.popOutput, State.see]
    simp only [List.length_cons, stepN, hstep]
    rw [ih (s := { s with output := bytes, seen := s.seen ++ [.byte b] }) h rfl]
    simp

@[simp] theorem poppedSinceIssue_bytes (seen : List Seen) (bytes : List Byte) :
    poppedSinceIssue (seen ++ bytes.map .byte) = poppedSinceIssue seen ++ bytes := by
  induction bytes generalizing seen with
  | nil => simp
  | cons b bytes ih =>
    have := ih (seen ++ [.byte b])
    simpa using this

/-- A pop takes no byte from what the command has pushed. -/
@[simp] theorem State.commandOutput_popOutput (s : State) {b : Byte} {bytes : List Byte} (h : s.output = b :: bytes) :
    (s.popOutput b bytes).commandOutput = s.commandOutput := by
  simp [State.commandOutput, State.popOutput, State.see, h]

/-- The last command of the log holds the bytes popped since it was issued, and what came before it stays. -/
theorem hostCommands_last (earlier later : List Seen) (w : Word) (h : ∀ v, .issued v ∉ later) :
    ∃ code : BitVec 4, hostCommands (earlier ++ .issued w :: later) =
      { word := w, popped := poppedSinceIssue (earlier ++ .issued w :: later), resultCode := code } ::
        hostCommands earlier := by
  induction later using List.reverseRecOn with
  | nil => exact ⟨0, by simp [hostCommands, noteSeen, poppedSinceIssue, countPopped]⟩
  | append_singleton later x ih =>
    obtain ⟨code, ih⟩ := ih fun v hv => h v (by simp [hv])
    have happ : earlier ++ .issued w :: (later ++ [x]) = (earlier ++ .issued w :: later) ++ [x] := by simp
    simp only [happ, hostCommands, List.foldl_append, List.foldl_cons, List.foldl_nil] at ih ⊢
    rw [ih]
    cases x with
    | issued v => exact absurd (by simp) (h v)
    | byte b => exact ⟨code, by rw [noteSeen, poppedSinceIssue_byte]⟩
    | value offset r =>
      rw [poppedSinceIssue_value, noteSeen]
      split
      · exact ⟨_, rfl⟩
      · exact ⟨code, rfl⟩

/-- A read of RESULT that is not NONE settles the last command: its bytes are kept if it ended without an error and
discarded otherwise (rule R383). -/
theorem hostKeeps_result (earlier later : List Seen) (w r : Word) (h : ∀ v, .issued v ∉ later)
    (hr : r.extractLsb' 0 4 ≠ 0#4) :
    hostKeeps (earlier ++ .issued w :: (later ++ [.value resultOffset r])) = hostKeeps earlier ++
      if (r.extractLsb' 0 4).toNat ≤ 7 then poppedSinceIssue (earlier ++ .issued w :: later) else [] := by
  obtain ⟨code, hc⟩ := hostCommands_last earlier later w h
  have happ : earlier ++ .issued w :: (later ++ [.value resultOffset r]) =
      (earlier ++ .issued w :: later) ++ [.value resultOffset r] := by simp
  have hcons : hostCommands ((earlier ++ .issued w :: later) ++ [.value resultOffset r]) =
      noteSeen (hostCommands (earlier ++ .issued w :: later)) (.value resultOffset r) := by
    simp [hostCommands]
  have hpos : 1 ≤ (r.extractLsb' 0 4).toNat := by
    by_contra h0
    exact hr (BitVec.eq_of_toNat_eq (by simpa using h0))
  rw [happ, hostKeeps, hcons, hc]
  simp only [noteSeen, ne_eq, hr, not_false_eq_true, and_self, if_true, List.reverse_cons, List.flatMap_append,
    List.flatMap_cons, List.flatMap_nil, List.append_nil, HostCommand.kept, hpos, true_and]
  rfl

end Sys2Proof.Machine
end

