-- ==== Sys2Proof/Laws/PerInstr.lean ====
section
/-! SUPPORT. Families of statements about the instructions as syntax, one lemma per constructor. -/

namespace Sys2Proof.Laws.EncodedSize

/-- How many bytes the bits at a place take up. -/
def codeSize : Code → Nat
  | .command _ => 4
  | .startPair _ _ => 2
  | .scanPair _ _ => 2
  | .lengthHigh _ => 1
  | .lengthLow _ _ => 2
  | .payload _ => 1
  | .app2 data => data.length
  | .record bytes => bytes.length
  | .profile _ bytes => bytes.length

/-- How many bytes the spec gives an instruction: a command is one 32-bit word (rule R150), a pair two bytes (rule R156),
a length field two bytes whose high byte is read first (rule R159), a chunk 14 bytes and its payload (rule R161), a record
7 bytes and its payload (rule R160), a profile the bytes of its slots (rule R164). -/
def rowSize : Instr → Nat
  | .openSession | .readSoi | .getSegment _ | .getCommonApp | .getIcc => 4
  | .desync _ _ | .stuff | .fill | .eoi | .rst _ | .marker _ | .soi => 2
  | .segment (.lengthHigh _) => 1
  | .segment (.lengthLow _ _) => 2
  | .segment (.payload _) => 1
  | .iccChunk _ _ payload => 14 + payload.length
  | .segmentRecord _ _ size _ => 7 + size.toNat
  | .iccProfileOut slots => (slots.map List.length).sum

/-- A well-formed instruction's encoding has the size the spec gives it. -/
def Statement (i : Instr) : Prop := WellFormed i = true → codeSize (encode i) = rowSize i

theorem openSession : Statement .openSession := fun _ => rfl

theorem readSoi : Statement .readSoi := fun _ => rfl

theorem getSegment (target : Byte) : Statement (.getSegment target) := fun _ => rfl

theorem getCommonApp : Statement .getCommonApp := fun _ => rfl

theorem getIcc : Statement .getIcc := fun _ => rfl

theorem desync (b0 b1 : Byte) : Statement (.desync b0 b1) := fun _ => rfl

theorem stuff : Statement .stuff := fun _ => rfl

theorem fill : Statement .fill := fun _ => rfl

theorem eoi : Statement .eoi := fun _ => rfl

theorem rst (n : BitVec 3) : Statement (.rst n) := fun _ => rfl

theorem marker (code : Byte) : Statement (.marker code) := fun _ => rfl

theorem soi : Statement .soi := fun _ => rfl

theorem segment (part : SegmentPart) : Statement (.segment part) := by cases part <;> exact fun _ => rfl

theorem iccChunk (seq cnt : Byte) (payload : List Byte) : Statement (.iccChunk seq cnt payload) := by
  intro _
  simp only [encode, codeSize, rowSize, encodeChunk, iccSignature, List.length_append, List.length_cons, List.length_nil]
  omega

theorem segmentRecord (marker : Byte) (offset : Word) (size : Half) (payload : List Byte) :
    Statement (.segmentRecord marker offset size payload) := by
  intro h
  simp only [WellFormed, Bool.and_eq_true, beq_iff_eq] at h
  simp only [encode, codeSize, rowSize, encodeRecord, recordHeader, bytes32, bytes16, List.length_append,
    List.length_cons, List.length_nil, h.1]

theorem iccProfileOut (slots : List (List Byte)) : Statement (.iccProfileOut slots) := by
  intro _
  simp [encode, codeSize, rowSize, encodeProfile, List.length_flatten]

end Sys2Proof.Laws.EncodedSize
end

