-- ==== Sys2Proof/Tests/Slice0.lean ====
section
/-! SUPPORT. Small checks of the model: ill-formed terms, words and pairs written out from spec/30_encoding.md, one step per
instruction on a small state, and for every statement with hypotheses states and operands that meet them. Expected values
are the spec's: the examples inside its rules, its tables, and spec/95_test_vectors.md. -/

namespace Sys2Proof.Tests

open Sys2Proof.Machine

/-! ### Well-formedness -/

/-- Rule R203: DESYNC has `b0 != FF`. -/
theorem test_wf_desync : WellFormed (.desync 0xFF 0xE0) = false ∧ WellFormed (.desync 0xFE 0xFF) = true := by decide

/-- Rule R158: the codes that are no MARKER, at the edges of its ranges. -/
theorem test_wf_marker :
    ([0x00, 0xD0, 0xD7, 0xD9, 0xFF].map fun c => WellFormed (.marker c)) = List.replicate 5 false ∧
    ([0x01, 0xCF, 0xD8, 0xDA, 0xFE].map fun c => WellFormed (.marker c)) = List.replicate 5 true := by decide

/-- Rule R161: the largest chunk payload is 65,519 bytes. -/
theorem test_wf_icc_chunk : WellFormed (.iccChunk 1 1 (List.replicate 65520 0)) = false := by
  rw [WellFormed, List.length_replicate]; decide

/-- Rule R160: a record's size is its payload's length. -/
theorem test_wf_record_size : WellFormed (.segmentRecord 0xE0 4 3 [0x4A, 0x46]) = false := by decide

/-- Rule R159: the largest payload is 65,533 bytes. -/
theorem test_wf_record_large : WellFormed (.segmentRecord 0xE0 4 0xFFFE (List.replicate 65534 0)) = false := by
  rw [WellFormed, List.length_replicate]; decide

/-- Rule R267: a profile has 1 to 255 chunks of at most 65,519 bytes. -/
theorem test_wf_profile :
    WellFormed (.iccProfileOut []) = false ∧ WellFormed (.iccProfileOut [[]]) = true := by decide

theorem test_wf_profile_slots : WellFormed (.iccProfileOut (List.replicate 256 [])) = false := by
  rw [WellFormed, List.length_replicate]; rfl

theorem test_wf_profile_slot : WellFormed (.iccProfileOut [List.replicate 65520 0]) = false := by
  rw [WellFormed, List.all_cons, List.length_replicate]; decide

/-! ### Decoding, from the words and pairs of spec/30_encoding.md -/

theorem test_decode_open : decode (.command 0b00000000000000000000000000000001) = .instr .openSession := by decide
theorem test_decode_read_soi : decode (.command 0b00000000000000000000000000000010) = .instr .readSoi := by decide
/-- OPC in bits 3:0, TARGET in bits 15:8 (rule R150). -/
theorem test_decode_get_segment :
    decode (.command 0b00000000000000001110001000000011) = .instr (.getSegment 0xE2) := by decide
theorem test_decode_get_common_app : decode (.command 0b00000000000000000000000000000100) = .instr .getCommonApp := by
  decide
theorem test_decode_get_icc : decode (.command 0b00000000000000000000000000000101) = .instr .getIcc := by decide
/-- Rule R153: a reserved OPC at each edge, each reserved field, and a TARGET outside GET_SEGMENT. -/
theorem test_decode_illegal :
    ([0x00000000, 0x00000006, 0x0000000F, 0x00000011, 0x00000083, 0x00010001, 0x80000003, 0x00000101].map fun w =>
      decode (.command w)) = List.replicate 8 (.rejected .badOpcode) := by decide
theorem test_decode_desync : decode (.scanPair 0x00 0xFF) = .instr (.desync 0x00 0xFF) := by decide
theorem test_decode_stuff : decode (.scanPair 0b11111111 0b00000000) = .instr .stuff := by decide
theorem test_decode_fill : decode (.scanPair 0b11111111 0b11111111) = .instr .fill := by decide
theorem test_decode_eoi : decode (.scanPair 0b11111111 0b11011001) = .instr .eoi := by decide
theorem test_decode_rst :
    decode (.scanPair 0xFF 0b11010000) = .instr (.rst 0) ∧ decode (.scanPair 0xFF 0b11010111) = .instr (.rst 7) := by decide
theorem test_decode_marker :
    decode (.scanPair 0xFF 0xD8) = .instr (.marker 0xD8) ∧ decode (.scanPair 0xFF 0x01) = .instr (.marker 0x01) := by decide
theorem test_decode_soi :
    decode (.startPair 0xFF 0xD8) = .instr .soi ∧ decode (.startPair 0xFF 0xFF) = .rejected .missingSoi := by decide
theorem test_decode_segment :
    decode (.lengthHigh 0x00) = .instr (.segment (.lengthHigh 0x00)) ∧
    decode (.lengthLow 0x00 0x10) = .instr (.segment (.lengthLow 0x00 0x10)) ∧
    decode (.payload 0xFF) = .instr (.segment (.payload 0xFF)) := by decide
/-- Rule R161, and the signature exact and case-sensitive (rule R252). -/
theorem test_decode_icc_chunk :
    decode (.app2 [0x49, 0x43, 0x43, 0x5F, 0x50, 0x52, 0x4F, 0x46, 0x49, 0x4C, 0x45, 0x00, 0x02, 0x03, 0xAA]) =
      .instr (.iccChunk 2 3 [0xAA]) ∧
    decode (.app2 [0x69, 0x43, 0x43, 0x5F, 0x50, 0x52, 0x4F, 0x46, 0x49, 0x4C, 0x45, 0x00, 0x02, 0x03, 0xAA]) =
      .rejected .invalidIccHeader := by decide
/-- Vector P4a: a size of 13 is no chunk, whatever its bytes. -/
theorem test_decode_icc_short :
    decode (.app2 [0x49, 0x43, 0x43, 0x5F, 0x50, 0x52, 0x4F, 0x46, 0x49, 0x4C, 0x45, 0x00, 0x01]) =
      .rejected .invalidIccHeader := by decide
/-- The record of rule R291's example. -/
theorem test_decode_record :
    decode (.record [0xE0, 0x00, 0x00, 0x00, 0x04, 0x00, 0x02, 0x4A, 0x46]) =
      .instr (.segmentRecord 0xE0 4 2 [0x4A, 0x46]) := by decide
theorem test_decode_profile :
    decode (.profile [1, 0, 2] [0xAA, 0xBB, 0xCC]) = .instr (.iccProfileOut [[0xAA], [], [0xBB, 0xCC]]) := by decide

/-- The wire example of rule R159: a segment of code `c` is read as its marker, its length and its payload. -/
theorem test_wire_segment :
    wireSegment 0xE0 [0x4A, 0x46] = [0xFF, 0xE0, 0x00, 0x04, 0x4A, 0x46] ∧
    segmentInstrs 0xE0 [0x4A] =
      [.marker 0xE0, .segment (.lengthHigh 0x00), .segment (.lengthLow 0x00 0x03), .segment (.payload 0x4A)] := by decide

/-! ### Steps -/

/-- The next state of an outcome, if it is one. -/
def next : Outcome → Option State
  | .next t => some t
  | .fault _ => none
  | .refused _ => none

/-- The state after reset of a build with channels of 4 items and 16 bytes. -/
def base : State := { State.reset with params := { inDepthLessOne := 3, outDepthLessOne := 15, csrPage := 0, iccMemBytes := 16707345 } }

/-- GET_COMMON_APP running, in an engine state. -/
def scanning (e : EState) : State := { base with busy := true, op := .getCommonApp, sstate := .ready, estate := e }

/-- GET_ICC running, past the SOI pair, in an engine state. -/
def assembling (e : EState) : State := { base with busy := true, op := .getIcc, sstate := .ready, estate := e }

/-- A session in READY with no command running. -/
def ready : State := { base with sstate := .ready }

/-- Rule R285's example: SSTATE = ERROR, POS = 57. -/
theorem test_open :
    (next (exec .openSession { base with sstate := .error, pos := 57, slots := [(3, [0xAA])] })).map
      (fun t => (t.statusWord, t.pos, t.resultWord, t.slots.length)) =
    some (0x00000002#32, 0x00000000#32, 0x00000001#32, 0) := by decide

/-- The irq output and CMD_OVERRUN are OPEN's to keep (rule R285). -/
theorem test_open_keeps :
    (next (exec .openSession { base with irqEn := true, cmdOverrun := true })).map (fun t => (t.irq, t.cmdOverrun)) =
    some (true, true) := by decide

theorem test_read_soi :
    (next (exec .readSoi base)).map (fun t => (t.busy, t.estate, t.cmdLast, t.doneFlag)) =
    some (true, .soi0, 0x00000002#32, false) := by decide

/-- READ_SOI in READY: BAD_STATE, RESULT word `0x00000099` (rules R44, R45, R281). -/
theorem test_read_soi_rejected :
    (next (exec .readSoi ready)).map (fun t => (t.resultWord, t.statusWord, t.cmdLast)) =
    some (0x00000099#32, 0x00000012#32, 0x00000002#32) := by decide

/-- Rule R288's example: the word `0x0000E203`. -/
theorem test_get_segment :
    (next (exec (.getSegment 0xE2) { ready with segCount := 7 })).map
      (fun t => (t.cmdLast, t.tgt, t.estate, t.busy, t.segCount)) =
    some (0x0000E203#32, 0xE2#8, .scanB0, true, 0#32) := by decide

theorem test_get_common_app :
    (next (exec .getCommonApp ready)).map (fun t => (t.cmdLast, t.estate, t.busy)) =
    some (0x00000004#32, .scanB0, true) := by decide

/-- GET_ICC clears what an earlier one left (rules R269, R280). -/
theorem test_get_icc :
    (next (exec .getIcc { base with iccActive := true, iccTotal := 2, iccFilled := 1, iccUsed := 1, slots := [(1, [0xAA])] })).map
      (fun t => (t.cmdLast, t.estate, t.iccStateWord, t.iccLenWord, t.slotValidWord 0)) =
    some (0x00000005#32, .soi0, 0#32, 0#32, 0#32) := by decide

/-- Rule R203's example: the pair `12 FF` leaves B0 = FF in SCAN_B1. -/
theorem test_desync :
    (next (exec (.desync 0x12 0xFF) { scanning .scanB1 with b0 := 0x12, b1 := 0xFF, pos := 4 })).map
      (fun t => (t.b0, t.estate, t.pos)) = some (0xFF#8, .scanB1, 4#32) := by decide

theorem test_stuff :
    (next (exec .stuff { scanning .scanB1 with b0 := 0xFF })).map (fun t => (t.estate, t.pos)) = some (.scanB0, 0#32) := by
  decide

theorem test_fill :
    (next (exec .fill { scanning .scanB1 with b0 := 0xFF })).map (fun t => (t.estate, t.b0)) = some (.scanB1, 0xFF#8) := by
  decide

/-- Vector P1: GET_ICC at EOI with no chunk gives ICC_ABSENT, STATUS `0x22`. -/
theorem test_eoi_absent :
    (next (exec .eoi (assembling .scanB1))).map (fun t => (t.resultWord, t.statusWord)) =
    some (0x00000006#32, 0x00000022#32) := by decide

theorem test_eoi_list :
    (next (exec .eoi (scanning .scanB1))).map (fun t => (t.resultWord, t.statusWord)) =
    some (0x00000004#32, 0x00000022#32) := by decide

theorem test_rst :
    (next (exec (.rst 3) { scanning .scanB1 with b0 := 0xFF })).map (fun t => (t.estate, t.mkCode)) = some (.scanB0, 0#8) := by
  decide

/-- Rule R208's example: MK = E0, MOFF = 4. -/
theorem test_marker :
    (next (exec (.marker 0xE0) { scanning .scanB1 with pos := 4 })).map
      (fun t => (t.mkCode, t.moff, t.keep, t.estate)) = some (0xE0#8, 4#32, true, .lenHi) := by decide

theorem test_marker_dropped :
    (next (exec (.marker 0xE1) { scanning .scanB1 with op := .getSegment, tgt := 0xE2 })).map (·.keep) = some false := by
  decide

/-- Rule R286's example: Finish(OK, READY). -/
theorem test_soi :
    (next (exec .soi { base with busy := true, op := .readSoi, estate := .soi1, pos := 2 })).map
      (fun t => (t.resultWord, t.statusWord, t.pos)) = some (0x00000001#32, 0x00000012#32, 2#32) := by decide

/-- A stream that starts `FF FF` fails: MISSING_SOI, RESULT word `0x00000028` (rules R45, R286). -/
theorem test_missing_soi :
    (next (step { base with
        busy := true, op := .readSoi, estate := .soi1, t0 := 0xFF, pos := 1, input := [.byte 0xFF, .byte 0xD8] })).map
      (fun t => (t.resultWord, t.statusWord, t.pos, t.input)) =
    some (0x00000028#32, 0x00000032#32, 2#32, [.byte 0xD8]) := by decide

/-- Rule R232's example: L = 16, size = 14. -/
theorem test_length :
    (next (step { scanning .lenLo with pos := 5, moff := 4, input := [.byte 0x10] })).map
      (fun t => (t.len, t.remain, t.pos, t.estate)) = some (16#16, 14#16, 6#32, .body) := by decide

/-- Vector P7a: a length field of 1, RESULT word `0x00000038` and POS = MOFF + 2. -/
theorem test_length_invalid :
    (next (step { scanning .lenLo with pos := 5, moff := 4, input := [.byte 0x01, .byte 0xAA] })).map
      (fun t => (t.resultWord, t.pos, t.input)) = some (0x00000038#32, 6#32, [.byte 0xAA]) := by decide

/-- Rule R235's example: the first byte of a kept payload. -/
theorem test_payload :
    (next (exec (.segment (.payload 0x49)) { scanning .body with keep := true, remain := 20 })).map
      (fun t => (t.segbuf.read 0, t.segbuf.read 1, t.seglen, t.remain)) = some (some 0x49, none, 1#16, 19#16) := by decide

/-- Rule R234's example: the last byte of a dropped payload. -/
theorem test_payload_dropped :
    (next (exec (.segment (.payload 0xFF)) { scanning .body with remain := 1 })).map
      (fun t => (t.segbuf, t.seglen, t.remain, t.estate)) = some ([], 0#16, 0#16, .scanB0) := by decide

/-- GET_ICC with the segment `H seq cnt payload` in SEGBUF, at the end of the reading. -/
def chunkHeld (s : State) (seq cnt : Byte) (payload : List Byte) : State :=
  { s with
    seglen := BitVec.ofNat 16 (14 + payload.length)
    len := BitVec.ofNat 16 (16 + payload.length)
    pos := BitVec.ofNat 32 (16 + payload.length)
    keep := true
    segbuf := writeRange [] 0 (iccSignature ++ seq :: cnt :: payload) }

/-- The first chunk of vector P6 (seq 1 of 2, payload AA): ICC_STATE `0x00010102`, ICC_LEN 1, SLOT_VALID0 2. -/
theorem test_icc_chunk :
    (next (step (chunkHeld (assembling .assemble) 1 2 [0xAA]))).map
      (fun t => (t.iccStateWord, t.iccLenWord, t.slotValidWord 0, t.estate)) =
    some (0x00010102#32, 0x00000001#32, 0x00000002#32, .scanB0) := by decide

/-- Vector P6's second chunk: INCONSISTENT_CHUNK_COUNT, RESULT word `0x00000068`, and the first chunk's state kept. -/
theorem test_icc_chunk_count :
    (next (step (chunkHeld { assembling .assemble with
        iccActive := true, iccTotal := 2, iccFilled := 1, iccUsed := 1, slots := [(1, [0xAA])] } 2 3 [0xBB]))).map
      (fun t => (t.resultWord, t.iccStateWord, t.iccLenWord)) =
    some (0x00000068#32, 0x00010102#32, 0x00000001#32) := by decide

/-- The record of rule R291's example, before its last byte. -/
def emitting : State :=
  { scanning .emitSeg with
    mkCode := 0xE0, moff := 4, pos := 8, len := 4, keep := true, seglen := 2, segbuf := [(0, 0x4A), (1, 0x46)]
    segMarker := 0xE0, segOffset := 4, segSize := 2, eidx := 8 }

theorem test_record_last :
    (next (step emitting)).map (fun t => (t.output, t.segCount, t.estate)) = some ([0x46], 1#32, .scanB0) := by decide

theorem test_record_first :
    (next (step { emitting with eidx := 0, op := .getSegment })).map (fun t => (t.output, t.eidx, t.busy)) =
    some ([0xE0], 1#24, true) := by decide

/-- Rule R260's example: SLOT[1] = AA, SLOT[2] = BB CC, at the last byte of SLOT[1]. -/
def emittingIcc : State :=
  { assembling .emitIcc with
    iccActive := true, iccTotal := 2, iccFilled := 2, iccUsed := 3, slots := [(1, [0xAA]), (2, [0xBB, 0xCC])], eslot := 1 }

theorem test_profile_first :
    (next (step emittingIcc)).map (fun t => (t.output, t.eslot, t.eidx, t.busy)) = some ([0xAA], 2#9, 0#24, true) := by decide

theorem test_profile_last :
    (next (step { emittingIcc with eslot := 2, eidx := 1 })).map (fun t => (t.output, t.resultWord, t.statusWord)) =
    some ([0xCC], 0x00000005#32, 0x00000042#32) := by decide

/-! ### The opcode table's words -/

/-- Each row's word is read as the row's instruction (log entry 4). -/
theorem test_table_words :
    decodeTableWord 32 0x00000001 = some .openSession ∧ decodeTableWord 32 0x0000E203 = some (.getSegment 0xE2) ∧
    decodeTableWord 16 0x12FF = some (.desync 0x12 0xFF) ∧ decodeTableWord 16 0xFFD3 = some (.rst 3) ∧
    decodeTableWord 16 0xFFD8 = some .soi ∧ decodeTableWord 32 0xFFE10010 = some (.segment (.lengthLow 0x00 0x10)) ∧
    decodeTableWord 56 0xE0000000040002 = some (.segmentRecord 0xE0 4 2 [0, 0]) ∧
    decodeTableWord 112 0x4943435F50524F46494C45000102 = some (.iccChunk 1 2 []) ∧
    decodeTableWord 0 0 = some (.iccProfileOut [[0]]) := by decide

/-- The word placed is the one the next step runs. -/
theorem test_fetch_word : step (base.withFetchWord 16 0xFFE0) = exec (.marker 0xE0)
    { scanning .scanB1 with sstate := .start, b0 := 0xFF, b1 := 0xE0, pos := 1 } := rfl

/-- An 8-bit access and an access at offset 2 are refused (rule R35 (a)). -/
theorem test_refused :
    step { base with agenda := [.read 0x08 .byte] } = .refused .accessNotWord ∧
    step { base with agenda := [.write 0x02 .word 0] } = .refused .accessUnaligned := ⟨rfl, rfl⟩

/-! ### The host's duty towards a failed command -/

/-- The two records of a list are read off by their sizes; a record cut short is none (rules R160, R383). -/
theorem test_split_records :
    splitRecords [0xE0, 0x00, 0x00, 0x00, 0x04, 0x00, 0x02, 0x4A, 0x46, 0xE1, 0x00, 0x00, 0x00, 0x0A, 0x00, 0x00] =
      some [.segmentRecord 0xE0 4 2 [0x4A, 0x46], .segmentRecord 0xE1 10 0 []] ∧
    splitRecords [0xE0, 0x00, 0x00, 0x00, 0x04, 0x00, 0x02, 0x4A] = none := by decide

/-- The output of a list that ended with LIST_DONE is kept; of a later one that ended with ERROR every byte is discarded,
those popped after RESULT was read among them (rule R383). -/
theorem test_host_keeps :
    hostKeeps [.issued 0x00000004, .byte 0xE0, .value 0x0C 0x00000004, .issued 0x00000004, .byte 0xE1,
      .value 0x0C 0x00010218, .byte 0xE2] = [0xE0] ∧
    poppedSinceIssue [.issued 0x00000004, .byte 0xE0, .issued 0x00000004, .byte 0xE1, .byte 0xE2] = [0xE1, 0xE2] := by decide

/-- A write to CMD is noted as an issue only while no command runs (rules R333, R383). -/
theorem test_issue_noted :
    (next (step { ready with agenda := [.write 0x04 .word 0x00000004] })).map State.seen = some [.issued 0x00000004] ∧
    (next (step { scanning .scanB0 with agenda := [.write 0x04 .word 0x00000004] })).map State.seen = some [] := by decide

/-! ### Witnesses: states that meet the invariant -/

/-- A session that has ended, with the host about to write OPEN. -/
def ended : State :=
  { base with
    sstate := .eoi, doneFlag := true
    result := { code := .listDone, err := .none, ioCause := .none, ioCode := 0 }
    agenda := [.write 0x04 .word 0x00000001] }

/-- GET_ICC with a first chunk accepted, at the second byte of an EOI. -/
def eoiIcc : State :=
  { assembling .scanB1 with
    b0 := 0xFF, input := [.byte 0xD9], iccActive := true, iccTotal := 2, iccFilled := 1, iccUsed := 1, slots := [(1, [0xAA])] }

/-- GET_ICC with a first chunk in SEGBUF. -/
def firstChunk : State := chunkHeld (assembling .assemble) 1 0 [0xAA]

/-- GET_ICC with a later chunk in SEGBUF. -/
def laterChunk : State :=
  chunkHeld { assembling .assemble with
    iccActive := true, iccTotal := 2, iccFilled := 1, iccUsed := 1, slots := [(1, [0xAA])] } 2 2 [0xBB]

/-- GET_ICC with an APP2 of 13 bytes in SEGBUF (vector P4a). -/
def shortChunk : State :=
  { assembling .assemble with
    keep := true, seglen := 13, len := 15, pos := 15
    segbuf := writeRange [] 0 [0x49, 0x43, 0x43, 0x5F, 0x50, 0x52, 0x4F, 0x46, 0x49, 0x4C, 0x45, 0x00, 0x01] }

/-- GET_ICC with an APP2 of 14 bytes in SEGBUF whose twelfth byte is not 0. -/
def badChunk : State :=
  { assembling .assemble with
    keep := true, seglen := 14, len := 16, pos := 16
    segbuf := writeRange [] 0 [0x49, 0x43, 0x43, 0x5F, 0x50, 0x52, 0x4F, 0x46, 0x49, 0x4C, 0x45, 0x01, 0x01, 0x01] }

theorem inv_ended : State.Inv ended where
  busy := by unfold BusyMatches; decide
  quiet := by unfold RunningQuiet; decide
  err := by unfold ErrMatches; decide
  channels := by unfold ChannelsFit; decide
  memories := by unfold MemoriesCanonical; decide
  op := trivial
  session := ⟨trivial, by decide⟩
  held := by unfold SegbufHeld; decide
  reader := by unfold ReaderCounts; decide
  position := trivial
  record := by unfold RecordCursor; decide
  profile := by unfold ProfileCursor; decide
  icc := by unfold IccCounts; decide
  progress := by unfold IccProgress; decide

theorem inv_eoiIcc : State.Inv eoiIcc where
  busy := by unfold BusyMatches; decide
  quiet := by unfold RunningQuiet; decide
  err := by unfold ErrMatches; decide
  channels := by unfold ChannelsFit; decide
  memories := by unfold MemoriesCanonical; decide
  op := .inr (.inr rfl)
  session := ⟨rfl, by decide⟩
  held := by unfold SegbufHeld; decide
  reader := by unfold ReaderCounts; decide
  position := trivial
  record := by unfold RecordCursor; decide
  profile := by unfold ProfileCursor; decide
  icc := by unfold IccCounts; decide
  progress := by unfold IccProgress; decide

theorem inv_firstChunk : State.Inv firstChunk where
  busy := by unfold BusyMatches; decide
  quiet := by unfold RunningQuiet; decide
  err := by unfold ErrMatches; decide
  channels := by unfold ChannelsFit; decide
  memories := by unfold MemoriesCanonical; decide
  op := rfl
  session := ⟨rfl, by decide⟩
  held := by unfold SegbufHeld; decide
  reader := by unfold ReaderCounts; decide
  position := by show _ = _; decide
  record := by unfold RecordCursor; decide
  profile := by unfold ProfileCursor; decide
  icc := by unfold IccCounts; decide
  progress := by unfold IccProgress; decide

theorem inv_laterChunk : State.Inv laterChunk where
  busy := by unfold BusyMatches; decide
  quiet := by unfold RunningQuiet; decide
  err := by unfold ErrMatches; decide
  channels := by unfold ChannelsFit; decide
  memories := by unfold MemoriesCanonical; decide
  op := rfl
  session := ⟨rfl, by decide⟩
  held := by unfold SegbufHeld; decide
  reader := by unfold ReaderCounts; decide
  position := by show _ = _; decide
  record := by unfold RecordCursor; decide
  profile := by unfold ProfileCursor; decide
  icc := by unfold IccCounts; decide
  progress := by unfold IccProgress; decide

theorem inv_shortChunk : State.Inv shortChunk where
  busy := by unfold BusyMatches; decide
  quiet := by unfold RunningQuiet; decide
  err := by unfold ErrMatches; decide
  channels := by unfold ChannelsFit; decide
  memories := by unfold MemoriesCanonical; decide
  op := rfl
  session := ⟨rfl, by decide⟩
  held := by unfold SegbufHeld; decide
  reader := by unfold ReaderCounts; decide
  position := by show _ = _; decide
  record := by unfold RecordCursor; decide
  profile := by unfold ProfileCursor; decide
  icc := by unfold IccCounts; decide
  progress := by unfold IccProgress; decide

theorem inv_badChunk : State.Inv badChunk where
  busy := by unfold BusyMatches; decide
  quiet := by unfold RunningQuiet; decide
  err := by unfold ErrMatches; decide
  channels := by unfold ChannelsFit; decide
  memories := by unfold MemoriesCanonical; decide
  op := rfl
  session := ⟨rfl, by decide⟩
  held := by unfold SegbufHeld; decide
  reader := by unfold ReaderCounts; decide
  position := by show _ = _; decide
  record := by unfold RecordCursor; decide
  profile := by unfold ProfileCursor; decide
  icc := by unfold IccCounts; decide
  progress := by unfold IccProgress; decide

theorem inv_emitting : State.Inv emitting where
  busy := by unfold BusyMatches; decide
  quiet := by unfold RunningQuiet; decide
  err := by unfold ErrMatches; decide
  channels := by unfold ChannelsFit; decide
  memories := by unfold MemoriesCanonical; decide
  op := .inr rfl
  session := ⟨rfl, by decide⟩
  held := by unfold SegbufHeld; decide
  reader := by unfold ReaderCounts; decide
  position := by show _ = _; decide
  record := by unfold RecordCursor; decide
  profile := by unfold ProfileCursor; decide
  icc := by unfold IccCounts; decide
  progress := by unfold IccProgress; decide

theorem inv_emittingIcc : State.Inv emittingIcc where
  busy := by unfold BusyMatches; decide
  quiet := by unfold RunningQuiet; decide
  err := by unfold ErrMatches; decide
  channels := by unfold ChannelsFit; decide
  memories := by unfold MemoriesCanonical; decide
  op := rfl
  session := ⟨rfl, by decide⟩
  held := by unfold SegbufHeld; decide
  reader := by unfold ReaderCounts; decide
  position := trivial
  record := by unfold RecordCursor; decide
  profile := by unfold ProfileCursor; decide
  icc := by unfold IccCounts; decide
  progress := by unfold IccProgress; decide

/-! ### Witnesses: what the statements' hypotheses ask for -/

theorem witness_IllegalCommandWords :
    (0x00000101#32).extractLsb' 0 4 ≠ 0x3#4 ∧ (0x00000101#32).extractLsb' 8 8 ≠ 0x00#8 ∧ base.busy = false ∧
    { base with agenda := [.write 0x04 .word 0x00000101] }.agenda = .write 0x04#8 .word 0x00000101 :: [] := by decide

/-- A word that is not illegal, with the largest TARGET. -/
theorem witness_IllegalCommandWords_legal :
    ¬ ((0x0000FF03#32).extractLsb' 0 4 = 0x0#4 ∨ 0x6 ≤ ((0x0000FF03#32).extractLsb' 0 4).toNat ∨
      (0x0000FF03#32).extractLsb' 4 4 ≠ 0x0#4 ∨ (0x0000FF03#32).extractLsb' 16 16 ≠ 0x0000#16 ∨
      ((0x0000FF03#32).extractLsb' 0 4 ≠ 0x3#4 ∧ (0x0000FF03#32).extractLsb' 8 8 ≠ 0x00#8)) := by decide

theorem witness_DecodeEncodeRoundTrip :
    WellFormed (.getSegment 0xFF) = true ∧ WellFormed (.marker 0xFE) = true ∧ WellFormed (.iccChunk 255 255 [0xAA]) = true ∧
    WellFormed (.segmentRecord 0xE2 0xFFFFFFFF 1 [0xAA]) = true ∧ WellFormed (.iccProfileOut [[0xAA], []]) = true := by decide

theorem witness_DecodedIsWellFormedAndUnique : decode (.profile [1, 0] [0xAA]) = .instr (.iccProfileOut [[0xAA], []]) := by
  decide

theorem witness_ScannerReturnsMarkers : eoiIcc.agenda = [] ∧ eoiIcc.estate = .scanB1 ∧ eoiIcc.input = [.byte 0xD9] := by
  decide

/-- The code after the last restart marker is returned: it is `D8`. -/
theorem witness_ScannerReturnsMarkers_code :
    ∀ code : Byte, code = 0xD8 → code ≠ 0x00#8 ∧ code ≠ 0xFF#8 ∧ code ≠ 0xD9#8 ∧
      ¬ (0xD0 ≤ code.toNat ∧ code.toNat ≤ 0xD7) := by decide

theorem witness_RecordByteContent :
    [0x4A, 0x46].length = emitting.segSize.toNat ∧ ∀ k < 2, emitting.segbuf.read k = ([0x4A, 0x46] : List Byte)[k]? := by decide

theorem witness_ResetFromAnyState :
    { emitting with agenda := [.reset] }.agenda = [.reset] ∧
    { emitting with agenda := [.write 0x00 .word 0x00000003] }.agenda = .write 0x00#8 .word 0x00000003 :: [] ∧
    (0x00000003#32).getLsbD 0 = true := by decide

theorem witness_StepKeepsInvariant : emitting.Inv ∧ ∃ t, step emitting = .next t := ⟨inv_emitting, _, rfl⟩

theorem witness_StepKeepsMemoriesCanonical : MemoriesCanonical laterChunk ∧ ∃ t, step laterChunk = .next t :=
  ⟨inv_laterChunk.memories, _, rfl⟩

theorem witness_NoStepFaults : emittingIcc.NoFaultCond :=
  ⟨inv_emittingIcc.op, inv_emittingIcc.memories, inv_emittingIcc.held, inv_emittingIcc.reader, inv_emittingIcc.record,
    inv_emittingIcc.profile⟩

theorem witness_ParametersNeverChange : ∃ t, step emittingIcc = .next t := ⟨_, rfl⟩

theorem witness_StepRunsDecodedInstruction_command :
    ended.agenda = .write 0x04#8 .word 0x00000001 :: [] ∧ decode (.command 0x00000001) = .instr .openSession := by decide

theorem witness_StepRunsDecodedInstruction_startPair :
    let s := { base with busy := true, op := .readSoi, estate := .soi1, t0 := 0xFF, input := [.byte 0xD8] }
    s.agenda = [] ∧ s.input = [.byte 0xD8] ∧ s.estate = .soi1 ∧ decode (.startPair s.t0 0xD8) = .instr .soi := by decide

theorem witness_StepRunsDecodedInstruction_scanPair :
    eoiIcc.agenda = [] ∧ eoiIcc.input = [.byte 0xD9] ∧ eoiIcc.estate = .scanB1 ∧
    decode (.scanPair eoiIcc.b0 0xD9) = .instr .eoi := by decide

theorem witness_StepRunsDecodedInstruction_length :
    let s := { scanning .lenHi with input := [.byte 0x00] }
    let t := { scanning .lenLo with input := [.byte 0x02] }
    s.agenda = [] ∧ s.input = [.byte 0x00] ∧ s.estate = .lenHi ∧
    decode (.lengthHigh 0x00) = .instr (.segment (.lengthHigh 0x00)) ∧
    t.agenda = [] ∧ t.input = [.byte 0x02] ∧ t.estate = .lenLo ∧
    decode (.lengthLow (t.len.extractLsb' 8 8) 0x02) = .instr (.segment (.lengthLow 0x00 0x02)) := by decide

theorem witness_StepRunsDecodedInstruction_payload :
    let s := { scanning .body with remain := 1, input := [.byte 0xFF] }
    s.agenda = [] ∧ s.input = [.byte 0xFF] ∧ s.estate = .body ∧
    decode (.payload 0xFF) = .instr (.segment (.payload 0xFF)) := by decide

theorem witness_StepRunsDecodedInstruction_chunk :
    laterChunk.agenda = [] ∧ laterChunk.estate = .assemble ∧
    ∃ data, laterChunk.heldSegment = some data ∧ decode (.app2 data) = .instr (.iccChunk 2 2 [0xBB]) :=
  ⟨rfl, rfl, _, rfl, by decide⟩

theorem witness_StepRunsDecodedInstruction_record :
    emitting.agenda = [] ∧ emitting.estate = .emitSeg ∧ emitting.recordPayload = some [0x4A, 0x46] ∧
    decode (.record (encodeRecord emitting.segMarker emitting.segOffset emitting.segSize [0x4A, 0x46])) =
      .instr (.segmentRecord 0xE0 4 2 [0x4A, 0x46]) := by decide

theorem witness_StepRunsDecodedInstruction_profile :
    emittingIcc.agenda = [] ∧ emittingIcc.estate = .emitIcc ∧
    decode (.profile (emittingIcc.profileSlots.map List.length) emittingIcc.profileSlots.flatten) =
      .instr (.iccProfileOut [[0xAA], [0xBB, 0xCC]]) := by decide

/-- A channel with one place left and a full one; an empty channel and one with a byte. -/
theorem witness_TurnOrder :
    let three : List Item := [.byte 1, .byte 2, .byte 3]
    let four : List Item := [.byte 1, .byte 2, .byte 3, .byte 4]
    { base with input := three }.input.length < base.params.inDepth ∧
    base.params.inDepth ≤ { base with input := four }.input.length ∧ base.output = [] ∧
    { base with output := [0xAA] }.output = 0xAA :: [] ∧
    { base with agenda := [.engine] }.agenda = [.engine] ∧ { base with agenda := [.pop] }.agenda = [.pop] ∧
    { base with agenda := [.push .endOfStream] }.agenda = [.push .endOfStream] ∧
    { base with agenda := [.drainAll] }.agenda = [.drainAll] ∧ { base with agenda := [.waitDone] }.agenda = [.waitDone] ∧
    ended.busy = false ∧ ended.doneFlag = true ∧ base.doneFlag = false := by decide

theorem witness_TurnOrder_engine :
    (∃ t, step { emitting with agenda := [] } = .next t) ∧
    ∃ f, step { scanning .assemble with seglen := 1, agenda := [] } = .fault f := ⟨⟨_, rfl⟩, _, rfl⟩

theorem witness_RegisterAccesses :
    (0xFC#8).toNat % 4 = 0 ∧ { base with agenda := [.read 0xFC .word] }.agenda = .read 0xFC#8 .word :: [] ∧
    { base with agenda := [.write 0x0C .word 1] }.agenda = .write 0x0C#8 .word 1 :: [] ∧ 0x0C#8 ≠ 0x00#8 ∧
    0x0C#8 ≠ 0x04#8 ∧ 0x0C#8 ≠ 0x08#8 ∧ (0x28 ≤ (0x3C#8).toNat ∧ (0x3C#8).toNat ≤ 0x3C) ∧ 0x60 ≤ (0x60#8).toNat := by decide

theorem witness_StatusRegister :
    { ended with agenda := [.write 0x08 .word 0x00000002] }.agenda = .write 0x08#8 .word 0x00000002 :: [] := by decide

/-- The last bit of the last register is sequence number 255, and the first numbered bit is 1. -/
theorem witness_SlotValidRegisters :
    (7 < 8 ∧ 31 < 32 ∧ 1 ≤ 32 * 7 + 31) ∧ (0 < 8 ∧ 1 < 32 ∧ 1 ≤ 32 * 0 + 1) ∧
    { base with agenda := [.write 0x5C .word 1] }.agenda = .write (BitVec.ofNat 8 (0x40 + 4 * 7)) .word 1 :: [] := by decide

theorem witness_InterruptLine :
    { base with agenda := [.write 0x00 .word 0x00000002] }.agenda = .write 0x00#8 .word 0x00000002 :: [] ∧
    (0x00000002#32).getLsbD 0 = false := by decide

theorem witness_OpenStartsSession : ended.busy = false := rfl

theorem witness_CommandsAccepted : base.busy = false ∧ base.sstate = .start ∧ ready.busy = false ∧ ready.sstate = .ready := by
  decide

theorem witness_CommandsRejectedInWrongState :
    ready.busy = false ∧ ready.sstate ≠ .start ∧ base.busy = false ∧ base.sstate ≠ .ready := by decide

theorem witness_CommandWriteWhileBusy :
    let s := { scanning .scanB0 with agenda := [.write 0x04 .word 0x00000001] }
    s.busy = true ∧ s.agenda = .write 0x04#8 .word 0x00000001 :: [] := by decide

theorem witness_TerminalStatesAcceptOnlyOpen :
    ended.busy = false ∧ ended.sstate = .eoi ∧ ended.agenda = .write 0x04#8 .word 0x00000001 :: [] ∧
    decode (.command 0x00000001) = .instr .openSession := by decide

theorem witness_TerminalStatesAcceptOnlyOpen_other :
    let s := { base with sstate := .closed, agenda := [.write 0x04 .word 0x00000002] }
    s.busy = false ∧ s.sstate = .closed ∧ s.agenda = .write 0x04#8 .word 0x00000002 :: [] ∧
    decode (.command 0x00000002) = .instr .readSoi ∧ (Instr.readSoi ≠ .openSession) := by decide

theorem witness_OnlyOpenOrResetLeavesTerminalStates :
    ended.Inv ∧ ended.sstate = .eoi ∧ ∃ t, step ended = .next t ∧ t.sstate ≠ ended.sstate :=
  ⟨inv_ended, rfl, _, rfl, by decide⟩

theorem witness_RunningCommandStopsItself :
    eoiIcc.busy = true ∧ ∃ t, step eoiIcc = .next t ∧ t.busy = false := ⟨rfl, _, rfl, rfl⟩

theorem witness_HostTurnsLeaveTheEngine :
    let s := { scanning .scanB0 with input := [.byte 1], agenda := [.push (.byte 2)] }
    s.busy = true ∧ s.agenda = .push (.byte 2) :: [] ∧ s.input.length < s.params.inDepth ∧ ∃ t, step s = .next t :=
  ⟨rfl, rfl, by decide, _, rfl⟩

theorem witness_HostTurnsLeaveTheEngine_pop :
    let s := { emitting with output := [0xE0], agenda := [.pop] }
    s.busy = true ∧ s.agenda = .pop :: [] ∧ s.output ≠ [] ∧ ∃ t, step s = .next t := ⟨rfl, rfl, by decide, _, rfl⟩

theorem witness_CmdLastFollowsIdleWrites :
    (∃ t, step ended = .next t) ∧ ended.agenda = .write 0x04#8 .word 0x00000001 :: [] ∧ (∃ t, step emitting = .next t) ∧
    ∀ w rest, emitting.agenda ≠ .write 0x04#8 .word w :: rest :=
  ⟨⟨_, rfl⟩, rfl, ⟨_, rfl⟩, fun _ _ h => by cases h⟩

theorem witness_ReadByteItems :
    let s := scanning .scanB0
    s.agenda = [] ∧ s.estate.reads = true ∧ s.input = [] ∧
    { s with input := [.endOfStream] }.input = .endOfStream :: [] ∧ { s with input := [.fault 0xFF] }.input = .fault 0xFF :: [] ∧
    { s with input := [.byte 0xFF], pos := 0xFFFFFFFF }.input = .byte 0xFF :: [] ∧
    ∃ t, step { s with input := [.byte 0xFF], pos := 0xFFFFFFFF } = .next t :=
  ⟨rfl, rfl, rfl, rfl, rfl, rfl, _, rfl⟩

theorem witness_ScannerScansOn :
    let s := { scanning .scanB0 with input := [.byte 0xFF] }
    s.agenda = [] ∧ s.estate = .scanB0 ∧ s.input = .byte 0xFF :: [] := by decide

theorem witness_EoiEndsTheScan :
    (scanning .scanB1).op = .getCommonApp ∧ { scanning .scanB1 with op := .getSegment }.op = .getSegment ∧
    eoiIcc.op = .getIcc ∧ eoiIcc.Inv ∧ eoiIcc.estate = .scanB1 ∧ eoiIcc.iccActive = true :=
  ⟨rfl, rfl, rfl, inv_eoiIcc, rfl, rfl⟩

theorem witness_MarkerStartsReader :
    (scanning .scanB1).op = .getCommonApp ∧ { scanning .scanB1 with op := .getSegment }.op = .getSegment ∧
    eoiIcc.op = .getIcc := by decide

theorem witness_SoiCheck :
    let s := { base with busy := true, op := .readSoi, estate := .soi0, input := [.byte 0xFF] }
    let t := { base with busy := true, op := .readSoi, estate := .soi1, t0 := 0xFF, input := [.byte 0xD8] }
    let u := { base with busy := true, op := .readSoi, estate := .soi1, t0 := 0xFF, input := [.byte 0xD9] }
    (s.agenda = [] ∧ s.input = .byte 0xFF :: [] ∧ s.estate = .soi0) ∧
    (t.agenda = [] ∧ t.input = .byte 0xD8 :: [] ∧ t.estate = .soi1 ∧ t.t0 = 0xFF#8) ∧
    (u.agenda = [] ∧ u.input = .byte 0xD9 :: [] ∧ u.estate = .soi1 ∧ (0xD9#8 ≠ 0xD8#8)) := by decide

theorem witness_SoiPassed :
    { base with op := .readSoi }.op = .readSoi ∧ (assembling .soi1).op ≠ .readSoi := by decide

/-- `L` at 1, 2 and 3, where the clauses meet, and at its largest. -/
theorem witness_LengthField :
    (1#16).toNat = 256 * (0x00#8).toNat + (0x01#8).toNat ∧ (1#16).toNat < 2 ∧
    (2#16).toNat = 256 * (0x00#8).toNat + (0x02#8).toNat ∧ (2#16).toNat = 2 ∧
    (3#16).toNat = 256 * (0x00#8).toNat + (0x03#8).toNat ∧ 2 < (3#16).toNat ∧
    (0xFFFF#16).toNat = 256 * (0xFF#8).toNat + (0xFF#8).toNat ∧ 2 < (0xFFFF#16).toNat := by decide

/-- The last entry of SEGBUF, and the last byte of a payload. -/
theorem witness_PayloadByte :
    let s := { scanning .body with keep := true, seglen := 65532, remain := 1 }
    s.keep = true ∧ s.seglen.toNat < 65533 ∧ s.remain = 1#16 ∧ (scanning .body).keep = false := by decide

theorem witness_SegmentEnd :
    (scanning .body).keep = false ∧ { assembling .body with keep := true }.keep = true ∧
    { assembling .body with keep := true }.op = .getIcc ∧ { scanning .body with keep := true }.op ≠ .getIcc := by decide

theorem witness_SegmentReadRun :
    let s := { scanning .lenHi with keep := true, input := [.byte 0x00, .byte 0x03, .byte 0xAA, .byte 0xFF] }
    s.agenda = [] ∧ s.estate = .lenHi ∧ ([0xAA] : List Byte).length ≤ 65533 ∧
    256 * (0x00#8).toNat + (0x03#8).toNat = ([0xAA] : List Byte).length + 2 ∧
    s.input = ([0x00, 0x03, 0xAA] : List Byte).map Item.byte ++ [.byte 0xFF] := by decide

/-- A segment of no payload. -/
theorem witness_SegmentReadRun_empty :
    let s := { scanning .lenHi with input := [.byte 0x00, .byte 0x02] }
    s.agenda = [] ∧ s.estate = .lenHi ∧ 256 * (0x00#8).toNat + (0x02#8).toNat = ([] : List Byte).length + 2 ∧
    s.input = ([0x00, 0x02] : List Byte).map Item.byte ++ [] := by decide

/-- The last byte of a record, with the last place of the output channel left, and with none. -/
theorem witness_RecordByteStep :
    ([0x4A, 0x46] : List Byte).length = emitting.segSize.toNat ∧ emitting.eidx.toNat < 7 + emitting.segSize.toNat ∧
    emitting.eidx.toNat + 1 = 7 + emitting.segSize.toNat ∧
    { emitting with output := List.replicate 15 0 }.output.length < emitting.params.outDepth ∧
    emitting.params.outDepth ≤ { emitting with output := List.replicate 16 0 }.output.length := by decide

theorem witness_RecordRun :
    let s := { emitting with eidx := 0, output := [1, 2, 3, 4, 5, 6, 7] }
    s.agenda = [] ∧ s.estate = .emitSeg ∧ s.eidx = 0#24 ∧ s.recordPayload = some [0x4A, 0x46] ∧
    s.output.length + (7 + ([0x4A, 0x46] : List Byte).length) ≤ s.params.outDepth := by decide

theorem witness_IccChecksRunInOrder :
    laterChunk.Inv ∧ laterChunk.agenda = [] ∧ laterChunk.estate = .assemble ∧
    (iccSignature ++ [0x02, 0x02, 0xBB]).length = laterChunk.seglen.toNat ∧
    ∀ k < 15, laterChunk.segbuf.read k = (iccSignature ++ [0x02, 0x02, 0xBB])[k]? :=
  ⟨inv_laterChunk, rfl, rfl, by decide, by decide⟩

/-- 13 bytes of a right header. -/
theorem witness_IccChecksRunInOrder_short :
    let data : List Byte := [0x49, 0x43, 0x43, 0x5F, 0x50, 0x52, 0x4F, 0x46, 0x49, 0x4C, 0x45, 0x00, 0x01]
    shortChunk.Inv ∧ shortChunk.agenda = [] ∧ shortChunk.estate = .assemble ∧ data.length = shortChunk.seglen.toNat ∧
    (∀ k < 13, shortChunk.segbuf.read k = data[k]?) ∧ data.length < 14 :=
  ⟨inv_shortChunk, rfl, rfl, by decide, by decide, by decide⟩

/-- 14 bytes whose twelfth is wrong. -/
theorem witness_IccChecksRunInOrder_signature :
    let data : List Byte := [0x49, 0x43, 0x43, 0x5F, 0x50, 0x52, 0x4F, 0x46, 0x49, 0x4C, 0x45, 0x01, 0x01, 0x01]
    badChunk.Inv ∧ badChunk.agenda = [] ∧ badChunk.estate = .assemble ∧ data.length = badChunk.seglen.toNat ∧
    (∀ k < 14, badChunk.segbuf.read k = data[k]?) ∧ 14 ≤ data.length ∧
    data.take 12 ≠ [0x49, 0x43, 0x43, 0x5F, 0x50, 0x52, 0x4F, 0x46, 0x49, 0x4C, 0x45, 0x00] :=
  ⟨inv_badChunk, rfl, rfl, by decide, by decide, by decide, by decide⟩

/-- The chunk that completes a profile, with a slot memory that it fills, and its repeat. -/
theorem witness_ChunkStored :
    let s := { laterChunk with params := { laterChunk.params with iccMemBytes := 2 } }
    IccCounts s ∧ MemoriesCanonical s ∧ ([0xBB] : List Byte).length ≤ 65519 ∧ (0x02#8 ≠ 0#8) ∧
    (0x02#8).toNat ≤ (0x02#8).toNat ∧ (s.iccActive = true → 0x02#8 = s.iccTotal) ∧
    s.iccUsed.toNat - (if s.valid 2 then (s.slot 2).length else 0) + 1 ≤ s.params.iccMemBytes ∧
    s.valid 2 = false ∧ s.valid 1 = true := by
  refine ⟨by unfold IccCounts; decide, inv_laterChunk.memories, ?_⟩
  decide

/-- Every slot empty, and a first slot that is not. -/
theorem witness_EmissionStarts :
    (∀ k, 1 ≤ k → k ≤ base.iccTotal.toNat → base.slot k = []) ∧
    (1 ≤ 2 ∧ 2 ≤ emittingIcc.iccTotal.toNat ∧ { emittingIcc with slots := [(1, []), (2, [0xBB])] }.slot 2 ≠ [] ∧
      ∀ j < 2, 1 ≤ j → { emittingIcc with slots := [(1, []), (2, [0xBB])] }.slot j = []) :=
  ⟨fun _ _ _ => rfl, by decide⟩

theorem witness_CountZeroAlwaysFails :
    (firstChunk.Inv ∧ firstChunk.estate = .assemble ∧ firstChunk.iccActive = false) ∧
    (laterChunk.Inv ∧ laterChunk.estate = .assemble ∧ laterChunk.iccActive = true) ∧ 0x01#8 ≠ 0#8 :=
  ⟨⟨inv_firstChunk, rfl, rfl⟩, ⟨inv_laterChunk, rfl, rfl⟩, by decide⟩

/-- The last byte of a slot and the first byte of the next. -/
theorem witness_ProfileByteStep :
    let slots : List (List Byte) := [[0xAA], [0xBB, 0xCC]]
    slots.length ≤ 255 ∧ (∀ q ∈ slots, q.length ≤ 65519) ∧ 1 ≤ emittingIcc.eslot.toNat ∧
    slots[emittingIcc.eslot.toNat - 1]? = some [0xAA] ∧ emittingIcc.eidx.toNat < 1 ∧
    emittingIcc.output.length < emittingIcc.params.outDepth ∧
    emittingIcc.params.outDepth ≤ { emittingIcc with output := List.replicate 16 0 }.output.length ∧
    profileRest slots 1 1 ≠ [] ∧ profileRest slots 2 2 = [] ∧ 0 + 1 < ([0xBB, 0xCC] : List Byte).length := by decide

theorem witness_ProfileRun :
    emittingIcc.Inv ∧ emittingIcc.agenda = [] ∧ emittingIcc.estate = .emitIcc ∧
    emittingIcc.output.length + (profileRest emittingIcc.profileSlots 1 0).length ≤ emittingIcc.params.outDepth :=
  ⟨inv_emittingIcc, rfl, rfl, by decide⟩

theorem witness_CompleteProfile : emittingIcc.Inv ∧ emittingIcc.iccFilled = emittingIcc.iccTotal := ⟨inv_emittingIcc, rfl⟩

theorem witness_EngineHoldsExactly : emitting.Inv ∧ emitting.agenda = [] := ⟨inv_emitting, rfl⟩

theorem witness_EngineTransitions :
    (∃ t, step emitting = .next t) ∧ emitting.agenda = [] ∧
    let s := { base with agenda := [.write 0x04 .word 0x00000005] }
    s.estate = .idle ∧ ∃ t, step s = .next t ∧ t.estate ≠ .idle := ⟨⟨_, rfl⟩, rfl, rfl, _, rfl, by decide⟩

theorem witness_EngineMovesOneUnit : eoiIcc.agenda = [] ∧ ∃ t, step eoiIcc = .next t := ⟨rfl, _, rfl⟩

theorem witness_CommandOutcomes :
    eoiIcc.Inv ∧ eoiIcc.agenda = [] ∧ eoiIcc.busy = true ∧ ∃ t, step eoiIcc = .next t ∧ t.busy = false :=
  ⟨inv_eoiIcc, rfl, rfl, _, rfl, rfl⟩

theorem witness_ErrorsPushNothing :
    ∃ t, step shortChunk = .next t ∧ t.result.code = .error ∧ shortChunk.result.code ≠ .error :=
  ⟨_, rfl, rfl, by decide⟩

/-- GET_COMMON_APP accepted with a byte of an earlier command still in the channel. -/
theorem witness_ErrorsPushNothing_accepted :
    let s := { ready with output := [0x77], agenda := [.write 0x04 .word 0x00000004] }
    s.busy = false ∧ s.agenda = .write 0x04#8 .word 0x00000004 :: [] ∧ ∃ t, step s = .next t ∧ t.busy = true :=
  ⟨rfl, rfl, _, rfl, rfl⟩

/-- The record of rule R291 before its last byte, after a first record: what has been pushed is the one whole record and the
eight bytes. -/
theorem witness_ErrorsPushNothing_running :
    let first : List Byte := [0xE1, 0x00, 0x00, 0x00, 0x00, 0x00, 0x00]
    let s := { emitting with
      segCount := 1, eidx := 8, output := first ++ [0xE0, 0x00, 0x00, 0x00, 0x04, 0x00, 0x02, 0x4A] }
    s.Inv ∧ s.busy = true ∧ CommandPushed [] s ∧ ∃ t, step s = .next t ∧ t.busy = true := by
  refine ⟨⟨inv_emitting.1, inv_emitting.2, inv_emitting.3, by unfold ChannelsFit; decide, inv_emitting.5, inv_emitting.6,
    inv_emitting.7, inv_emitting.8, inv_emitting.9, inv_emitting.10, by unfold RecordCursor; decide, inv_emitting.12,
    inv_emitting.13, inv_emitting.14⟩, rfl, fun _ => ?_, _, rfl, rfl⟩
  exact ⟨[0xE1, 0x00, 0x00, 0x00, 0x00, 0x00, 0x00], [0xE0, 0x00, 0x00, 0x00, 0x04, 0x00, 0x02, 0x4A],
    [.segmentRecord 0xE1 0 0 []], rfl, by decide, rfl, fun h => absurd rfl h, fun h => absurd rfl h,
    fun _ => ⟨[0x4A, 0x46], rfl, by decide⟩⟩

/-- GET_COMMON_APP that fails with one record pushed: the host has the record and keeps none of it. -/
theorem witness_ErrorsPushNothing_failed :
    let first : List Byte := [0xE1, 0x00, 0x00, 0x00, 0x00, 0x00, 0x00]
    let s := { scanning .scanB0 with segCount := 1, output := first, input := [.endOfStream] }
    CommandPushed [] s ∧ ∃ t, step s = .next t ∧ t.busy = false ∧ t.result.code = .error :=
  ⟨fun _ => ⟨[0xE1, 0x00, 0x00, 0x00, 0x00, 0x00, 0x00], [], [.segmentRecord 0xE1 0 0 []], rfl, by decide, rfl,
    fun h => absurd rfl h, fun _ => rfl, fun h => by cases h⟩, _, rfl, rfl, rfl⟩

/-- The same command, and one that ended with LIST_DONE, about to be settled with a byte popped and a byte still there. -/
theorem witness_ErrorsPushNothing_settle :
    let s (code : ResultCode) : State := { base with
      doneFlag := true, result := { code := code, err := .none, ioCause := .none, ioCode := 0 }
      output := [0x02], agenda := hostSettle ++ [], seen := [.byte 0x77] ++ .issued 0x00000004 :: [.byte 0x01] }
    (s .error).result.code ≠ .none ∧ (s .listDone).result.code ≠ .none ∧
    (∀ v, Seen.issued v ∉ [Seen.byte 0x01]) ∧ (s .listDone).commandOutput = [0x01, 0x02] ∧
    hostKeeps [.byte 0x77] = [] := ⟨by decide, by decide, by simp, by decide, by decide⟩

theorem witness_InternalMemoryFrames :
    (∃ t, exec .stuff (scanning .scanB1) = .next t) ∧
    (∃ t, exec (.segment (.payload 0xFF)) { scanning .body with keep := true, remain := 2 } = .next t) ∧
    ∃ t, exec (.iccChunk 2 2 [0xBB]) laterChunk = .next t := ⟨⟨_, rfl⟩, ⟨_, rfl⟩, _, rfl⟩

theorem witness_FaultsByName :
    base.op = .none ∧
    ({ scanning .body with keep := true, seglen := 65533 }.keep = true ∧
      65533 ≤ { scanning .body with keep := true, seglen := 65533 }.seglen.toNat) ∧
    (([] : List Byte).length = (0#16).toNat ∧ 7 + (0#16).toNat ≤ { scanning .emitSeg with eidx := 7 }.eidx.toNat) ∧
    base.eslot = 0#9 ∧ ([] : List (List Byte)).length < emittingIcc.eslot.toNat ∧
    ({ assembling .assemble with seglen := 1 }.agenda = [] ∧ { assembling .assemble with seglen := 1 }.estate = .assemble ∧
      { assembling .assemble with seglen := 1 }.heldSegment = none) ∧
    ({ scanning .emitSeg with segSize := 1 }.agenda = [] ∧ { scanning .emitSeg with segSize := 1 }.estate = .emitSeg ∧
      { scanning .emitSeg with segSize := 1 }.recordPayload = none) := by decide

end Sys2Proof.Tests
end

section
/-! SUPPORT. What a step leaves alone, by who gives an instruction its turn (a command of the host's, a structure the engine
reads off the wire, a structure it emits); that the engine's turn does not depend on the turns to come; and the statements on
steps and turns that follow. -/

namespace Sys2Proof

/-- Who gives an instruction its turn, and in which direction its bytes go (rule R2). -/
inductive Role where
  /-- The host issues it through CMD. -/
  | command
  /-- The engine decodes it on what it has read. -/
  | wire
  /-- The engine pushes it into the output channel. -/
  | emission

/-- The part an instruction plays (rules R2, R151, R158, R160, R164). -/
def Instr.role : Instr → Role
  | .openSession | .readSoi | .getSegment _ | .getCommonApp | .getIcc => .command
  | .desync _ _ | .stuff | .fill | .eoi | .rst _ | .marker _ | .soi | .segment _ | .iccChunk _ _ _ => .wire
  | .segmentRecord _ _ _ _ | .iccProfileOut _ => .emission

theorem decodeNoTarget_instr {target : Byte} {i j : Instr} (h : decodeNoTarget target i = .instr j) : j = i := by
  unfold decodeNoTarget at h
  split at h <;> cases h
  rfl

theorem decodeCommand_role {w : Word} {i : Instr} (h : decodeCommand w = .instr i) : i.role = .command := by
  unfold decodeCommand at h
  split_ifs at h
  · obtain rfl := decodeNoTarget_instr h; rfl
  · obtain rfl := decodeNoTarget_instr h; rfl
  · cases h; rfl
  · obtain rfl := decodeNoTarget_instr h; rfl
  · obtain rfl := decodeNoTarget_instr h; rfl

theorem decodePair_role (b0 b1 : Byte) : (decodePair b0 b1).role = .wire := by
  obtain ⟨-, h⟩ | ⟨-, -, h⟩ | ⟨-, -, h⟩ | ⟨-, -, h⟩ | ⟨-, -, h⟩ | ⟨-, -, h⟩ := Machine.decodePair_cases b0 b1 <;>
    rw [h] <;> rfl

theorem decodeSoi_role {b0 b1 : Byte} {i : Instr} (h : decodeSoi b0 b1 = .instr i) : i.role = .wire := by
  unfold decodeSoi at h
  split at h <;> cases h
  rfl

theorem decodeChunk_role {data : List Byte} {i : Instr} (h : decodeChunk data = .instr i) : i.role = .wire := by
  obtain ⟨_, _, _, rfl, -⟩ := Machine.decodeChunk_instr h
  rfl

end Sys2Proof

namespace Sys2Proof.Machine

/-! ### What the engine leaves alone -/

/-- The running command has ended: DONE is set, there is a result, and the engine is IDLE (rules R282, R336). -/
def CommandEnded (t : State) : Prop := t.doneFlag = true ∧ t.result.code ≠ .none ∧ t.estate = .idle

/-- The engine's work once it has read its byte or pushed it: nothing outside the engine changes, the channels and POS among
it, and BUSY falls only with the command's end (rules R18, R20). -/
structure EngineWork (s t : State) : Prop where
  params : t.params = s.params := by rfl
  irqEn : t.irqEn = s.irqEn := by rfl
  cmdLast : t.cmdLast = s.cmdLast := by rfl
  cmdOverrun : t.cmdOverrun = s.cmdOverrun := by rfl
  op : t.op = s.op := by rfl
  tgt : t.tgt = s.tgt := by rfl
  pos : t.pos = s.pos := by rfl
  input : t.input = s.input := by rfl
  output : t.output = s.output := by rfl
  agenda : t.agenda = s.agenda := by rfl
  seen : t.seen = s.seen := by rfl
  busy : t.busy = s.busy ∨ CommandEnded t := by exact .inl rfl

/-- A hold is work that changes nothing (rule R355). -/
theorem EngineWork.refl (s : State) : EngineWork s s := {}

theorem EngineWork.raise (s : State) (err : ErrCode) (ioCause : IoCause) (ioCode : Byte) :
    EngineWork s (s.raise err ioCause ioCode) := { busy := .inr ⟨rfl, nofun, rfl⟩ }

theorem EngineWork.raiseFormat (s : State) (err : ErrCode) : EngineWork s (s.raiseFormat err) := .raise s err .none 0

theorem EngineWork.finish (s : State) {code : ResultCode} (session : SState) (h : code ≠ .none) :
    EngineWork s (s.finish code session) := { busy := .inr ⟨rfl, h, rfl⟩ }

theorem EngineWork.onSegmentEnd (s : State) : EngineWork s s.onSegmentEnd := by
  unfold State.onSegmentEnd
  split_ifs
  · exact {}
  · exact {}
  · exact {}

theorem EngineWork.soiPassed (s : State) : EngineWork s s.soiPassed := by
  unfold State.soiPassed
  dsimp only
  split_ifs
  · exact { EngineWork.finish { s with sstate := .ready } .ready (code := .ok) nofun with }
  · exact {}

theorem EngineWork.lengthLow (s : State) (hi lo : Byte) : EngineWork s (s.lengthLow hi lo) := by
  unfold State.lengthLow
  dsimp only
  split_ifs
  · exact { EngineWork.raiseFormat { s with len := be16 hi lo } .invalidSegmentLength with }
  · exact { EngineWork.onSegmentEnd _ with }
  · exact {}

theorem EngineWork.bodyCount (s : State) : EngineWork s s.bodyCount := by
  unfold State.bodyCount
  dsimp only
  split_ifs
  · exact { EngineWork.onSegmentEnd _ with }
  · exact {}

theorem EngineWork.of_bodyByte {s t : State} {v : Byte} (h : s.bodyByte v = .next t) : EngineWork s t := by
  unfold State.bodyByte at h
  split_ifs at h <;> cases h
  · exact .bodyCount s
  · exact { EngineWork.bodyCount _ with }

theorem EngineWork.of_onEoi {s t : State} (h : s.onEoi = .next t) : EngineWork s t := by
  unfold State.onEoi at h
  split at h <;> cases h
  · exact .finish s .eoi nofun
  · exact .finish s .eoi nofun
  · split_ifs
    · exact .finish s .eoi nofun
    · exact .finish s .eoi nofun

theorem EngineWork.of_onMarker {s t : State} {code : Byte} (h : s.onMarker code = .next t) : EngineWork s t := by
  unfold State.onMarker at h
  split at h <;> cases h
  · exact {}
  · exact {}
  · exact {}

theorem EngineWork.emitFrom (s : State) (slots : List (List Byte)) (eslot eidx : Nat) :
    EngineWork s (s.emitFrom slots eslot eidx) := by
  unfold State.emitFrom
  dsimp only
  split_ifs
  · exact { EngineWork.finish _ .closed (code := .iccPresent) nofun with }
  · exact {}

theorem EngineWork.chunkStored (s : State) : EngineWork s s.chunkStored := by
  unfold State.chunkStored
  split_ifs
  · exact .emitFrom s _ _ _
  · exact {}

theorem EngineWork.chunkCounted (s : State) (seq : Byte) (payload : List Byte) :
    EngineWork s (s.chunkCounted seq payload) := by
  unfold State.chunkCounted
  split_ifs
  · exact .raiseFormat s _
  · exact .raiseFormat s _
  · rw [State.storeChunk_eq]
    exact { EngineWork.chunkStored _ with }

theorem EngineWork.assemble (s : State) (seq cnt : Byte) (payload : List Byte) :
    EngineWork s (s.assemble seq cnt payload) := by
  unfold State.assemble
  split_ifs
  · exact .raiseFormat s _
  · exact { EngineWork.chunkCounted _ seq payload with }
  · exact .raiseFormat s _
  · exact .chunkCounted s seq payload

theorem EngineWork.recordStep (s : State) (size : Half) : EngineWork s (s.recordStep size) := by
  unfold State.recordStep
  dsimp only
  split_ifs
  · exact { EngineWork.finish _ .ready (code := .segment) nofun with }
  · exact {}
  · exact {}

/-- What an engine step can be (rules R20, R112): its work alone, its work on an item it has read, or its work on a byte it
has pushed. A hold is work that changes nothing. -/
inductive EngineMove (s t : State) : Prop where
  | work (h : EngineWork s t)
  | read (item : Item) (items : List Item) (pos : Word) (hi : s.input = item :: items)
      (h : EngineWork { s with input := items, pos := pos } t)
  | push (b : Byte) (h : EngineWork { s with output := s.output ++ [b] } t)

theorem EngineMove.params {s t : State} : EngineMove s t → t.params = s.params
  | .work h => h.params
  | .read _ _ _ _ h => h.params
  | .push _ h => h.params

/-- An engine step drops BUSY only with the command's end (rule R18). -/
theorem EngineMove.busy {s t : State} : EngineMove s t → t.busy = s.busy ∨ CommandEnded t
  | .work h => h.busy
  | .read _ _ _ _ h => h.busy
  | .push _ h => h.busy

/-! ### What an instruction leaves alone -/

/-- A structure read off the wire pushes nothing and reads no more. -/
theorem EngineWork.of_exec {i : Instr} {s t : State} (hi : i.role = .wire) (h : exec i s = .next t) :
    EngineWork s t := by
  cases i with
  | openSession | readSoi | getSegment | getCommonApp | getIcc | segmentRecord | iccProfileOut => cases hi
  | desync | stuff | fill | rst => cases h; exact {}
  | eoi => exact .of_onEoi h
  | marker code => exact { EngineWork.of_onMarker h with }
  | soi => cases h; exact .soiPassed s
  | iccChunk seq cnt payload => cases h; exact .assemble s seq cnt payload
  | segment part =>
    cases part with
    | lengthHigh => cases h; exact {}
    | lengthLow b1 b0 => cases h; exact .lengthLow s b1 b0
    | payload v => exact .of_bodyByte h

/-- A push that has room is followed by the engine's work, and without room it is a hold. -/
theorem EngineMove.of_outPush {s t : State} {b : Byte} {rest : State → State} (hrest : ∀ u, EngineWork u (rest u))
    (h : s.outPush b rest = .next t) : EngineMove s t := by
  obtain ⟨-, hp⟩ | ⟨-, hp⟩ := s.outPush_cases b rest <;> rw [hp] at h <;> cases h
  · exact .push b (hrest _)
  · exact .work (.refl s)

theorem exec_segmentRecord_some {s : State} {marker : Byte} {offset : Word} {size : Half} {payload : List Byte} {b : Byte}
    (h : recordByte marker offset size payload s.eidx.toNat = some b) :
    exec (.segmentRecord marker offset size payload) s = s.outPush b fun u => u.recordStep size := by
  simp only [exec, execSegmentRecord, h]

theorem exec_segmentRecord_none {s : State} {marker : Byte} {offset : Word} {size : Half} {payload : List Byte}
    (h : recordByte marker offset size payload s.eidx.toNat = none) :
    exec (.segmentRecord marker offset size payload) s = .fault .emissionCursor := by
  simp only [exec, execSegmentRecord, h]

theorem exec_iccProfileOut_some {s : State} {slots : List (List Byte)} {b : Byte}
    (h : profileByte slots s.eslot.toNat s.eidx.toNat = some b) :
    exec (.iccProfileOut slots) s = s.outPush b fun u => u.emitFrom slots s.eslot.toNat (s.eidx.toNat + 1) := by
  simp only [exec, execIccProfileOut, h]

theorem exec_iccProfileOut_none {s : State} {slots : List (List Byte)}
    (h : profileByte slots s.eslot.toNat s.eidx.toNat = none) :
    exec (.iccProfileOut slots) s = .fault .emissionCursor := by
  simp only [exec, execIccProfileOut, h]

/-- A structure that is emitted pushes one byte, or holds. -/
theorem EngineMove.of_exec {i : Instr} {s t : State} (hi : i.role = .emission) (h : exec i s = .next t) :
    EngineMove s t := by
  cases i with
  | segmentRecord marker offset size payload =>
    cases hb : recordByte marker offset size payload s.eidx.toNat with
    | none => rw [exec_segmentRecord_none hb] at h; cases h
    | some b => rw [exec_segmentRecord_some hb] at h; exact .of_outPush (fun u => .recordStep u size) h
  | iccProfileOut slots =>
    cases hb : profileByte slots s.eslot.toNat s.eidx.toNat with
    | none => rw [exec_iccProfileOut_none hb] at h; cases h
    | some b => rw [exec_iccProfileOut_some hb] at h; exact .of_outPush (fun u => .emitFrom u slots _ _) h
  | _ => cases hi

/-- A command is issued with its own word; what it does when it is accepted changes no build parameter. -/
theorem exec_command_issue {i : Instr} (hi : i.role = .command) :
    ∃ (legal : SState → Option ErrCode) (effect : State → State),
      (∀ s, exec i s = s.issue (commandWordOf i) legal effect) ∧ ∀ s, (effect s).params = s.params := by
  cases i with
  | openSession =>
    exact ⟨legalAlways, fun s => (s.accept .openSession 0).openStream, fun _ => rfl, fun _ => rfl⟩
  | readSoi =>
    exact ⟨legalInStart, fun s => (s.accept .readSoi 0).begin .soi0, fun _ => rfl, fun _ => rfl⟩
  | getSegment target =>
    exact ⟨legalInReady, fun s => (s.accept .getSegment target).begin .scanB0, fun _ => rfl, fun _ => rfl⟩
  | getCommonApp =>
    exact ⟨legalInReady, fun s => (s.accept .getCommonApp 0).begin .scanB0, fun _ => rfl, fun _ => rfl⟩
  | getIcc =>
    exact ⟨legalInStart, fun s => (s.accept .getIcc 0).clearIcc.begin .soi0, fun _ => rfl, fun _ => rfl⟩
  | _ => cases hi

theorem State.issue_params {s t : State} {w : Word} {legal : SState → Option ErrCode} {effect : State → State}
    (he : ∀ u, (effect u).params = u.params) (h : s.issue w legal effect = .next t) : t.params = s.params := by
  obtain ⟨-, hi⟩ | ⟨_, -, -, hi⟩ | ⟨-, -, hi⟩ := s.issue_cases w legal effect <;> rw [hi] at h <;> cases h
  · rfl
  · rfl
  · exact he _

/-- A command written while another runs leaves it running (rule R333). -/
theorem State.issue_next_busy {s t : State} {w : Word} {legal : SState → Option ErrCode} {effect : State → State}
    (hb : s.busy = true) (h : s.issue w legal effect = .next t) : t.busy = true := by
  rw [State.issue_busy w legal effect hb] at h
  cases h
  exact hb

/-! ### The engine's turn -/

/-- A state that reads does its work on the byte once it has read it (rules R13, R31). -/
theorem engineTurn_reads {s : State} (h : s.estate.reads = true) :
    ∃ k : Byte → State → Fetched, s.engineTurn = s.readByte k ∧
      ∀ v u t, (k v u).outcome = .next t → EngineWork u t := by
  cases he : s.estate with
  | idle | assemble | emitSeg | emitIcc => rw [he] at h; cases h
  | soi0 =>
    refine ⟨_, engineTurn_soi0 he, fun v u t h => ?_⟩
    cases h; exact {}
  | soi1 =>
    refine ⟨_, engineTurn_soi1 he, fun v u t h => ?_⟩
    unfold State.fetchSoi at h
    split at h
    · exact .of_exec (decodeSoi_role ‹_›) h
    · cases h; exact .raiseFormat u _
  | scanB0 =>
    refine ⟨_, engineTurn_scanB0 he, fun v u t h => ?_⟩
    cases h; exact {}
  | scanB1 =>
    refine ⟨_, engineTurn_scanB1 he, fun v u t h => ?_⟩
    exact { EngineWork.of_exec (decodePair_role u.b0 v) h with }
  | lenHi => exact ⟨_, engineTurn_lenHi he, fun v _ _ h => .of_exec (i := .segment (.lengthHigh v)) rfl h⟩
  | lenLo => exact ⟨_, engineTurn_lenLo he, fun v _ _ h => .of_exec (i := .segment (.lengthLow _ v)) rfl h⟩
  | body => exact ⟨_, engineTurn_body he, fun v _ _ h => .of_exec (i := .segment (.payload v)) rfl h⟩

/-- ASSEMBLE neither reads nor pushes (rule R250). -/
theorem EngineWork.of_fetchChunk {s t : State} (h : s.fetchChunk.outcome = .next t) : EngineWork s t := by
  unfold State.fetchChunk at h
  split at h
  · cases h
  · split at h
    · exact .of_exec (decodeChunk_role ‹_›) h
    · cases h; exact .raiseFormat s _

theorem EngineMove.of_fetchRecord {s t : State} (h : s.fetchRecord.outcome = .next t) : EngineMove s t := by
  unfold State.fetchRecord at h
  split at h
  · cases h
  · exact .of_exec (i := .segmentRecord _ _ _ _) rfl h

/-- The engine's turn is one engine step or a hold (rules R20, R31). -/
theorem EngineMove.of_engineTurn {s t : State} (h : s.engineTurn.outcome = .next t) : EngineMove s t := by
  by_cases hr : s.estate.reads = true
  · obtain ⟨k, hk, hwork⟩ := engineTurn_reads hr
    rw [hk] at h
    obtain ⟨-, hb⟩ | ⟨v, items, hi, hb⟩ | ⟨items, hi, hb⟩ | ⟨c, items, hi, hb⟩ := s.readByte_cases k <;> rw [hb] at h
    · cases h; exact .work (.refl s)
    · exact .read _ _ _ hi (hwork _ _ _ h)
    · cases h; exact .read _ _ s.pos hi (.raise _ _ _ _)
    · cases h; exact .read _ _ s.pos hi (.raise _ _ _ _)
  · cases he : s.estate with
    | soi0 | soi1 | scanB0 | scanB1 | lenHi | lenLo | body => rw [he] at hr; exact absurd rfl hr
    | idle => rw [engineTurn_idle he] at h; cases h; exact .work (.refl s)
    | assemble => rw [engineTurn_assemble he] at h; exact .work (.of_fetchChunk h)
    | emitSeg => rw [engineTurn_emitSeg he] at h; exact .of_fetchRecord h
    | emitIcc => rw [engineTurn_emitIcc he] at h; exact .of_exec (i := .iccProfileOut _) rfl h

/-! ### Register writes -/

/-- A write to a register other than CMD is CTRL's, STATUS's or nothing (rules R35, R36, R47). -/
theorem State.writeReg_cases (s : State) (offset : BitVec 8) (w : Word) :
    (offset = 0x00#8 ∧ s.writeReg offset w = s.writeCtrl w) ∨
    (offset = 0x08#8 ∧ s.writeReg offset w = s.writeStatus w) ∨
    s.writeReg offset w = s := by
  unfold State.writeReg
  split
  · exact .inl ⟨BitVec.eq_of_toNat_eq ‹_›, rfl⟩
  · exact .inr (.inl ⟨BitVec.eq_of_toNat_eq ‹_›, rfl⟩)
  · exact .inr (.inr rfl)

/-- A CTRL write resets the block or sets IRQ_EN (rules R36, R371). -/
theorem State.writeCtrl_cases (s : State) (w : Word) :
    (w.getLsbD 0 = true ∧ s.writeCtrl w = s.hardReset) ∨
    (w.getLsbD 0 = false ∧ s.writeCtrl w = { s with irqEn := w.getLsbD 1 }) := by
  unfold State.writeCtrl
  cases w.getLsbD 0 <;> simp

theorem State.writeReg_params (s : State) (offset : BitVec 8) (w : Word) : (s.writeReg offset w).params = s.params := by
  obtain ⟨-, h⟩ | ⟨-, h⟩ | h := s.writeReg_cases offset w <;> rw [h]
  · obtain ⟨-, h⟩ | ⟨-, h⟩ := s.writeCtrl_cases w <;> rw [h]
    rfl
  · rfl

/-- A register write drops BUSY only as CTRL's soft reset (rules R36, R37). -/
theorem State.writeReg_busy (s : State) (offset : BitVec 8) (w : Word) :
    (s.writeReg offset w).busy = s.busy ∨ (offset = 0x00#8 ∧ w.getLsbD 0 = true) := by
  obtain ⟨ho, h⟩ | ⟨-, h⟩ | h := s.writeReg_cases offset w <;> rw [h]
  · obtain ⟨hw, -⟩ | ⟨-, h⟩ := s.writeCtrl_cases w
    · exact .inr ⟨ho, hw⟩
    · rw [h]; exact .inl rfl
  · exact .inl rfl
  · exact .inl rfl

theorem State.noteIssue_params (s : State) (w : Word) : (s.noteIssue w).params = s.params := by
  rw [State.noteIssue_eq]

/-! ### The agenda is not the engine's -/

/-- The state with another list of turns to come. -/
def State.withAgenda (s : State) (a : List Move) : State := { s with agenda := a }

/-- The outcome with another list of turns to come. -/
def outcomeWithAgenda (a : List Move) : Outcome → Outcome
  | .next t => .next (t.withAgenda a)
  | .fault f => .fault f
  | .refused r => .refused r

@[simp] theorem outcomeWithAgenda_next (a : List Move) (t : State) :
    outcomeWithAgenda a (.next t) = .next (t.withAgenda a) := rfl

section

variable (s : State) (a : List Move)

theorem State.onSegmentEnd_withAgenda : (s.withAgenda a).onSegmentEnd = s.onSegmentEnd.withAgenda a := by
  simp only [State.onSegmentEnd, apply_ite (State.withAgenda · a)]
  rfl

theorem State.soiPassed_withAgenda : (s.withAgenda a).soiPassed = s.soiPassed.withAgenda a := by
  simp only [State.soiPassed, apply_ite (State.withAgenda · a)]
  rfl

theorem State.bodyCount_withAgenda : (s.withAgenda a).bodyCount = s.bodyCount.withAgenda a := by
  simp only [State.bodyCount, apply_ite (State.withAgenda · a), ← State.onSegmentEnd_withAgenda]
  rfl

theorem State.lengthLow_withAgenda (hi lo : Byte) :
    (s.withAgenda a).lengthLow hi lo = (s.lengthLow hi lo).withAgenda a := by
  simp only [State.lengthLow, apply_ite (State.withAgenda · a), ← State.onSegmentEnd_withAgenda]
  rfl

theorem State.bodyByte_withAgenda (v : Byte) :
    (s.withAgenda a).bodyByte v = outcomeWithAgenda a (s.bodyByte v) := by
  simp only [State.bodyByte, apply_ite (outcomeWithAgenda a), outcomeWithAgenda_next, ← State.bodyCount_withAgenda]
  rfl

theorem State.onEoi_withAgenda : (s.withAgenda a).onEoi = outcomeWithAgenda a s.onEoi := by
  cases h : s.op with
  | getSegment => rw [State.onEoi_getSegment h, State.onEoi_getSegment (s := s.withAgenda a) h]; rfl
  | getCommonApp => rw [State.onEoi_getCommonApp h, State.onEoi_getCommonApp (s := s.withAgenda a) h]; rfl
  | getIcc =>
    rw [State.onEoi_getIcc h, State.onEoi_getIcc (s := s.withAgenda a) h]
    simp only [outcomeWithAgenda_next, apply_ite (State.withAgenda · a)]
    rfl
  | none | openSession | readSoi => simp only [State.onEoi, State.withAgenda, h]; rfl

theorem State.onMarker_withAgenda (code : Byte) :
    (s.withAgenda a).onMarker code = outcomeWithAgenda a (s.onMarker code) := by
  unfold State.onMarker State.withAgenda
  dsimp only
  split <;> rfl

theorem State.emitFrom_withAgenda (slots : List (List Byte)) (eslot eidx : Nat) :
    (s.withAgenda a).emitFrom slots eslot eidx = (s.emitFrom slots eslot eidx).withAgenda a := by
  simp only [State.emitFrom, apply_ite (State.withAgenda · a)]
  rfl

theorem State.chunkStored_withAgenda : (s.withAgenda a).chunkStored = s.chunkStored.withAgenda a := by
  simp only [State.chunkStored, State.startEmit, apply_ite (State.withAgenda · a), ← State.emitFrom_withAgenda]
  rfl

theorem State.storeChunk_withAgenda (seq : Byte) (payload : List Byte) :
    (s.withAgenda a).storeChunk seq payload = (s.storeChunk seq payload).withAgenda a := by
  simp only [State.storeChunk_eq]
  rfl

theorem State.chunkCounted_withAgenda (seq : Byte) (payload : List Byte) :
    (s.withAgenda a).chunkCounted seq payload = (s.chunkCounted seq payload).withAgenda a := by
  simp only [State.chunkCounted, apply_ite (State.withAgenda · a), ← State.chunkStored_withAgenda,
    ← State.storeChunk_withAgenda]
  rfl

theorem State.assemble_withAgenda (seq cnt : Byte) (payload : List Byte) :
    (s.withAgenda a).assemble seq cnt payload = (s.assemble seq cnt payload).withAgenda a := by
  simp only [State.assemble, apply_ite (State.withAgenda · a), ← State.chunkCounted_withAgenda]
  rfl

theorem State.recordStep_withAgenda (size : Half) :
    (s.withAgenda a).recordStep size = (s.recordStep size).withAgenda a := by
  simp only [State.recordStep, apply_ite (State.withAgenda · a)]
  rfl

theorem State.outPush_withAgenda (b : Byte) {rest : State → State}
    (hrest : ∀ u : State, rest (u.withAgenda a) = (rest u).withAgenda a) :
    (s.withAgenda a).outPush b rest = outcomeWithAgenda a (s.outPush b rest) := by
  simp only [State.outPush, apply_ite (outcomeWithAgenda a), outcomeWithAgenda_next, ← hrest]
  rfl

/-- What the engine runs does not depend on the turns to come. -/
theorem exec_withAgenda {i : Instr} (hi : i.role ≠ .command) :
    exec i (s.withAgenda a) = outcomeWithAgenda a (exec i s) := by
  cases i with
  | openSession | readSoi | getSegment | getCommonApp | getIcc => exact absurd rfl hi
  | desync | stuff | fill | rst => rfl
  | eoi => exact s.onEoi_withAgenda a
  | marker code => exact State.onMarker_withAgenda { s with mkCode := code, moff := s.pos } a code
  | soi => exact congrArg _ (s.soiPassed_withAgenda a)
  | iccChunk seq cnt payload => exact congrArg _ (s.assemble_withAgenda a seq cnt payload)
  | segment part =>
    cases part with
    | lengthHigh => rfl
    | lengthLow b1 b0 => exact congrArg _ (s.lengthLow_withAgenda a b1 b0)
    | payload v => exact s.bodyByte_withAgenda a v
  | segmentRecord marker offset size payload =>
    cases h : recordByte marker offset size payload s.eidx.toNat with
    | none => rw [exec_segmentRecord_none h, exec_segmentRecord_none (s := s.withAgenda a) h]; rfl
    | some b =>
      rw [exec_segmentRecord_some h, exec_segmentRecord_some (s := s.withAgenda a) h]
      exact s.outPush_withAgenda a b fun u => u.recordStep_withAgenda a size
  | iccProfileOut slots =>
    cases h : profileByte slots s.eslot.toNat s.eidx.toNat with
    | none => rw [exec_iccProfileOut_none h, exec_iccProfileOut_none (s := s.withAgenda a) h]; rfl
    | some b =>
      rw [exec_iccProfileOut_some h, exec_iccProfileOut_some (s := s.withAgenda a) h]
      exact s.outPush_withAgenda a b fun u => u.emitFrom_withAgenda a slots _ _

theorem State.fetchSoi_withAgenda (v : Byte) :
    ((s.withAgenda a).fetchSoi v).outcome = outcomeWithAgenda a (s.fetchSoi v).outcome := by
  unfold State.fetchSoi State.withAgenda
  dsimp only
  split
  · exact exec_withAgenda s a (by rw [decodeSoi_role ‹_›]; exact nofun)
  · rfl

theorem State.fetchChunk_withAgenda :
    (s.withAgenda a).fetchChunk.outcome = outcomeWithAgenda a s.fetchChunk.outcome := by
  unfold State.fetchChunk State.heldSegment State.withAgenda
  dsimp only
  split
  · rfl
  · split
    · exact exec_withAgenda s a (by rw [decodeChunk_role ‹_›]; exact nofun)
    · rfl

theorem State.fetchRecord_withAgenda :
    (s.withAgenda a).fetchRecord.outcome = outcomeWithAgenda a s.fetchRecord.outcome := by
  unfold State.fetchRecord State.recordPayload State.withAgenda
  dsimp only
  split
  · rfl
  · exact exec_withAgenda s a (i := .segmentRecord _ _ _ _) nofun

theorem State.readByte_withAgenda {k : Byte → State → Fetched}
    (hk : ∀ v u, (k v (State.withAgenda u a)).outcome = outcomeWithAgenda a (k v u).outcome) :
    ((s.withAgenda a).readByte k).outcome = outcomeWithAgenda a (s.readByte k).outcome := by
  unfold State.readByte State.withAgenda
  dsimp only
  split
  · rfl
  · exact hk _ { s with input := _, pos := s.pos + 1 }
  · rfl
  · rfl

/-- The engine's turn does not depend on the turns to come (log entry 2). -/
theorem State.engineTurn_withAgenda :
    (s.withAgenda a).engineTurn.outcome = outcomeWithAgenda a s.engineTurn.outcome := by
  cases he : s.estate with
  | idle => rw [engineTurn_idle he, engineTurn_idle (s := s.withAgenda a) he]; rfl
  | soi0 =>
    rw [engineTurn_soi0 he, engineTurn_soi0 (s := s.withAgenda a) he]
    exact s.readByte_withAgenda a fun _ _ => rfl
  | soi1 =>
    rw [engineTurn_soi1 he, engineTurn_soi1 (s := s.withAgenda a) he]
    exact s.readByte_withAgenda a fun v u => u.fetchSoi_withAgenda a v
  | scanB0 =>
    rw [engineTurn_scanB0 he, engineTurn_scanB0 (s := s.withAgenda a) he]
    exact s.readByte_withAgenda a fun _ _ => rfl
  | scanB1 =>
    rw [engineTurn_scanB1 he, engineTurn_scanB1 (s := s.withAgenda a) he]
    exact s.readByte_withAgenda a fun v u =>
      exec_withAgenda { u with b1 := v } a (by rw [decodePair_role]; exact nofun)
  | lenHi =>
    rw [engineTurn_lenHi he, engineTurn_lenHi (s := s.withAgenda a) he]
    exact s.readByte_withAgenda a fun v u => exec_withAgenda u a (i := .segment (.lengthHigh v)) nofun
  | lenLo =>
    rw [engineTurn_lenLo he, engineTurn_lenLo (s := s.withAgenda a) he]
    exact s.readByte_withAgenda a fun v u => exec_withAgenda u a (i := .segment (.lengthLow _ v)) nofun
  | body =>
    rw [engineTurn_body he, engineTurn_body (s := s.withAgenda a) he]
    exact s.readByte_withAgenda a fun v u => exec_withAgenda u a (i := .segment (.payload v)) nofun
  | assemble =>
    rw [engineTurn_assemble he, engineTurn_assemble (s := s.withAgenda a) he]
    exact s.fetchChunk_withAgenda a
  | emitSeg =>
    rw [engineTurn_emitSeg he, engineTurn_emitSeg (s := s.withAgenda a) he]
    exact s.fetchRecord_withAgenda a
  | emitIcc =>
    rw [engineTurn_emitIcc he, engineTurn_emitIcc (s := s.withAgenda a) he]
    exact exec_withAgenda s a (i := .iccProfileOut _) nofun

end

/-! ### Whose turn it is -/

/-- A turn of the engine's that stands in the agenda comes to what it comes to with nothing planned (log entry 2). -/
theorem step_engine_withAgenda {s : State} {rest : List Move} (h : s.agenda = .engine :: rest) :
    step s = outcomeWithAgenda rest (step { s with agenda := [] }) := by
  calc step s = (State.withAgenda { s with agenda := [] } rest).engineTurn.outcome := by
        rw [step_eq_outcome, fetch_engine h]; rfl
    _ = outcomeWithAgenda rest (step { s with agenda := [] }) := by
        rw [State.engineTurn_withAgenda, step_eq_outcome, fetch_nil rfl]

theorem fetch_drainAll {s : State} {rest : List Move} {b : Byte} {bytes : List Byte} (h : s.agenda = .drainAll :: rest)
    (ho : s.output = b :: bytes) : fetch s = .answer (.next (s.popOutput b bytes)) := by
  simp [fetch, h, ho]

theorem fetch_drainAll_empty {s : State} {rest : List Move} (h : s.agenda = .drainAll :: rest) (ho : s.output = []) :
    fetch s = .answer (.next { s with agenda := rest }) := by
  simp [fetch, h, ho]

theorem fetch_waitDone {s : State} {rest : List Move} {b : Byte} {bytes : List Byte} (h : s.agenda = .waitDone :: rest)
    (ho : s.output = b :: bytes) : fetch s = .answer (.next (s.popOutput b bytes)) := by
  simp [fetch, h, ho]

theorem fetch_waitDone_done {s : State} {rest : List Move} (h : s.agenda = .waitDone :: rest) (ho : s.output = [])
    (hb : s.busy = false) (hd : s.doneFlag = true) :
    fetch s = .answer (.next ({ s with agenda := rest }.see (.value statusOffset s.statusWord))) := by
  simp [fetch, h, ho, hb, hd]

theorem fetch_waitDone_polling {s : State} {rest : List Move} (h : s.agenda = .waitDone :: rest) (ho : s.output = [])
    (hp : s.busy = true ∨ s.doneFlag = false) : fetch s = s.engineTurn := by
  obtain hb | hd := hp
  · simp [fetch, h, ho, hb]
  · simp [fetch, h, ho, hd]

/-! ### The instruction that stands where a step fetches -/

/-- An engine step that reads a byte goes on with it (rule R13). -/
theorem step_byte {s : State} {v : Byte} {items : List Item} {k : Byte → State → Fetched} (ha : s.agenda = [])
    (hi : s.input = .byte v :: items) (hk : s.engineTurn = s.readByte k) :
    step s = (k v { s with input := items, pos := s.pos + 1 }).outcome := by
  rw [step_eq_outcome, fetch_nil ha, hk, State.readByte_byte k hi]

theorem State.fetchSoi_instr {s : State} {v : Byte} {i : Instr} (h : decodeSoi s.t0 v = .instr i) :
    s.fetchSoi v = .run i s := by
  simp only [State.fetchSoi, h]

theorem State.fetchChunk_instr {s : State} {data : List Byte} {i : Instr} (hd : s.heldSegment = some data)
    (h : decodeChunk data = .instr i) : s.fetchChunk = .run i s := by
  simp only [State.fetchChunk, hd, h]

theorem State.fetchRecord_payload {s : State} {payload : List Byte} (h : s.recordPayload = some payload) :
    s.fetchRecord = .run (.segmentRecord s.segMarker s.segOffset s.segSize payload) s := by
  simp only [State.fetchRecord, h]

/-- An encoded record that decodes at all decodes to its own fields (rule R160). -/
theorem decodeRecord_encodeRecord_instr {m : Byte} {o : Word} {z : Half} {payload : List Byte} {i : Instr}
    (h : decodeRecord (encodeRecord m o z payload) = .instr i) : i = .segmentRecord m o z payload := by
  simp only [encodeRecord, recordHeader, bytes32, bytes16, List.cons_append, List.nil_append, decodeRecord, be16_bytes,
    be32_bytes] at h
  split at h <;> cases h
  rfl

/-- A byte sequence cut by the lengths of its pieces gives the pieces back (rule R164). -/
theorem splitLengths_flatten (slots : List (List Byte)) :
    splitLengths (slots.map List.length) slots.flatten = some slots := by
  induction slots with
  | nil => rfl
  | cons p slots ih => simp [splitLengths, ih]

/-- A profile that decodes at all decodes to its own slots (rule R164). -/
theorem decodeProfile_flatten_instr {slots : List (List Byte)} {i : Instr}
    (h : decodeProfile (slots.map List.length) slots.flatten = .instr i) : i = .iccProfileOut slots := by
  unfold decodeProfile at h
  rw [splitLengths_flatten] at h
  split at h <;> cases h
  rfl

/-! ### The statements -/

/-- Settles O15: the engine's work, a command's effect and a register write each leave the parameters alone. -/
theorem parametersNeverChange : Obligations.ParametersNeverChange := by
  intro s t h
  obtain ⟨h, -⟩ | ⟨rest, -, h⟩ | ⟨_, _, -, rfl⟩ | ⟨offset, w, rest, -, -, rfl⟩ | ⟨w, rest, i, -, hd, h⟩ |
    ⟨w, rest, _, -, -, h⟩ | ⟨_, _, -, -, rfl⟩ | ⟨_, _, _, _, -, -, -, rfl | rfl⟩ | ⟨_, -, rfl⟩ | ⟨_, -, -, -, rfl⟩ |
    ⟨_, -, rfl⟩ := step_next_cases h
  · exact (EngineMove.of_engineTurn h).params
  · exact ((EngineMove.of_engineTurn h).params :)
  · rfl
  · exact (State.writeReg_params _ offset w :)
  · obtain ⟨legal, effect, hexec, heffect⟩ := exec_command_issue (decodeCommand_role hd)
    rw [hexec] at h
    exact (State.issue_params heffect h).trans (State.noteIssue_params _ w)
  · exact (State.issue_params (fun _ => rfl) h).trans (State.noteIssue_params _ w)
  all_goals rfl

/-- Settles O17: each turn of the agenda by the law of its own, the engine's by `step_engine_withAgenda`. -/
theorem turnOrder : Obligations.TurnOrder := by
  intro s rest
  refine ⟨fun ha => ⟨fun t h => ?_, fun f h => ?_⟩, fun item ha => ⟨fun hroom => ?_, fun hfull => ?_⟩,
    fun ha => ⟨fun b bytes ho => ?_, fetch_pop_empty ha⟩, fun ha => ⟨fun b bytes ho => ?_, fun ho => ?_⟩,
    fun ha => ⟨fun b bytes ho => ?_, fun ho hb hd => ?_, fetch_waitDone_polling ha⟩, fetch_nil⟩
  · rw [step_engine_withAgenda ha, h]; rfl
  · rw [step_engine_withAgenda ha, h]; rfl
  · exact step_of_answer (fetch_push_room ha (State.inputRoom_iff.2 hroom))
  · refine fetch_push_full ha (Bool.eq_false_iff.2 fun hroom => ?_)
    exact absurd (State.inputRoom_iff.1 hroom) (by omega)
  · exact step_of_answer (fetch_pop ha ho)
  · exact step_of_answer (fetch_drainAll ha ho)
  · exact step_of_answer (fetch_drainAll_empty ha ho)
  · exact step_of_answer (fetch_waitDone ha ho)
  · exact step_of_answer (fetch_waitDone_done ha ho hb hd)

/-- Settles O30: the engine drops BUSY only at a command's end, and of the host's turns only a reset does. -/
theorem runningCommandStopsItself : Obligations.RunningCommandStopsItself := by
  intro s t hb h hidle
  have running (h : t.busy = true) : False := by rw [hidle] at h; cases h
  have ended (h : t.busy = s.busy ∨ CommandEnded t) : CommandEnded t := h.resolve_left fun h => running (h.trans hb)
  have noted (w : Word) (rest : List Move) : ({ s with agenda := rest }.noteIssue w).busy = true := by
    rw [State.noteIssue_eq]; exact hb
  obtain ⟨h, -⟩ | ⟨rest, -, h⟩ | ⟨_, _, -, rfl⟩ | ⟨offset, w, rest, ha, -, rfl⟩ | ⟨w, rest, i, -, hd, h⟩ |
    ⟨w, rest, _, -, -, h⟩ | ⟨_, _, -, -, rfl⟩ | ⟨_, _, _, _, -, -, -, rfl | rfl⟩ | ⟨_, -, rfl⟩ | ⟨_, -, -, -, rfl⟩ |
    ⟨rest, ha, rfl⟩ := step_next_cases h
  · exact .inl (ended (EngineMove.of_engineTurn h).busy)
  · exact .inl (ended ((EngineMove.of_engineTurn h).busy :))
  · exact (running hb).elim
  · obtain hw | ⟨rfl, hw⟩ := State.writeReg_busy { s with agenda := rest } offset w
    · exact (running (hw.trans hb)).elim
    · exact .inr ⟨rest, .inr ⟨w, ha, hw⟩⟩
  · obtain ⟨legal, effect, hexec, -⟩ := exec_command_issue (decodeCommand_role hd)
    rw [hexec] at h
    exact (running (State.issue_next_busy (noted w rest) h)).elim
  · exact (running (State.issue_next_busy (noted w rest) h)).elim
  pick_goal -1
  · exact .inr ⟨rest, .inl ha⟩
  all_goals exact (running hb).elim

/-- Settles O33: every state that reads does it through `ReadByte`, and its work moves neither POS nor the channel. -/
theorem readByteItems : Obligations.ReadByteItems := by
  intro s ha hr
  obtain ⟨k, hk, hwork⟩ := engineTurn_reads hr
  have hstep : step s = (s.readByte k).outcome := by rw [step_eq_outcome, fetch_nil ha, hk]
  rw [hstep]
  refine ⟨fun rest v items hi => State.readByte_byte rest hi, fun hi => ?_, fun v items t hi h => ?_, fun items hi => ?_,
    fun c items hi => ?_⟩
  · rw [State.readByte_hold k hi]; rfl
  · rw [State.readByte_byte k hi] at h
    exact ⟨(hwork _ _ _ h).pos, (hwork _ _ _ h).input⟩
  · rw [State.readByte_end k hi]; rfl
  · rw [State.readByte_fault k hi]; rfl

/-- Settles O55: the engine's work comes alone, on an item read or on a byte pushed. -/
theorem engineMovesOneUnit : Obligations.EngineMovesOneUnit := by
  intro s t ha h
  rw [step_eq_outcome, fetch_nil ha] at h
  cases EngineMove.of_engineTurn h with
  | work hw => exact .inl ⟨hw.input, .inl hw.output⟩
  | read item _ _ hi hw => exact .inr ⟨item, hw.input ▸ hi, hw.output⟩
  | push b hw => exact .inl ⟨hw.input, .inr ⟨b, hw.output⟩⟩

/-- Settles O16: in each place, the state's fetch gives the instruction its decoder reads there. -/
theorem stepRunsDecodedInstruction : Obligations.StepRunsDecodedInstruction := by
  intro s i
  refine ⟨fun w rest ha hd => step_of_run ((fetch_write ha).trans (hostWrite_command hd)),
    fun v items ha hi => ⟨fun he hd => ?_, fun he hd => ?_, fun he hd => ?_, fun he hd => ?_, fun he hd => ?_⟩,
    fun data ha he hheld hd => ?_, fun payload ha he hp hd => ?_, fun ha he hd => ?_⟩
  · exact (step_byte ha hi (engineTurn_soi1 he)).trans
      (congrArg Fetched.outcome (State.fetchSoi_instr (s := { s with input := items, pos := s.pos + 1 }) hd))
  · cases hd; exact step_byte ha hi (engineTurn_scanB1 he)
  · cases hd; exact step_byte ha hi (engineTurn_lenHi he)
  · cases hd; exact step_byte ha hi (engineTurn_lenLo he)
  · cases hd; exact step_byte ha hi (engineTurn_body he)
  · exact step_of_run ((fetch_nil ha).trans ((engineTurn_assemble he).trans (State.fetchChunk_instr hheld hd)))
  · obtain rfl := decodeRecord_encodeRecord_instr hd
    exact step_of_run ((fetch_nil ha).trans ((engineTurn_emitSeg he).trans (State.fetchRecord_payload hp)))
  · obtain rfl := decodeProfile_flatten_instr hd
    exact step_of_run ((fetch_nil ha).trans (engineTurn_emitIcc he))

end Sys2Proof.Machine
end

section
/-! SUPPORT. What one engine step can be: every micro-step of rule R31's states, with the state it leads to; which steps and
instructions touch the internal memories and the assembler's registers; and the statements on the memories that follow. -/

namespace Sys2Proof.Machine

/-! ### The micro-steps of the engine -/

/-- The state once the byte at the head of the input channel has been read, with `items` left (rule R13). -/
abbrev State.taken (s : State) (items : List Item) : State := { s with input := items, pos := s.pos + 1 }

/-- The engine has no step: it is IDLE, needs a byte that is not there, or has a byte to push and no room (rules R354,
R355). -/
def EngineHolds (s : State) : Prop :=
  s.estate = .idle ∨ (s.estate.reads = true ∧ s.input = []) ∨ (s.estate.emits = true ∧ s.outputRoom = false)

/-- The micro-steps of the engine (rules R20, R31), each with what it has decoded and the state it leads to. -/
inductive EngineStep (s : State) : State → Prop
  | hold (h : EngineHolds s) : EngineStep s s
  | ioError {item : Item} {items : List Item} {cause : IoCause} {code : Byte} (hr : s.estate.reads = true)
      (hi : s.input = item :: items) (hc : cause ≠ .none) (hq : cause ≠ .fault → code = 0#8) :
      EngineStep s ({ s with input := items }.raise .ioError cause code)
  | soiFirst {v : Byte} {items : List Item} (he : s.estate = .soi0) (hi : s.input = .byte v :: items) :
      EngineStep s { s.taken items with t0 := v, estate := .soi1 }
  | soiMissing {v : Byte} {items : List Item} (he : s.estate = .soi1) (hi : s.input = .byte v :: items)
      (hd : decodeSoi s.t0 v = .rejected .missingSoi) : EngineStep s ((s.taken items).raiseFormat .missingSoi)
  | soi {v : Byte} {items : List Item} (he : s.estate = .soi1) (hi : s.input = .byte v :: items)
      (hd : decodeSoi s.t0 v = .instr .soi) : EngineStep s (s.taken items).soiPassed
  | scanFirst {v : Byte} {items : List Item} (he : s.estate = .scanB0) (hi : s.input = .byte v :: items) :
      EngineStep s { s.taken items with b0 := v, estate := .scanB1 }
  | pairDropped {v : Byte} {items : List Item} (he : s.estate = .scanB1) (hi : s.input = .byte v :: items)
      (hd : decodePair s.b0 v = .stuff ∨ ∃ n, decodePair s.b0 v = .rst n) :
      EngineStep s { s.taken items with b1 := v, estate := .scanB0 }
  | desync {v : Byte} {items : List Item} (he : s.estate = .scanB1) (hi : s.input = .byte v :: items)
      (hd : decodePair s.b0 v = .desync s.b0 v) : EngineStep s { s.taken items with b0 := v, b1 := v, estate := .scanB1 }
  | fill {v : Byte} {items : List Item} (he : s.estate = .scanB1) (hi : s.input = .byte v :: items)
      (hd : decodePair s.b0 v = .fill) : EngineStep s { s.taken items with b1 := v, estate := .scanB1 }
  | eoi {v : Byte} {items : List Item} {t : State} (he : s.estate = .scanB1) (hi : s.input = .byte v :: items)
      (hd : decodePair s.b0 v = .eoi) (h : { s.taken items with b1 := v }.onEoi = .next t) : EngineStep s t
  | marker {v : Byte} {items : List Item} {t : State} (he : s.estate = .scanB1) (hi : s.input = .byte v :: items)
      (hd : decodePair s.b0 v = .marker v)
      (h : { s.taken items with b1 := v, mkCode := v, moff := s.pos + 1 }.onMarker v = .next t) : EngineStep s t
  | lengthHigh {v : Byte} {items : List Item} (he : s.estate = .lenHi) (hi : s.input = .byte v :: items) :
      EngineStep s ((s.taken items).lengthHigh v)
  | lengthLow {v : Byte} {items : List Item} (he : s.estate = .lenLo) (hi : s.input = .byte v :: items) :
      EngineStep s ((s.taken items).lengthLow (s.len.extractLsb' 8 8) v)
  | payload {v : Byte} {items : List Item} {t : State} (he : s.estate = .body) (hi : s.input = .byte v :: items)
      (h : (s.taken items).bodyByte v = .next t) : EngineStep s t
  | headerInvalid {data : List Byte} {why : Undecoded} (he : s.estate = .assemble) (hh : s.heldSegment = some data)
      (hd : decodeChunk data = .rejected why) : EngineStep s (s.raiseFormat .invalidIccHeader)
  | chunk {data payload : List Byte} {seq cnt : Byte} (he : s.estate = .assemble) (hh : s.heldSegment = some data)
      (hd : decodeChunk data = .instr (.iccChunk seq cnt payload)) : EngineStep s (s.assemble seq cnt payload)
  | recordByte {payload : List Byte} {b : Byte} (he : s.estate = .emitSeg) (ho : s.outputRoom = true)
      (hp : s.recordPayload = some payload)
      (hb : recordByte s.segMarker s.segOffset s.segSize payload s.eidx.toNat = some b) :
      EngineStep s ({ s with output := s.output ++ [b] }.recordStep s.segSize)
  | profileByte {b : Byte} (he : s.estate = .emitIcc) (ho : s.outputRoom = true)
      (hb : profileByte s.profileSlots s.eslot.toNat s.eidx.toNat = some b) :
      EngineStep s ({ s with output := s.output ++ [b] }.emitFrom s.profileSlots s.eslot.toNat (s.eidx.toNat + 1))

/-- EOI ends the scanning command, each in its own way (rule R283). -/
theorem State.onEoi_next {s t : State} (h : s.onEoi = .next t) :
    (s.op = .getSegment ∧ t = s.finish .noSegment .eoi) ∨ (s.op = .getCommonApp ∧ t = s.finish .listDone .eoi) ∨
    (s.op = .getIcc ∧ s.iccActive = true ∧ t = s.finish .iccIncomplete .eoi) ∨
    (s.op = .getIcc ∧ s.iccActive = false ∧ t = s.finish .iccAbsent .eoi) := by
  unfold State.onEoi at h
  split at h <;> cases h
  · exact .inl ⟨‹_›, rfl⟩
  · exact .inr (.inl ⟨‹_›, rfl⟩)
  · split_ifs with ha
    · exact .inr (.inr (.inl ⟨‹_›, ha, rfl⟩))
    · exact .inr (.inr (.inr ⟨‹_›, Bool.eq_false_iff.2 ha, rfl⟩))

/-- MARKER starts the segment reader, and the scanning command says whether the segment is kept (rule R284). -/
theorem State.onMarker_next {s t : State} {code : Byte} (h : s.onMarker code = .next t) :
    ∃ keep, t = s.startReader keep := by
  unfold State.onMarker at h
  split at h <;> cases h <;> exact ⟨_, rfl⟩

/-- A read is a hold, an IOError, or what the state does with the byte (rules R13, R340). -/
theorem EngineStep.of_readByte {s t : State} {k : Byte → State → Fetched} (hr : s.estate.reads = true)
    (h : (s.readByte k).outcome = .next t)
    (hk : ∀ v items, s.input = .byte v :: items → (k v (s.taken items)).outcome = .next t → EngineStep s t) :
    EngineStep s t := by
  obtain ⟨hi, hb⟩ | ⟨v, items, hi, hb⟩ | ⟨items, hi, hb⟩ | ⟨c, items, hi, hb⟩ := s.readByte_cases k <;> rw [hb] at h
  · cases h; exact .hold (.inr (.inl ⟨hr, hi⟩))
  · exact hk v items hi h
  · cases h; exact .ioError hr hi nofun fun _ => rfl
  · cases h; exact .ioError hr hi nofun fun hq => absurd rfl hq

/-- A push is a hold, or what follows it (rules R12, R102). -/
theorem EngineStep.of_outPush {s t : State} {b : Byte} {rest : State → State} (he : s.estate.emits = true)
    (hk : s.outputRoom = true → EngineStep s (rest { s with output := s.output ++ [b] }))
    (h : s.outPush b rest = .next t) : EngineStep s t := by
  obtain ⟨ho, hp⟩ | ⟨ho, hp⟩ := s.outPush_cases b rest <;> rw [hp] at h <;> cases h
  · exact hk ho
  · exact .hold (.inr (.inr ⟨he, ho⟩))

/-- The scanner's second byte, by the class of the pair (rules R158, R202). -/
theorem EngineStep.of_pair {s t : State} {v : Byte} {items : List Item} (he : s.estate = .scanB1)
    (hi : s.input = .byte v :: items)
    (h : exec (decodePair s.b0 v) { s.taken items with b1 := v } = .next t) : EngineStep s t := by
  obtain ⟨-, hd⟩ | ⟨-, -, hd⟩ | ⟨-, -, hd⟩ | ⟨-, -, hd⟩ | ⟨-, -, hd⟩ | ⟨-, -, hd⟩ := decodePair_cases s.b0 v <;>
    rw [hd] at h
  · cases h; exact .desync he hi hd
  · cases h; exact .pairDropped he hi (.inl hd)
  · cases h; exact .fill he hi hd
  · exact .eoi he hi hd h
  · cases h; exact .pairDropped he hi (.inr ⟨_, hd⟩)
  · exact .marker he hi hd h

theorem EngineStep.of_fetchSoi {s t : State} {v : Byte} {items : List Item} (he : s.estate = .soi1)
    (hi : s.input = .byte v :: items) (h : ((s.taken items).fetchSoi v).outcome = .next t) : EngineStep s t := by
  have hd : decodeSoi s.t0 v = .instr .soi ∨ decodeSoi s.t0 v = .rejected .missingSoi := by
    unfold decodeSoi; split_ifs <;> simp
  obtain hd | hd := hd
  · rw [State.fetchSoi_instr (s := s.taken items) hd] at h
    cases h; exact .soi he hi hd
  · simp only [State.fetchSoi, hd] at h
    cases h; exact .soiMissing he hi hd

theorem EngineStep.of_fetchChunk {s t : State} (he : s.estate = .assemble) (h : s.fetchChunk.outcome = .next t) :
    EngineStep s t := by
  unfold State.fetchChunk at h
  split at h
  · cases h
  · split at h
    · rename_i hd
      obtain ⟨seq, cnt, payload, rfl, -⟩ := decodeChunk_instr hd
      cases h; exact .chunk he ‹_› hd
    · cases h; exact .headerInvalid he ‹_› ‹_›

theorem EngineStep.of_fetchRecord {s t : State} (he : s.estate = .emitSeg) (h : s.fetchRecord.outcome = .next t) :
    EngineStep s t := by
  unfold State.fetchRecord at h
  split at h
  · cases h
  · rename_i payload hp
    change exec (.segmentRecord s.segMarker s.segOffset s.segSize payload) s = .next t at h
    cases hb : Machine.recordByte s.segMarker s.segOffset s.segSize payload s.eidx.toNat with
    | none => rw [exec_segmentRecord_none hb] at h; cases h
    | some b => rw [exec_segmentRecord_some hb] at h; exact .of_outPush (he ▸ rfl) (fun ho => .recordByte he ho hp hb) h

theorem EngineStep.of_profileOut {s t : State} (he : s.estate = .emitIcc)
    (h : exec (.iccProfileOut s.profileSlots) s = .next t) : EngineStep s t := by
  cases hb : Machine.profileByte s.profileSlots s.eslot.toNat s.eidx.toNat with
  | none => rw [exec_iccProfileOut_none hb] at h; cases h
  | some b => rw [exec_iccProfileOut_some hb] at h; exact .of_outPush (he ▸ rfl) (fun ho => .profileByte he ho hb) h

/-- Every turn of the engine that answers a next state is one of the micro-steps (rules R20, R31). -/
theorem EngineStep.of_engineTurn {s t : State} (h : s.engineTurn.outcome = .next t) : EngineStep s t := by
  have reads {e : EState} (he : s.estate = e) (hr : e.reads = true) : s.estate.reads = true := he ▸ hr
  cases he : s.estate with
  | idle => rw [engineTurn_idle he] at h; cases h; exact .hold (.inl he)
  | soi0 =>
    rw [engineTurn_soi0 he] at h
    refine .of_readByte (reads he rfl) h fun v items hi h => ?_
    cases h; exact .soiFirst he hi
  | soi1 =>
    rw [engineTurn_soi1 he] at h
    exact .of_readByte (reads he rfl) h fun v items hi h => .of_fetchSoi he hi h
  | scanB0 =>
    rw [engineTurn_scanB0 he] at h
    refine .of_readByte (reads he rfl) h fun v items hi h => ?_
    cases h; exact .scanFirst he hi
  | scanB1 =>
    rw [engineTurn_scanB1 he] at h
    exact .of_readByte (reads he rfl) h fun v items hi h => .of_pair he hi h
  | lenHi =>
    rw [engineTurn_lenHi he] at h
    refine .of_readByte (reads he rfl) h fun v items hi h => ?_
    cases h; exact .lengthHigh he hi
  | lenLo =>
    rw [engineTurn_lenLo he] at h
    refine .of_readByte (reads he rfl) h fun v items hi h => ?_
    cases h; exact .lengthLow he hi
  | body =>
    rw [engineTurn_body he] at h
    exact .of_readByte (reads he rfl) h fun v items hi h => .payload he hi h
  | assemble => rw [engineTurn_assemble he] at h; exact .of_fetchChunk he h
  | emitSeg => rw [engineTurn_emitSeg he] at h; exact .of_fetchRecord he h
  | emitIcc => rw [engineTurn_emitIcc he] at h; exact .of_profileOut he h

/-! ### What leaves the internal memories and the assembler alone -/

/-- The slot file and the assembler's registers are as they were (rules R56, R105). -/
structure AssemblerKept (s t : State) : Prop where
  slots : t.slots = s.slots := by rfl
  iccUsed : t.iccUsed = s.iccUsed := by rfl
  iccFilled : t.iccFilled = s.iccFilled := by rfl
  iccTotal : t.iccTotal = s.iccTotal := by rfl
  iccActive : t.iccActive = s.iccActive := by rfl

/-- Both internal memories and the assembler's registers are as they were (rules R56, R104, R105, R125). -/
structure MemoriesKept (s t : State) : Prop extends AssemblerKept s t where
  segbuf : t.segbuf = s.segbuf := by rfl

theorem MemoriesKept.onSegmentEnd (s : State) : MemoriesKept s s.onSegmentEnd := by
  unfold State.onSegmentEnd
  split_ifs
  · exact {}
  · exact {}
  · exact {}

theorem MemoriesKept.soiPassed (s : State) : MemoriesKept s s.soiPassed := by
  unfold State.soiPassed
  dsimp only
  split_ifs
  · exact {}
  · exact {}

theorem MemoriesKept.lengthLow (s : State) (hi lo : Byte) : MemoriesKept s (s.lengthLow hi lo) := by
  unfold State.lengthLow
  dsimp only
  split_ifs
  · exact {}
  · exact { MemoriesKept.onSegmentEnd _ with }
  · exact {}

theorem MemoriesKept.bodyCount (s : State) : MemoriesKept s s.bodyCount := by
  unfold State.bodyCount
  dsimp only
  split_ifs
  · exact { MemoriesKept.onSegmentEnd _ with }
  · exact {}

theorem MemoriesKept.of_onEoi {s t : State} (h : s.onEoi = .next t) : MemoriesKept s t := by
  obtain ⟨-, rfl⟩ | ⟨-, rfl⟩ | ⟨-, -, rfl⟩ | ⟨-, -, rfl⟩ := State.onEoi_next h <;> exact {}

theorem MemoriesKept.of_onMarker {s t : State} {code : Byte} (h : s.onMarker code = .next t) : MemoriesKept s t := by
  obtain ⟨_, rfl⟩ := State.onMarker_next h
  exact {}

theorem MemoriesKept.emitFrom (s : State) (slots : List (List Byte)) (eslot eidx : Nat) :
    MemoriesKept s (s.emitFrom slots eslot eidx) := by
  unfold State.emitFrom
  dsimp only
  split_ifs
  · exact {}
  · exact {}

theorem MemoriesKept.chunkStored (s : State) : MemoriesKept s s.chunkStored := by
  unfold State.chunkStored
  split_ifs
  · exact .emitFrom s _ _ _
  · exact {}

theorem MemoriesKept.recordStep (s : State) (size : Half) : MemoriesKept s (s.recordStep size) := by
  unfold State.recordStep
  dsimp only
  split_ifs
  · exact {}
  · exact {}
  · exact {}

/-- A payload byte is dropped, or written at SEGLEN, which is an entry of SEGBUF; the count that follows writes nothing
(rules R234, R235). -/
theorem State.bodyByte_cases {s t : State} {v : Byte} (h : s.bodyByte v = .next t) :
    (s.keep = false ∧ t = s.bodyCount) ∨
    (s.keep = true ∧ s.seglen.toNat < Config.segbufBytes ∧
      t = { s with segbuf := s.segbuf.write s.seglen.toNat v, seglen := s.seglen + 1 }.bodyCount) := by
  unfold State.bodyByte at h
  split_ifs at h with hk hl <;> cases h
  · exact .inl ⟨hk, rfl⟩
  · exact .inr ⟨eq_true_of_ne_false hk, hl, rfl⟩

theorem AssemblerKept.of_bodyByte {s t : State} {v : Byte} (h : s.bodyByte v = .next t) : AssemblerKept s t := by
  obtain ⟨-, rfl⟩ | ⟨-, -, rfl⟩ := State.bodyByte_cases h
  · exact { MemoriesKept.bodyCount s with }
  · exact { MemoriesKept.bodyCount _ with }

/-! ### The assembler's checks -/

/-- The count once step 4 has fixed or compared it (rules R254, R255). -/
def State.counted (s : State) (cnt : Byte) : State :=
  if s.iccActive then s else { s with iccTotal := cnt, iccActive := true }

@[simp] theorem State.counted_iccActive (s : State) (cnt : Byte) : (s.counted cnt).iccActive = true := by
  unfold State.counted
  split_ifs with h
  · exact h
  · rfl

theorem State.counted_eq (s : State) (cnt : Byte) :
    s.counted cnt = { s with iccTotal := (s.counted cnt).iccTotal, iccActive := true } := by
  unfold State.counted
  split_ifs with h
  · rw [← h]
  · rfl

/-- Why the checks of steps 3 to 6 refuse a chunk (rules R253 to R256). -/
def ErrCode.refusesChunk : ErrCode → Bool
  | .invalidSequenceNumber | .inconsistentChunkCount | .capacity => true
  | .none | .ioError | .missingSoi | .invalidSegmentLength | .invalidIccHeader | .badOpcode | .badState => false

/-- A chunk whose count is settled is refused, or stored within the slot memory (rules R253, R256, R257). -/
theorem State.chunkCounted_cases (s : State) (seq : Byte) (payload : List Byte) :
    (∃ err : ErrCode, err.refusesChunk = true ∧ s.chunkCounted seq payload = s.raiseFormat err) ∨
    (seq.toNat ≤ s.iccTotal.toNat ∧ s.newUsed seq payload ≤ s.params.iccMemBytes ∧
      s.chunkCounted seq payload = (s.storeChunk seq payload).chunkStored) := by
  unfold State.chunkCounted
  split_ifs with hseq hcap
  · exact .inl ⟨_, rfl, rfl⟩
  · exact .inl ⟨_, rfl, rfl⟩
  · exact .inr ⟨Nat.le_of_not_lt hseq, Nat.le_of_not_lt hcap, rfl⟩

/-- Steps 3 to 7 raise one of three errors, before or after the count is fixed, or store the chunk (rules R253 to R258). -/
theorem State.assemble_cases (s : State) (seq cnt : Byte) (payload : List Byte) :
    (∃ (u : State) (err : ErrCode), (u = s ∨ u = s.counted cnt) ∧ err.refusesChunk = true ∧
      s.assemble seq cnt payload = u.raiseFormat err) ∨
    (seq ≠ 0#8 ∧ seq.toNat ≤ (s.counted cnt).iccTotal.toNat ∧
      (s.counted cnt).newUsed seq payload ≤ (s.counted cnt).params.iccMemBytes ∧
      s.assemble seq cnt payload = ((s.counted cnt).storeChunk seq payload).chunkStored) := by
  by_cases hrun : seq ≠ 0#8 ∧ s.assemble seq cnt payload = (s.counted cnt).chunkCounted seq payload
  · obtain ⟨hseq, h⟩ := hrun
    obtain ⟨err, herr, hr⟩ | ⟨htotal, hcap, hr⟩ := (s.counted cnt).chunkCounted_cases seq payload
    · exact .inl ⟨_, err, .inr rfl, herr, h.trans hr⟩
    · exact .inr ⟨hseq, htotal, hcap, h.trans hr⟩
  refine .inl ?_
  unfold State.assemble at hrun ⊢
  split_ifs at hrun ⊢ with hseq hactive hcnt
  · exact ⟨s, _, .inl rfl, rfl, rfl⟩
  · exact absurd ⟨hseq, by simp [State.counted, hactive]⟩ hrun
  · exact ⟨s, _, .inl rfl, rfl, rfl⟩
  · exact absurd ⟨hseq, by simp [State.counted, hactive]⟩ hrun

/-- A chunk writes no slot but its own and no byte of SEGBUF (rules R105, R257). -/
theorem State.assemble_frame (s : State) (seq cnt : Byte) (payload : List Byte) :
    (s.assemble seq cnt payload).segbuf = s.segbuf ∧
      ∀ k ≠ seq.toNat, (s.assemble seq cnt payload).slot k = s.slot k := by
  obtain ⟨u, err, rfl | rfl, -, h⟩ | ⟨-, -, -, h⟩ := s.assemble_cases seq cnt payload <;> rw [h]
  · exact ⟨rfl, fun _ _ => rfl⟩
  · rw [State.counted_eq]; exact ⟨rfl, fun _ _ => rfl⟩
  · have kept := MemoriesKept.chunkStored ((s.counted cnt).storeChunk seq payload)
    constructor
    · rw [kept.segbuf, State.storeChunk_eq, State.counted_eq]
    · intro k hk
      rw [State.slot, kept.slots, ← State.slot, State.slot_storeChunk, if_neg hk, State.counted_eq]
      rfl

/-! ### Commands and the memories -/

/-- The session states a command is legal in (rules R33, R281). Only a command is ever issued. -/
def commandLegality : Instr → SState → Option ErrCode
  | .readSoi | .getIcc => legalInStart
  | .getSegment _ | .getCommonApp => legalInReady
  | _ => legalAlways

/-- What a command does in the host's write step once it is accepted (rules R280, R285). Only a command is ever issued. -/
def commandEffect : Instr → State → State
  | .openSession => fun s => (s.accept .openSession 0).openStream
  | .readSoi => fun s => (s.accept .readSoi 0).begin .soi0
  | .getSegment target => fun s => (s.accept .getSegment target).begin .scanB0
  | .getCommonApp => fun s => (s.accept .getCommonApp 0).begin .scanB0
  | .getIcc => fun s => (s.accept .getIcc 0).clearIcc.begin .soi0
  | _ => id

/-- A command is the issue of its word, with its legality and its effect (rule R280). -/
theorem exec_command {i : Instr} (hi : i.role = .command) (s : State) :
    exec i s = s.issue (commandWordOf i) (commandLegality i) (commandEffect i) := by
  cases i with
  | openSession | readSoi | getSegment | getCommonApp | getIcc => rfl
  | _ => cases hi

/-- An accepted command leaves the memories alone, but OPEN and GET_ICC, which clear the slot file (rules R280, R285). -/
theorem commandEffect_memories (i : Instr) (s : State) :
    MemoriesKept s (commandEffect i s) ∨
      (i = .openSession ∨ i = .getIcc) ∧ (commandEffect i s).segbuf = s.segbuf ∧ (commandEffect i s).slots = [] := by
  cases i with
  | openSession => exact .inr ⟨.inl rfl, rfl, rfl⟩
  | getIcc => exact .inr ⟨.inr rfl, rfl, rfl⟩
  | _ => exact .inl {}

/-- A command leaves the memories alone, but OPEN and GET_ICC, which clear the slot file (rules R280, R281, R285). -/
theorem exec_command_memories {i : Instr} {s t : State} (hi : i.role = .command) (h : exec i s = .next t) :
    MemoriesKept s t ∨ (i = .openSession ∨ i = .getIcc) ∧ t.segbuf = s.segbuf ∧ t.slots = [] := by
  rw [exec_command hi] at h
  obtain ⟨-, hs⟩ | ⟨_, -, -, hs⟩ | ⟨-, -, hs⟩ := s.issue_cases (commandWordOf i) (commandLegality i) (commandEffect i) <;>
    rw [hs] at h <;> cases h
  · exact .inl {}
  · exact .inl {}
  · obtain hk | hk := commandEffect_memories i { s with cmdLast := commandWordOf i }
    · exact .inl { hk with }
    · exact .inr hk

/-! ### Instructions and the memories -/

theorem MemoriesKept.of_outPush {s t : State} {b : Byte} {rest : State → State} (hrest : ∀ u, MemoriesKept u (rest u))
    (h : s.outPush b rest = .next t) : MemoriesKept s t := by
  obtain ⟨-, hp⟩ | ⟨-, hp⟩ := s.outPush_cases b rest <;> rw [hp] at h <;> cases h
  · exact { hrest { s with output := s.output ++ [b] } with }
  · exact {}

/-- Of the structures, only a payload byte and a chunk touch the memories (rules R56, R104, R105, R125). -/
theorem MemoriesKept.of_exec {i : Instr} {s t : State} (hrole : i.role ≠ .command)
    (hpayload : ∀ v, i ≠ .segment (.payload v)) (hchunk : ∀ seq cnt payload, i ≠ .iccChunk seq cnt payload)
    (h : exec i s = .next t) : MemoriesKept s t := by
  cases i with
  | openSession | readSoi | getSegment | getCommonApp | getIcc => exact absurd rfl hrole
  | desync | stuff | fill | rst => cases h; exact {}
  | eoi => exact .of_onEoi h
  | marker code => exact { MemoriesKept.of_onMarker h with }
  | soi => cases h; exact .soiPassed s
  | iccChunk seq cnt payload => exact absurd rfl (hchunk seq cnt payload)
  | segment part =>
    cases part with
    | lengthHigh => cases h; exact {}
    | lengthLow b1 b0 => cases h; exact .lengthLow s b1 b0
    | payload v => exact absurd rfl (hpayload v)
  | segmentRecord marker offset size payload =>
    cases hb : Machine.recordByte marker offset size payload s.eidx.toNat with
    | none => rw [exec_segmentRecord_none hb] at h; cases h
    | some b => rw [exec_segmentRecord_some hb] at h; exact .of_outPush (fun u => .recordStep u size) h
  | iccProfileOut slots =>
    cases hb : Machine.profileByte slots s.eslot.toNat s.eidx.toNat with
    | none => rw [exec_iccProfileOut_none hb] at h; cases h
    | some b => rw [exec_iccProfileOut_some hb] at h; exact .of_outPush (fun u => .emitFrom u slots _ _) h

/-- No instruction but a payload byte writes SEGBUF (rule R104). -/
theorem exec_segbuf {i : Instr} {s t : State} (hpayload : ∀ v, i ≠ .segment (.payload v)) (h : exec i s = .next t) :
    t.segbuf = s.segbuf := by
  by_cases hrole : i.role = .command
  · obtain hk | ⟨-, hseg, -⟩ := exec_command_memories hrole h
    · exact hk.segbuf
    · exact hseg
  · by_cases hchunk : ∃ seq cnt payload, i = .iccChunk seq cnt payload
    · obtain ⟨seq, cnt, payload, rfl⟩ := hchunk
      cases h
      exact (s.assemble_frame seq cnt payload).1
    · exact (MemoriesKept.of_exec hrole hpayload (fun seq cnt payload hc => hchunk ⟨seq, cnt, payload, hc⟩) h).segbuf

/-- A payload byte writes no entry of SEGBUF but the one at SEGLEN, and that only while it is kept (rules R234, R235). -/
theorem bodyByte_segbuf_read {s t : State} {v : Byte} {a : Nat} (h : s.bodyByte v = .next t)
    (ha : s.keep = false ∨ a ≠ s.seglen.toNat) : t.segbuf.read a = s.segbuf.read a := by
  obtain ⟨-, rfl⟩ | ⟨hk, -, rfl⟩ := State.bodyByte_cases h
  · rw [(MemoriesKept.bodyCount s).segbuf]
  · rw [(MemoriesKept.bodyCount _).segbuf]
    exact Memory.read_write_other _ v (ha.resolve_left (by simp [hk]))

/-- No instruction but a chunk, OPEN and GET_ICC touches the slot file or the assembler's registers (rule R105). -/
theorem AssemblerKept.of_exec {i : Instr} {s t : State} (hchunk : ∀ seq cnt payload, i ≠ .iccChunk seq cnt payload)
    (hopen : i ≠ .openSession) (hicc : i ≠ .getIcc) (h : exec i s = .next t) : AssemblerKept s t := by
  by_cases hrole : i.role = .command
  · obtain hk | ⟨ho | hi, -⟩ := exec_command_memories hrole h
    · exact hk.toAssemblerKept
    · exact absurd ho hopen
    · exact absurd hi hicc
  · by_cases hpayload : ∃ v, i = .segment (.payload v)
    · obtain ⟨v, rfl⟩ := hpayload
      exact .of_bodyByte h
    · exact (MemoriesKept.of_exec hrole (fun v hv => hpayload ⟨v, hv⟩) hchunk h).toAssemblerKept

/-- Settles O59: each memory by the lemma of the one instruction that writes it. -/
theorem internalMemoryFrames : Obligations.InternalMemoryFrames := by
  intro i s t h
  refine ⟨fun hp => exec_segbuf hp h, fun v hv a ha => ?_, fun hc ho hi => ?_, fun seq cnt payload hc k hk => ?_⟩
  · subst hv; exact bodyByte_segbuf_read h ha
  · have kept := AssemblerKept.of_exec hc ho hi h
    exact ⟨kept.slots, kept.iccUsed, kept.iccFilled, kept.iccTotal, kept.iccActive⟩
  · subst hc; cases h; exact (s.assemble_frame seq cnt payload).2 k hk

/-! ### The canonical form of the memories (rules R56, R104) -/

theorem MemoriesKept.canonical {s t : State} (h : MemoriesKept s t) (hs : MemoriesCanonical s) : MemoriesCanonical t := by
  rw [MemoriesCanonical, h.segbuf, h.slots]
  exact hs

theorem MemoriesCanonical.storeChunk {s : State} {seq : Byte} {payload : List Byte} (h : MemoriesCanonical s)
    (hseq : seq ≠ 0#8) (hl : payload.length ≤ Config.maxChunkBytes) : MemoriesCanonical (s.storeChunk seq payload) := by
  rw [State.storeChunk_eq]
  have h0 : seq.toNat ≠ 0 := fun h0 => hseq (BitVec.eq_of_toNat_eq h0)
  have h255 : seq.toNat < 256 := seq.isLt
  exact ⟨h.1, SlotFile.wf_cellSet h.2 (by omega) (by rw [Config.maxChunks]; omega) hl⟩

theorem MemoriesCanonical.counted {s : State} (h : MemoriesCanonical s) (cnt : Byte) :
    MemoriesCanonical (s.counted cnt) := by
  rw [State.counted_eq]; exact h

theorem MemoriesCanonical.assemble {s : State} {payload : List Byte} (h : MemoriesCanonical s) (seq cnt : Byte)
    (hl : payload.length ≤ Config.maxChunkBytes) : MemoriesCanonical (s.assemble seq cnt payload) := by
  obtain ⟨u, err, rfl | rfl, -, hr⟩ | ⟨hseq, -, -, hr⟩ := s.assemble_cases seq cnt payload <;> rw [hr]
  · exact h
  · exact h.counted cnt
  · exact (MemoriesKept.chunkStored _).canonical ((h.counted cnt).storeChunk hseq hl)

theorem MemoriesCanonical.of_bodyByte {s t : State} {v : Byte} (hs : MemoriesCanonical s) (h : s.bodyByte v = .next t) :
    MemoriesCanonical t := by
  obtain ⟨-, rfl⟩ | ⟨-, hl, rfl⟩ := State.bodyByte_cases h
  · exact (MemoriesKept.bodyCount s).canonical hs
  · exact (MemoriesKept.bodyCount _).canonical ⟨Memory.wf_write v hs.1 hl, hs.2⟩

/-- The payload of a chunk fits in a slot (rules R161, R267). -/
theorem decodeChunk_payload_le {data payload : List Byte} {seq cnt : Byte}
    (h : decodeChunk data = .instr (.iccChunk seq cnt payload)) : payload.length ≤ Config.maxChunkBytes := by
  obtain ⟨_, _, _, heq, -, hlen, hmax⟩ := decodeChunk_instr h
  obtain ⟨-, -, rfl⟩ := Instr.iccChunk.inj heq
  simp only [Config.segbufBytes, Config.maxChunkBytes] at *
  omega

theorem EngineStep.memoriesCanonical {s t : State} (h : EngineStep s t) (hs : MemoriesCanonical s) :
    MemoriesCanonical t := by
  cases h with
  | hold | ioError | soiFirst | soiMissing | scanFirst | pairDropped | desync | fill | lengthHigh | headerInvalid => exact hs
  | soi => exact (MemoriesKept.soiPassed _).canonical hs
  | eoi _ _ _ h => exact (MemoriesKept.of_onEoi h).canonical hs
  | marker _ _ _ h => exact (MemoriesKept.of_onMarker h).canonical hs
  | lengthLow => exact (MemoriesKept.lengthLow _ _ _).canonical hs
  | payload _ _ h => exact MemoriesCanonical.of_bodyByte (s := State.taken _ _) hs h
  | chunk _ _ hd => exact hs.assemble _ _ (decodeChunk_payload_le hd)
  | recordByte => exact (MemoriesKept.recordStep _ _).canonical hs
  | profileByte => exact (MemoriesKept.emitFrom _ _ _ _).canonical hs

theorem MemoriesCanonical.writeReg {s : State} (h : MemoriesCanonical s) (offset : BitVec 8) (w : Word) :
    MemoriesCanonical (s.writeReg offset w) := by
  obtain ⟨-, hw⟩ | ⟨-, hw⟩ | hw := s.writeReg_cases offset w <;> rw [hw]
  · obtain ⟨-, hc⟩ | ⟨-, hc⟩ := s.writeCtrl_cases w <;> rw [hc]
    · exact ⟨rfl, rfl⟩
    · exact h
  · exact h
  · exact h

theorem MemoriesCanonical.of_command {i : Instr} {s t : State} (hs : MemoriesCanonical s) (hi : i.role = .command)
    (h : exec i s = .next t) : MemoriesCanonical t := by
  obtain hk | ⟨-, hseg, hslots⟩ := exec_command_memories hi h
  · exact hk.canonical hs
  · rw [MemoriesCanonical, hseg, hslots]
    exact ⟨hs.1, rfl⟩

/-- A word that is no command is rejected or an overrun, and neither touches a memory (rules R281, R333). -/
theorem MemoriesKept.of_issueUndecoded {s t : State} {w : Word} (h : s.issueUndecoded w = .next t) :
    MemoriesKept s t := by
  unfold State.issueUndecoded at h
  obtain ⟨-, hs⟩ | ⟨_, -, -, hs⟩ | ⟨-, -, hs⟩ := s.issue_cases w (fun _ => some .badOpcode) id <;>
    rw [hs] at h <;> cases h
  · exact {}
  · exact {}
  · exact {}

theorem MemoriesCanonical.noteIssue {s : State} (h : MemoriesCanonical s) (w : Word) :
    MemoriesCanonical (s.noteIssue w) := by
  rw [State.noteIssue_eq]; exact h

/-- Settles O12: the engine writes within SEGBUF and the slots, and no host's turn writes either but a command that clears
the slot file or a reset. -/
theorem stepKeepsMemoriesCanonical : Obligations.StepKeepsMemoriesCanonical := by
  intro s t hs h
  obtain ⟨h, -⟩ | ⟨rest, -, h⟩ | ⟨_, _, -, rfl⟩ | ⟨offset, w, rest, -, -, rfl⟩ | ⟨w, rest, i, -, hd, h⟩ |
    ⟨w, rest, _, -, -, h⟩ | ⟨_, _, -, -, rfl⟩ | ⟨_, _, _, _, -, -, -, rfl | rfl⟩ | ⟨_, -, rfl⟩ | ⟨_, -, -, -, rfl⟩ |
    ⟨_, -, rfl⟩ := step_next_cases h
  · exact (EngineStep.of_engineTurn h).memoriesCanonical hs
  · exact (EngineStep.of_engineTurn h).memoriesCanonical hs
  · exact hs
  · exact MemoriesCanonical.writeReg (s := { s with agenda := rest }) hs offset w
  · exact (MemoriesCanonical.noteIssue (s := { s with agenda := rest }) hs w).of_command (decodeCommand_role hd) h
  · exact (MemoriesKept.of_issueUndecoded h).canonical (MemoriesCanonical.noteIssue (s := { s with agenda := rest }) hs w)
  · exact hs
  · exact hs
  · exact hs
  · exact hs
  · exact hs
  · exact ⟨rfl, rfl⟩

end Sys2Proof.Machine
end

section
/-! SUPPORT. The invariant, cut by the phase of the engine: IDLE, reading the SOI pair, scanning, emitting a profile. Each
micro-step of the engine and each turn of the host's leads from a phase to a phase, so every step keeps it. -/

namespace Sys2Proof.Machine

/-! ### The invariant by the phase of the engine -/

/-- The part of the invariant that does not depend on what the engine is doing: the channels, the memories and the
assembler's counts. -/
structure Stores (s : State) : Prop where
  channels : ChannelsFit s
  memories : MemoriesCanonical s
  held : SegbufHeld s
  icc : IccCounts s

theorem State.Inv.stores {s : State} (h : s.Inv) : Stores s := ⟨h.channels, h.memories, h.held, h.icc⟩

/-- With the engine IDLE the invariant is about the stores and the result (rules R41, R45). -/
theorem Stores.inv_idle {s : State} (h : Stores s) (hb : s.busy = false) (he : s.estate = .idle) (herr : ErrMatches s)
    (hs : s.result.code = .error → s.sstate = .error) : s.Inv where
  busy := by simp [BusyMatches, hb, he]
  quiet := by simp [RunningQuiet, hb]
  err := herr
  channels := h.channels
  memories := h.memories
  op := by simp [OpMatches, he]
  session := by simpa [SessionMatches, he] using hs
  held := h.held
  reader := by simp [ReaderCounts, he]
  position := by simp [PositionMatches, he]
  record := by simp [RecordCursor, he]
  profile := by simp [ProfileCursor, he]
  icc := h.icc
  progress := by simp [IccProgress, hb, he]

theorem Stores.inv_finish {s : State} (h : Stores s) {code : ResultCode} {session : SState} (hc : code ≠ .error)
    (hi : code ≠ .illegalCommand) : (s.finish code session).Inv :=
  Stores.inv_idle { h with } rfl rfl (by simp [ErrMatches, hc, hi]) fun h => absurd h hc

theorem Stores.inv_raise {s : State} (h : Stores s) {err : ErrCode} {cause : IoCause} {code : Byte} (he : err ≠ .none)
    (hc : cause ≠ .none ↔ err = .ioError) (hq : cause ≠ .fault → code = 0#8) : (s.raise err cause code).Inv :=
  Stores.inv_idle { h with } rfl rfl ⟨by simp [he], hc, hq⟩ fun _ => rfl

theorem Stores.inv_raiseFormat {s : State} (h : Stores s) {err : ErrCode} (he : err ≠ .none) (hio : err ≠ .ioError) :
    (s.raiseFormat err).Inv :=
  h.inv_raise he (by simp [hio]) fun _ => rfl

/-- A command runs, and nothing of its end shows yet (rules R41, R42, R44). -/
structure Running (s : State) : Prop extends Stores s where
  busy : s.busy = true
  doneFlag : s.doneFlag = false
  result : s.result = { code := .none, err := .none, ioCause := .none, ioCode := 0 }

theorem State.Inv.running {s : State} (h : s.Inv) (he : s.estate ≠ .idle) : Running s :=
  have hb := h.busy.2 he
  { h.stores with busy := hb, doneFlag := (h.quiet hb).1, result := (h.quiet hb).2 }

theorem Running.errMatches {s : State} (h : Running s) : ErrMatches s := by simp [ErrMatches, h.result]

/-- The profile that GET_ICC gathers is incomplete (rules R258, R283). -/
def Gathering (s : State) : Prop :=
  s.op = .getIcc → s.iccActive = true → 1 ≤ s.iccFilled.toNat ∧ s.iccFilled.toNat < s.iccTotal.toNat

/-- The SOI pair is read (rules R286, R287). -/
structure Starting (s : State) : Prop extends Running s where
  op : s.op = .readSoi ∨ s.op = .getIcc
  sstate : s.sstate = .start
  gathering : Gathering s

theorem Starting.inv {s : State} (h : Starting s) (he : s.estate = .soi0 ∨ s.estate = .soi1) : s.Inv := by
  obtain he | he := he
  all_goals
    exact {
      busy := by simp [BusyMatches, h.busy, he]
      quiet := fun _ => ⟨h.doneFlag, h.result⟩
      err := h.errMatches
      channels := h.channels
      memories := h.memories
      op := by simpa [OpMatches, he] using h.op
      session := by simp [SessionMatches, he, h.result, h.sstate]
      held := h.held
      reader := by simp [ReaderCounts, he]
      position := by simp [PositionMatches, he]
      record := by simp [RecordCursor, he]
      profile := by simp [ProfileCursor, he]
      icc := h.icc
      progress := ⟨fun _ hop _ ha => h.gathering hop ha, by simp [he]⟩ }

theorem State.Inv.starting {s : State} (h : s.Inv) (he : s.estate = .soi0 ∨ s.estate = .soi1) : Starting s := by
  have hsession := h.session.1
  obtain he | he := he
  all_goals
    have hrun := h.running (by simp [he])
    exact { hrun with
      op := by simpa [OpMatches, he] using h.op
      sstate := by simpa [he] using hsession
      gathering := fun ho ha => h.progress.1 hrun.busy ho (by simp [he]) ha }

/-- The states past the SOI pair and before the emission of a profile (rule R31). -/
def EState.scans : EState → Bool
  | .scanB0 | .scanB1 | .lenHi | .lenLo | .body | .assemble | .emitSeg => true
  | .idle | .soi0 | .soi1 | .emitIcc => false

/-- A command scans, reads segments or emits records (rules R283, R284, R287). -/
structure Scanning (s : State) : Prop extends Running s where
  op : s.op = .getSegment ∨ s.op = .getCommonApp ∨ s.op = .getIcc
  sstate : s.sstate = .ready
  gathering : Gathering s

theorem State.Inv.scanning {s : State} (h : s.Inv) (he : s.estate.scans = true) : Scanning s := by
  have hrun := h.running fun hi => by simp [hi, EState.scans] at he
  have hemit : s.estate ≠ .emitIcc := fun hi => by simp [hi, EState.scans] at he
  have hop := h.op
  have hsession := h.session.1
  refine { hrun with op := ?_, sstate := ?_, gathering := fun ho ha => h.progress.1 hrun.busy ho hemit ha }
  · unfold OpMatches at hop
    cases hs : s.estate with
    | idle | soi0 | soi1 | emitIcc => simp [hs, EState.scans] at he
    | scanB0 | scanB1 | lenHi | lenLo | body => simpa [hs] using hop
    | assemble => exact .inr (.inr (by simpa [hs] using hop))
    | emitSeg => exact (by simpa [hs] using hop : s.op = .getSegment ∨ s.op = .getCommonApp).imp_right .inl
  · cases hs : s.estate with
    | idle | soi0 | soi1 | emitIcc => simp [hs, EState.scans] at he
    | scanB0 | scanB1 | lenHi | lenLo | body | assemble | emitSeg => simpa [hs] using hsession

/-- While a command scans, the invariant is about where its engine stands in the segment. -/
theorem Scanning.inv {s : State} (h : Scanning s) (he : s.estate.scans = true) (hop : OpMatches s) (hr : ReaderCounts s)
    (hp : PositionMatches s) (hc : RecordCursor s) : s.Inv where
  busy := iff_of_true h.busy fun hi => by simp [hi, EState.scans] at he
  quiet := fun _ => ⟨h.doneFlag, h.result⟩
  err := h.errMatches
  channels := h.channels
  memories := h.memories
  op := hop
  session := by
    refine ⟨?_, by simp [h.result]⟩
    cases hs : s.estate with
    | idle => trivial
    | soi0 | soi1 => simp [hs, EState.scans] at he
    | _ => exact h.sstate
  held := h.held
  reader := hr
  position := hp
  record := hc
  profile := fun hi => by simp [hi, EState.scans] at he
  icc := h.icc
  progress := ⟨fun _ hop _ ha => h.gathering hop ha, fun hi => by simp [hi, EState.scans] at he⟩

/-- Outside a segment's payload only POS is bound: in the length field it stands at its offset, or one past it (rule
R237). -/
theorem Scanning.inv_header {s : State} (h : Scanning s)
    (he : s.estate = .scanB0 ∨ s.estate = .scanB1 ∨ s.estate = .lenHi ∨ s.estate = .lenLo) (hp : PositionMatches s) :
    s.Inv := by
  obtain he | he | he | he := he
  all_goals
    exact h.inv (by simp [he, EState.scans]) (by simpa [OpMatches, he] using h.op) (by simp [ReaderCounts, he]) hp
      (by simp [RecordCursor, he])

theorem Scanning.inv_body {s : State} (h : Scanning s) (he : s.estate = .body) (h1 : 1 ≤ s.remain.toNat)
    (h2 : s.remain.toNat + 2 ≤ s.len.toNat) (hk : s.keep = true → s.seglen.toNat + s.remain.toNat + 2 = s.len.toNat)
    (hp : s.pos + s.remain.setWidth 32 = s.moff + s.len.setWidth 32) : s.Inv :=
  h.inv (by simp [he, EState.scans]) (by simpa [OpMatches, he] using h.op) ⟨fun _ => ⟨h1, h2, hk⟩, by simp [he]⟩
    (by simpa [PositionMatches, he] using hp) (by simp [RecordCursor, he])

theorem Scanning.inv_assemble {s : State} (h : Scanning s) (he : s.estate = .assemble) (hop : s.op = .getIcc)
    (hl : s.seglen.toNat + 2 = s.len.toNat) (hp : s.pos = s.moff + s.len.setWidth 32) : s.Inv :=
  h.inv (by simp [he, EState.scans]) (by simpa [OpMatches, he] using hop) ⟨by simp [he], fun _ => hl⟩
    (by simpa [PositionMatches, he] using hp) (by simp [RecordCursor, he])

theorem Scanning.inv_emitSeg {s : State} (h : Scanning s) (he : s.estate = .emitSeg) (hop : s.op ≠ .getIcc)
    (hl : s.seglen.toNat + 2 = s.len.toNat) (hp : s.pos = s.moff + s.len.setWidth 32) (hc : RecordCursor s) : s.Inv := by
  have hop : s.op = .getSegment ∨ s.op = .getCommonApp := by have := h.op; tauto
  exact h.inv (by simp [he, EState.scans]) (by simpa [OpMatches, he] using hop) ⟨by simp [he], fun _ => hl⟩
    (by simpa [PositionMatches, he] using hp) hc

/-- The profile is complete and emitted (rules R259, R260). -/
structure Emitting (s : State) : Prop extends Running s where
  op : s.op = .getIcc
  sstate : s.sstate = .ready
  complete : s.iccActive = true ∧ s.iccFilled = s.iccTotal

theorem State.Inv.emitting {s : State} (h : s.Inv) (he : s.estate = .emitIcc) : Emitting s where
  toRunning := h.running (by simp [he])
  op := by simpa [OpMatches, he] using h.op
  sstate := by simpa [SessionMatches, he] using h.session.1
  complete := h.progress.2 he

theorem Emitting.inv {s : State} (h : Emitting s) (he : s.estate = .emitIcc) (hc : ProfileCursor s) : s.Inv where
  busy := by simp [BusyMatches, h.busy, he]
  quiet := fun _ => ⟨h.doneFlag, h.result⟩
  err := h.errMatches
  channels := h.channels
  memories := h.memories
  op := by simpa [OpMatches, he] using h.op
  session := by simp [SessionMatches, he, h.result, h.sstate]
  held := h.held
  reader := by simp [ReaderCounts, he]
  position := by simp [PositionMatches, he]
  record := by simp [RecordCursor, he]
  profile := hc
  icc := h.icc
  progress := ⟨fun _ _ hne => absurd he hne, fun _ => h.complete⟩

/-- After a reset the engine is IDLE and the stores are empty (rules R70, R370). -/
theorem State.hardReset_inv (s : State) : s.hardReset.Inv :=
  Stores.inv_idle ⟨⟨Nat.zero_le _, Nat.zero_le _⟩, ⟨rfl, rfl⟩, nofun, ⟨rfl, rfl, Nat.zero_le _, nofun, fun _ => ⟨rfl, rfl⟩⟩⟩
    rfl rfl (by simp [ErrMatches, State.reset]) nofun

/-- Settles O10: the state after reset is what a reset makes of it. -/
theorem invariantHoldsAtReset : Obligations.InvariantHoldsAtReset := State.reset.hardReset_inv

/-! ### Reading and pushing -/

/-- A byte read leaves the channel within its depth. -/
theorem Stores.taken {s : State} (h : Stores s) {item : Item} {items : List Item} (hi : s.input = item :: items) :
    Stores (s.taken items) := by
  have hin := h.channels.1
  rw [hi, List.length_cons] at hin
  exact { h with channels := ⟨Nat.le_of_succ_le hin, h.channels.2⟩ }

theorem Scanning.taken {s : State} (h : Scanning s) {item : Item} {items : List Item} (hi : s.input = item :: items) :
    Scanning (s.taken items) := { h with channels := (h.toStores.taken hi).channels }

theorem Starting.taken {s : State} (h : Starting s) {item : Item} {items : List Item} (hi : s.input = item :: items) :
    Starting (s.taken items) := { h with channels := (h.toStores.taken hi).channels }

/-- A byte pushed into a channel with room leaves it within its depth (rule R102). -/
theorem Stores.pushed {s : State} (h : Stores s) (ho : s.outputRoom = true) (b : Byte) :
    Stores { s with output := s.output ++ [b] } :=
  { h with channels := ⟨h.channels.1, by simpa using State.outputRoom_iff.1 ho⟩ }

/-! ### The segment reader keeps the invariant -/

/-- At a segment's end all of a kept payload is held, and POS stands behind it (rules R236, R237). -/
theorem Scanning.inv_onSegmentEnd {s : State} (h : Scanning s) (hl : s.keep = true → s.seglen.toNat + 2 = s.len.toNat)
    (hp : s.pos = s.moff + s.len.setWidth 32) : s.onSegmentEnd.Inv := by
  cases hk : s.keep with
  | false =>
    rw [State.onSegmentEnd_discarded hk]
    exact Scanning.inv_header { h with } (.inl rfl) trivial
  | true =>
    by_cases hop : s.op = .getIcc
    · rw [State.onSegmentEnd_icc hk hop]
      exact Scanning.inv_assemble { h with } rfl hop (hl hk) hp
    · rw [State.onSegmentEnd_record hk hop]
      exact Scanning.inv_emitSeg { h with } rfl hop (hl hk) hp fun _ => ⟨rfl, rfl, rfl, by simp [State.startRecord]⟩

/-- One payload byte less remains (rules R65, R236). -/
theorem Scanning.inv_bodyCount {s : State} (h : Scanning s) (he : s.estate = .body) (h1 : 1 ≤ s.remain.toNat)
    (h2 : s.remain.toNat + 1 ≤ s.len.toNat) (hk : s.keep = true → s.seglen.toNat + s.remain.toNat + 1 = s.len.toNat)
    (hp : s.pos + (s.remain - 1).setWidth 32 = s.moff + s.len.setWidth 32) : s.bodyCount.Inv := by
  have hsub : (s.remain - 1).toNat = s.remain.toNat - 1 := by bv_omega
  unfold State.bodyCount
  dsimp only
  split_ifs with h0
  · have hr : s.remain.toNat = 1 := by rw [h0] at hsub; simp at hsub; omega
    rw [h0] at hp
    exact Scanning.inv_onSegmentEnd { h with } (fun hkeep => by have := hk hkeep; simp only; omega) (by simpa using hp)
  · have hr : (s.remain - 1).toNat ≠ 0 := fun hz => h0 (BitVec.eq_of_toNat_eq hz)
    exact Scanning.inv_body { h with } he (by simp only; omega) (by simp only; omega)
      (fun hkeep => by have := hk hkeep; simp only; omega) hp

/-- An entry written at SEGLEN is below the new SEGLEN, and so are the old ones (rules R67, R104). -/
theorem SegbufHeld.write {s : State} (h : SegbufHeld s) (v : Byte) :
    SegbufHeld { s with segbuf := s.segbuf.write s.seglen.toNat v, seglen := s.seglen + 1 } := by
  intro i hi
  have hi : i < (s.seglen + 1).toNat := hi
  rw [Memory.read_write]
  split_ifs with heq
  · rfl
  · exact h i (by bv_omega)

/-- BODY: what is kept and what remains add up to the payload (rules R234 to R236). -/
theorem State.Inv.of_payload {s t : State} {v : Byte} {items : List Item} (hs : s.Inv) (he : s.estate = .body)
    (hi : s.input = .byte v :: items) (h : (s.taken items).bodyByte v = .next t) : t.Inv := by
  have hscan := (hs.scanning (by simp [he, EState.scans])).taken hi
  obtain ⟨h1, h2, hk⟩ := hs.reader.1 he
  have hpos : s.pos + s.remain.setWidth 32 = s.moff + s.len.setWidth 32 := by
    simpa [PositionMatches, he] using hs.position
  have hpos' : s.pos + 1 + (s.remain - 1).setWidth 32 = s.moff + s.len.setWidth 32 := by bv_omega
  obtain ⟨hkeep, rfl⟩ | ⟨hkeep, hl, rfl⟩ := State.bodyByte_cases h
  · have hkeep : s.keep = false := hkeep
    exact hscan.inv_bodyCount he h1 (by simp only; omega) (by simp [hkeep]) hpos'
  · refine Scanning.inv_bodyCount
      { hscan with memories := ⟨Memory.wf_write v hscan.memories.1 hl, hscan.memories.2⟩, held := hscan.held.write v }
      he h1 (by simp only; omega) (fun hkeep => ?_) hpos'
    have hkeep := hk hkeep
    have hl : s.seglen.toNat < 65533 := hl
    have : (s.seglen + 1).toNat = s.seglen.toNat + 1 := by bv_omega
    simp only
    omega

/-- LEN_LO: a length of 2 ends the segment, a longer one starts its payload (rule R232). -/
theorem State.Inv.lengthLow {s : State} {v : Byte} {items : List Item} (hs : s.Inv) (he : s.estate = .lenLo)
    (hin : s.input = .byte v :: items) (hi : Byte) : ((s.taken items).lengthLow hi v).Inv := by
  have hscan := (hs.scanning (by simp [he, EState.scans])).taken hin
  have hpos : s.pos = s.moff + 1 := by simpa [PositionMatches, he] using hs.position
  obtain hlt | heq | hgt := Nat.lt_trichotomy (be16 hi v).toNat 2
  · rw [State.lengthLow_invalid hlt]
    refine Stores.inv_raiseFormat ?_ nofun nofun
    exact { hscan with }
  · rw [State.lengthLow_empty heq]
    refine Scanning.inv_onSegmentEnd { hscan with held := nofun } (fun _ => ?_) ?_
    · simp [heq]
    · simp only; bv_omega
  · rw [State.lengthLow_body hgt]
    have hlt := (be16 hi v).isLt
    refine Scanning.inv_body { hscan with held := nofun } rfl ?_ ?_ (fun _ => ?_) ?_
    · simp only [BitVec.toNat_ofNat]; omega
    · simp only [BitVec.toNat_ofNat]; omega
    · simp only [BitVec.toNat_ofNat]; simp; omega
    · simp only; bv_omega

/-! ### The scanner keeps the invariant -/

/-- EOI: every ending of a scanning command is one without an error (rule R283). -/
theorem Stores.inv_onEoi {s t : State} (hs : Stores s) (h : s.onEoi = .next t) : t.Inv := by
  obtain ⟨-, rfl⟩ | ⟨-, rfl⟩ | ⟨-, -, rfl⟩ | ⟨-, -, rfl⟩ := State.onEoi_next h <;> exact hs.inv_finish nofun nofun

/-- MARKER: a segment's length field comes next, at MOFF (rules R208, R284). -/
theorem Scanning.inv_onMarker {s t : State} {code : Byte} (hs : Scanning s) (hp : s.pos = s.moff)
    (h : s.onMarker code = .next t) : t.Inv := by
  obtain ⟨_, rfl⟩ := State.onMarker_next h
  exact Scanning.inv_header { hs with } (.inr (.inr (.inl rfl))) hp

/-- SOI: READ_SOI ends, GET_ICC scans on (rule R287). -/
theorem Starting.inv_soiPassed {s : State} (hs : Starting s) : s.soiPassed.Inv := by
  unfold State.soiPassed
  dsimp only
  split_ifs with hop
  · refine Stores.inv_finish ?_ nofun nofun
    exact { hs with }
  · exact Scanning.inv_header { hs with op := .inr (.inr (hs.op.resolve_left hop)), sstate := rfl } (.inl rfl) trivial

/-! ### The emission of a record keeps the invariant -/

/-- EMIT_SEG: the cursor moves on in the record, or the record is complete (rule R291). -/
theorem State.Inv.recordStep {s : State} (hs : s.Inv) (b : Byte) (he : s.estate = .emitSeg) (ho : s.outputRoom = true) :
    ({ s with output := s.output ++ [b] }.recordStep s.segSize).Inv := by
  have hrun := hs.scanning (by simp [he, EState.scans])
  have hscan : Scanning { s with output := s.output ++ [b] } := 
    { hrun with channels := (hrun.toStores.pushed ho b).channels }
  have hop : s.op = .getSegment ∨ s.op = .getCommonApp := by simpa [OpMatches, he] using hs.op
  have hpos : s.pos = s.moff + s.len.setWidth 32 := by simpa [PositionMatches, he] using hs.position
  obtain ⟨hm, hoff, hsize, hcur⟩ := hs.record he
  unfold State.recordStep
  dsimp only
  split_ifs with hend hseg
  · refine Stores.inv_finish ?_ nofun nofun
    exact { hscan with }
  · exact Scanning.inv_header { hscan with } (.inl rfl) trivial
  · refine Scanning.inv_emitSeg { hscan with } he (by obtain h | h := hop <;> simp [h]) (hs.reader.2 (.inr he)) hpos
      fun _ => ⟨hm, hoff, hsize, ?_⟩
    have : (s.eidx + 1).toNat = s.eidx.toNat + 1 := by bv_omega
    simp only
    omega

/-! ### The assembler keeps the invariant -/

theorem Stores.counted {s : State} (h : Stores s) (cnt : Byte) : Stores (s.counted cnt) := by
  unfold State.counted
  split_ifs with ha
  · exact h
  · obtain ⟨hfilled, hused, hcap, -, hempty⟩ := h.icc
    have hslots : s.slots = [] := (hempty (by simpa using ha)).2
    exact { h with icc := ⟨hfilled, hused, hcap, by simp [hslots], nofun⟩ }

/-- The bytes that ICC_USED is to count are those of the slots after the store (rules R57, R250). -/
theorem State.newUsed_eq_bytes {s : State} (hi : IccCounts s) (hm : MemoriesCanonical s) {seq : Byte} (hseq : seq ≠ 0#8)
    (payload : List Byte) : s.newUsed seq payload = SlotFile.bytes (cellSet seq.toNat payload s.slots) := by
  obtain ⟨-, hused, -⟩ := hi
  have hrise : keysRising s.slots = true := (Bool.and_eq_true_iff.1 hm.2).1
  have h1 : 1 ≤ seq.toNat := Nat.one_le_iff_ne_zero.2 fun h0 => hseq (BitVec.eq_of_toNat_eq h0)
  have hlen : s.slotLen seq.toNat = ((cellGet seq.toNat s.slots).getD []).length := by
    cases hc : cellGet seq.toNat s.slots <;> simp [State.slotLen, State.valid, State.slot, hc, h1]
  have hbytes := SlotFile.bytes_cellSet (k := seq.toNat) (bytes := payload) hrise
  rw [State.newUsed, hlen, hused]
  omega

/-- A stored chunk counts once, and its bytes in place of the old ones (rules R52, R57, R257). -/
theorem IccCounts.storeChunk {s : State} {seq : Byte} {payload : List Byte} (h : IccCounts s) (hm : MemoriesCanonical s)
    (hseq : seq ≠ 0#8) (ht : seq.toNat ≤ s.iccTotal.toNat) (hcap : s.newUsed seq payload ≤ s.params.iccMemBytes)
    (hl : payload.length ≤ Config.maxChunkBytes) (ha : s.iccActive = true) : IccCounts (s.storeChunk seq payload) := by
  have hwf := (hm.storeChunk hseq hl).2
  have hnew := State.newUsed_eq_bytes h hm hseq payload
  obtain ⟨hfilled, -, -, htotal, -⟩ := h
  have hrise : keysRising s.slots = true := (Bool.and_eq_true_iff.1 hm.2).1
  have h1 : 1 ≤ seq.toNat := Nat.one_le_iff_ne_zero.2 fun h0 => hseq (BitVec.eq_of_toNat_eq h0)
  have hcount := length_cellSet (k := seq.toNat) (v := payload) hrise
  rw [State.storeChunk_eq] at hwf ⊢
  have hmax := SlotFile.length_le hwf
  have hbytes := SlotFile.bytes_le hwf
  simp only [Config.maxChunks, Config.maxChunkBytes] at hmax hbytes
  have hused : (BitVec.ofNat 24 (s.newUsed seq payload)).toNat = s.newUsed seq payload := by
    rw [BitVec.toNat_ofNat, hnew]; omega
  refine ⟨?_, hused.trans hnew, hused.trans_le hcap, fun c hc => ?_, by simp [ha]⟩
  · have hvalid : s.valid seq.toNat = (cellGet seq.toNat s.slots).isSome := by simp [State.valid, h1]
    simp only [hvalid]
    split_ifs at hcount ⊢
    · omega
    · rw [hcount] at hmax ⊢
      bv_omega
  · obtain rfl | hc := mem_cellSet hc
    · exact ht
    · exact htotal c hc

/-- No more slots are filled than the count says (rule R258). -/
theorem IccCounts.filled_le {s : State} (h : IccCounts s) (hm : MemoriesCanonical s) :
    s.iccFilled.toNat ≤ s.iccTotal.toNat := by
  obtain ⟨hfilled, -, -, htotal, -⟩ := h
  obtain ⟨hrise, hwf⟩ := Bool.and_eq_true_iff.1 hm.2
  rw [hfilled]
  refine keysRising_length_le (a := 0) hrise fun c hc => ⟨?_, htotal c hc⟩
  exact (of_decide_eq_true (List.all_eq_true.1 hwf c hc)).1

theorem State.slot_mem_profileSlots {s : State} {q : List Byte} (h : q ∈ s.profileSlots) : ∃ k, q = s.slot k := by
  obtain ⟨i, -, rfl⟩ := List.mem_map.1 h
  exact ⟨i + 1, rfl⟩

theorem State.profileSlots_getElem? {s : State} {k : Nat} (h1 : 1 ≤ k) (h2 : k ≤ s.iccTotal.toNat) :
    s.profileSlots[k - 1]? = some (s.slot k) := by
  rw [State.profileSlots, List.getElem?_map, List.getElem?_range (by omega), Option.map_some, Nat.sub_add_cancel h1]

/-- From any place in a complete profile the emission goes on or ends (rules R259, R260). -/
theorem Emitting.inv_emitFrom {s : State} (h : Emitting s) {k i : Nat} (h1 : 1 ≤ k) (h2 : k ≤ s.iccTotal.toNat)
    (hi : i ≤ (s.slot k).length) : (s.emitFrom s.profileSlots k i).Inv := by
  have hlen : s.profileSlots.length ≤ Config.maxChunks := by
    rw [State.profileSlots_length, Config.maxChunks]; exact Nat.le_of_lt_succ s.iccTotal.isLt
  have hslots : ∀ q ∈ s.profileSlots, q.length ≤ Config.maxChunkBytes := fun q hq => by
    obtain ⟨k, rfl⟩ := State.slot_mem_profileSlots hq
    exact State.slot_length_le h.memories.2 k
  obtain ⟨-, hf⟩ | ⟨-, eslot, eidx, hf, -, hlo, ⟨q, hq, hin⟩, -⟩ :=
    s.emitFrom_cases hlen hslots h1 (State.profileSlots_getElem? h1 h2) hi <;> rw [hf]
  · refine Stores.inv_finish ?_ nofun nofun
    exact { h with }
  · have hhi : eslot.toNat ≤ s.iccTotal.toNat := by
      have := (List.getElem?_eq_some_iff.1 hq).1
      rw [State.profileSlots_length] at this
      omega
    obtain rfl := Option.some.inj (hq.symm.trans (State.profileSlots_getElem? hlo hhi))
    exact Emitting.inv { h with } rfl fun _ => ⟨hlo, hhi, hin⟩

/-- Step 7: a complete profile is emitted, an incomplete one is gathered on (rule R258). -/
theorem Running.inv_chunkStored {s : State} (h : Running s) (hop : s.op = .getIcc) (hst : s.sstate = .ready)
    (ha : s.iccActive = true) (h1 : 1 ≤ s.iccFilled.toNat) : s.chunkStored.Inv := by
  have hle := h.icc.filled_le h.memories
  unfold State.chunkStored
  split_ifs with heq
  · have hemit : Emitting s := { h with op := hop, sstate := hst, complete := ⟨ha, heq⟩ }
    exact hemit.inv_emitFrom le_rfl (heq ▸ h1) (Nat.zero_le _)
  · have hne : s.iccFilled.toNat ≠ s.iccTotal.toNat := fun h => heq (BitVec.eq_of_toNat_eq h)
    exact Scanning.inv_header
      { h with op := .inr (.inr hop), sstate := hst, gathering := fun _ _ => ⟨h1, by simp only; omega⟩ } (.inl rfl) trivial

theorem Running.counted {s : State} (h : Running s) (cnt : Byte) : Running (s.counted cnt) where
  toStores := h.toStores.counted cnt
  busy := by rw [State.counted_eq]; exact h.busy
  doneFlag := by rw [State.counted_eq]; exact h.doneFlag
  result := by rw [State.counted_eq]; exact h.result

/-- A slot just stored is one that is filled (rule R52). -/
theorem IccCounts.one_le_filled {s : State} {seq : Byte} {payload : List Byte}
    (h : IccCounts (s.storeChunk seq payload)) : 1 ≤ (s.storeChunk seq payload).iccFilled.toNat := by
  have hget : cellGet seq.toNat (s.storeChunk seq payload).slots = some payload := by
    rw [State.storeChunk_eq]; exact (cellGet_cellSet _ _ _ _).trans (if_pos rfl)
  rw [h.1]
  cases hs : (s.storeChunk seq payload).slots with
  | nil => rw [hs] at hget; cases hget
  | cons => exact Nat.le_add_left 1 _

/-- ASSEMBLE: a chunk is refused, or stored with its count (rules R253 to R258). -/
theorem Scanning.inv_assembled {s : State} (hs : Scanning s) (hop : s.op = .getIcc) {payload : List Byte} (seq cnt : Byte)
    (hl : payload.length ≤ Config.maxChunkBytes) : (s.assemble seq cnt payload).Inv := by
  obtain ⟨u, err, hu, herr, hr⟩ | ⟨hseq, ht, hcap, hr⟩ := s.assemble_cases seq cnt payload <;> rw [hr]
  · have hstores : Stores u := by
      obtain rfl | rfl := hu
      · exact hs.toStores
      · exact hs.toStores.counted cnt
    exact hstores.inv_raiseFormat (by rintro rfl; cases herr) (by rintro rfl; cases herr)
  · have hrun := hs.toRunning.counted cnt
    have hmem := hrun.memories.storeChunk hseq hl
    have hicc := hrun.icc.storeChunk hrun.memories hseq ht hcap hl (s.counted_iccActive cnt)
    have hfilled := hicc.one_le_filled
    rw [State.storeChunk_eq] at hmem hicc hfilled ⊢
    refine Running.inv_chunkStored { hrun with memories := hmem, icc := hicc } ?_ ?_ (s.counted_iccActive cnt) hfilled
    · rw [State.counted_eq]; exact hop
    · rw [State.counted_eq]; exact hs.sstate

/-- EMIT_ICC: the cursor moves on in the profile (rule R260). -/
theorem State.Inv.profileStep {s : State} (hs : s.Inv) (b : Byte) (he : s.estate = .emitIcc) (ho : s.outputRoom = true) :
    ({ s with output := s.output ++ [b] }.emitFrom s.profileSlots s.eslot.toNat (s.eidx.toNat + 1)).Inv := by
  have hemit := hs.emitting he
  obtain ⟨hlo, hhi, hin⟩ := hs.profile he
  have hpushed : Emitting { s with output := s.output ++ [b] } :=
    { hemit with channels := (hemit.toStores.pushed ho b).channels }
  exact hpushed.inv_emitFrom hlo hhi hin

/-! ### Every step keeps the invariant -/

/-- Every micro-step of the engine keeps the invariant, each by the lemma of its phase. -/
theorem EngineStep.inv {s t : State} (h : EngineStep s t) (hs : s.Inv) : t.Inv := by
  have scanning {e : EState} (he : s.estate = e) (hsc : e.scans = true) : Scanning s := hs.scanning (he ▸ hsc)
  cases h with
  | hold => exact hs
  | ioError hr hi hc hq =>
    refine Stores.inv_raise ?_ nofun (iff_of_true hc rfl) hq
    exact { hs.stores.taken hi with }
  | soiFirst he hi => exact Starting.inv { (hs.starting (.inl he)).taken hi with } (.inr rfl)
  | soiMissing he hi => exact ((hs.starting (.inr he)).taken hi).toStores.inv_raiseFormat nofun nofun
  | soi he hi => exact ((hs.starting (.inr he)).taken hi).inv_soiPassed
  | scanFirst he hi => exact Scanning.inv_header { (scanning he rfl).taken hi with } (.inr (.inl rfl)) trivial
  | pairDropped he hi => exact Scanning.inv_header { (scanning he rfl).taken hi with } (.inl rfl) trivial
  | desync he hi | fill he hi => exact Scanning.inv_header { (scanning he rfl).taken hi with } (.inr (.inl rfl)) trivial
  | eoi he hi _ h =>
    refine Stores.inv_onEoi ?_ h
    exact { hs.stores.taken hi with }
  | marker he hi _ h =>
    refine Scanning.inv_onMarker ?_ ?_ h
    · exact { (scanning he rfl).taken hi with }
    · rfl
  | lengthHigh he hi =>
    have hpos : s.pos = s.moff := by simpa [PositionMatches, he] using hs.position
    exact Scanning.inv_header { (scanning he rfl).taken hi with } (.inr (.inr (.inr rfl))) (congrArg (· + 1) hpos)
  | lengthLow he hi => exact hs.lengthLow he hi _
  | payload he hi h => exact hs.of_payload he hi h
  | headerInvalid he => exact hs.stores.inv_raiseFormat nofun nofun
  | chunk he _ hd =>
    have hop : s.op = .getIcc := by simpa [OpMatches, he] using hs.op
    exact (scanning he rfl).inv_assembled hop _ _ (decodeChunk_payload_le hd)
  | recordByte he ho => exact hs.recordStep _ he ho
  | profileByte he ho _ => exact hs.profileStep _ he ho

/-- With BUSY 0 the engine is IDLE (rule R41). -/
theorem State.Inv.idle {s : State} (hs : s.Inv) (hb : s.busy = false) : s.estate = .idle := by
  by_contra he
  rw [hs.busy.2 he] at hb
  cases hb

/-- A rejection records an illegal command (rules R44, R281). -/
theorem State.Inv.reject {s : State} (hs : s.Inv) (hb : s.busy = false) {err : ErrCode}
    (he : err = .badOpcode ∨ err = .badState) : (s.reject err).Inv :=
  Stores.inv_idle { hs.stores with } hb (hs.idle hb) (by obtain rfl | rfl := he <;> simp [ErrMatches]) nofun

theorem commandLegality_some {i : Instr} {session : SState} {err : ErrCode} (h : commandLegality i session = some err) :
    err = .badState := by
  cases i with
  | readSoi | getIcc | getSegment | getCommonApp =>
    simp only [commandLegality, legalInStart, legalInReady] at h
    split_ifs at h
    exact (Option.some.inj h).symm
  | _ => cases h

/-- An accepted command opens a session or starts the engine (rules R280, R285). -/
theorem State.Inv.commandEffect {i : Instr} {s : State} (hs : s.Inv) (hi : i.role = .command) (hb : s.busy = false)
    (hl : commandLegality i s.sstate = none) : (commandEffect i s).Inv := by
  cases i with
  | openSession =>
    refine Stores.inv_idle { hs.stores with channels := ?_, memories := ⟨hs.memories.1, rfl⟩, icc := ?_ } hb (hs.idle hb) ?_
      nofun
    · exact ⟨Nat.zero_le _, Nat.zero_le _⟩
    · exact ⟨rfl, rfl, Nat.zero_le _, nofun, fun _ => ⟨rfl, rfl⟩⟩
    · simp [ErrMatches, Machine.commandEffect]
  | readSoi =>
    exact Starting.inv { hs.stores with
      busy := rfl, doneFlag := rfl, result := rfl, op := .inl rfl, sstate := legalInStart_none.1 hl
      gathering := nofun } (.inl rfl)
  | getIcc =>
    exact Starting.inv { hs.stores with
      memories := ⟨hs.memories.1, rfl⟩, icc := ⟨rfl, rfl, Nat.zero_le _, nofun, fun _ => ⟨rfl, rfl⟩⟩
      busy := rfl, doneFlag := rfl, result := rfl, op := .inr rfl, sstate := legalInStart_none.1 hl
      gathering := fun _ ha => by cases ha } (.inl rfl)
  | getSegment target =>
    exact Scanning.inv_header { hs.stores with
      busy := rfl, doneFlag := rfl, result := rfl, op := .inl rfl, sstate := legalInReady_none.1 hl
      gathering := nofun } (.inl rfl) trivial
  | getCommonApp =>
    exact Scanning.inv_header { hs.stores with
      busy := rfl, doneFlag := rfl, result := rfl, op := .inr (.inl rfl), sstate := legalInReady_none.1 hl
      gathering := nofun } (.inl rfl) trivial
  | _ => cases hi

/-- A CMD write keeps the invariant, as an overrun, a rejection or an acceptance (rules R280, R281, R333). -/
theorem State.Inv.of_issue {s t : State} {w : Word} {legal : SState → Option ErrCode} {effect : State → State} (hs : s.Inv)
    (hlegal : ∀ session err, legal session = some err → err = .badOpcode ∨ err = .badState)
    (heffect : ∀ u : State, u.Inv → u.busy = false → legal u.sstate = none → (effect u).Inv)
    (h : s.issue w legal effect = .next t) : t.Inv := by
  have hlast : State.Inv { s with cmdLast := w } := { hs with }
  obtain ⟨-, hi⟩ | ⟨err, hb, herr, hi⟩ | ⟨hb, hl, hi⟩ := s.issue_cases w legal effect <;> rw [hi] at h <;> cases h
  · exact { hs with }
  · exact hlast.reject hb (hlegal _ _ herr)
  · exact heffect _ hlast hb hl

theorem State.Inv.of_command {i : Instr} {s t : State} (hs : s.Inv) (hi : i.role = .command) (h : exec i s = .next t) :
    t.Inv := by
  rw [exec_command hi] at h
  exact hs.of_issue (fun _ _ he => .inr (commandLegality_some he)) (fun _ hu hb hl => hu.commandEffect hi hb hl) h

theorem State.Inv.of_issueUndecoded {s t : State} {w : Word} (hs : s.Inv) (h : s.issueUndecoded w = .next t) : t.Inv :=
  hs.of_issue (fun _ _ he => .inl (Option.some.inj he).symm) (fun _ _ _ hl => by cases hl) h

theorem State.Inv.noteIssue {s : State} (hs : s.Inv) (w : Word) : (s.noteIssue w).Inv := by
  rw [State.noteIssue_eq]; exact { hs with }

theorem State.Inv.writeReg {s : State} (hs : s.Inv) (offset : BitVec 8) (w : Word) : (s.writeReg offset w).Inv := by
  obtain ⟨-, hw⟩ | ⟨-, hw⟩ | hw := s.writeReg_cases offset w <;> rw [hw]
  · obtain ⟨-, hc⟩ | ⟨-, hc⟩ := s.writeCtrl_cases w <;> rw [hc]
    · exact s.hardReset_inv
    · exact { hs with }
  · refine { hs with quiet := fun hb => ?_ }
    obtain ⟨hd, hr⟩ := hs.quiet hb
    exact ⟨by simp [State.writeStatus, hd], hr⟩
  · exact hs

/-- A byte taken off the output channel leaves it within its depth (rule R102). -/
theorem State.Inv.popped {s : State} (hs : s.Inv) {b : Byte} {bytes : List Byte} (ho : s.output = b :: bytes)
    (agenda : List Move) (seen : List Seen) : State.Inv { s with agenda := agenda, output := bytes, seen := seen } := by
  have hout := hs.channels.2
  rw [ho, List.length_cons] at hout
  exact { hs with channels := ⟨hs.channels.1, Nat.le_of_succ_le hout⟩ }

/-- Settles O11: the engine's turn by its micro-steps, each turn of the host's by the registers and channels it touches. -/
theorem stepKeepsInvariant : Obligations.StepKeepsInvariant := by
  intro s t hs h
  have planned (rest : List Move) : State.Inv { s with agenda := rest } := hs.agenda_seen rest s.seen
  obtain ⟨h, -⟩ | ⟨rest, -, h⟩ | ⟨_, _, -, rfl⟩ | ⟨offset, w, rest, -, -, rfl⟩ | ⟨w, rest, i, -, hd, h⟩ |
    ⟨w, rest, _, -, -, h⟩ | ⟨item, rest, -, hroom, rfl⟩ | ⟨_, _, _, _, -, -, ho, rfl | rfl⟩ | ⟨rest, -, rfl⟩ |
    ⟨_, -, -, -, rfl⟩ | ⟨rest, -, rfl⟩ := step_next_cases h
  · exact (EngineStep.of_engineTurn h).inv hs
  · exact (EngineStep.of_engineTurn h).inv (planned rest)
  · exact hs.agenda_seen _ _
  · exact (planned rest).writeReg offset w
  · exact ((planned rest).noteIssue w).of_command (decodeCommand_role hd) h
  · exact ((planned rest).noteIssue w).of_issueUndecoded h
  · exact { hs with channels := ⟨by simpa using State.inputRoom_iff.1 hroom, hs.channels.2⟩ }
  · exact hs.popped ho _ _
  · exact hs.popped ho _ _
  · exact planned rest
  · exact hs.agenda_seen _ _
  · exact State.hardReset_inv _

end Sys2Proof.Machine
end

section
/-! SUPPORT. The register window and the reset: the bits of each register's word, what a write to one does, and the state a
reset leaves; and the statements on them. -/

namespace Sys2Proof.Machine

/-! ### Fields of a word put together from its fields -/

theorem getLsbD_append_low {v w i : Nat} {x : BitVec v} {y : BitVec w} (h : i < w) : (x ++ y).getLsbD i = y.getLsbD i := by
  rw [BitVec.getLsbD_append, if_pos h]

theorem getLsbD_append_high {v w i : Nat} {x : BitVec v} {y : BitVec w} (h : w ≤ i) :
    (x ++ y).getLsbD i = x.getLsbD (i - w) := by
  rw [BitVec.getLsbD_append, if_neg (Nat.not_lt.2 h)]

/-! ### CTRL (rule R36) -/

theorem State.ctrlWord_irqEn (s : State) : s.ctrlWord.getLsbD 1 = s.irqEn := by
  refine (getLsbD_append_high (by decide)).trans ?_
  refine (getLsbD_append_low (by decide)).trans ?_
  simp

theorem State.ctrlWord_reserved (s : State) {i : Nat} (hi : i ≠ 1) : s.ctrlWord.getLsbD i = false := by
  by_cases h0 : i = 0
  · subst h0
    exact getLsbD_append_low (by decide)
  · refine (getLsbD_append_high (by omega)).trans ?_
    refine (getLsbD_append_high (by omega)).trans ?_
    exact BitVec.getLsbD_zero

/-! ### STATUS (rules R41 to R43, R47) -/

theorem State.statusWord_busy (s : State) : s.statusWord.getLsbD 0 = s.busy := by
  refine (getLsbD_append_low (by decide)).trans ?_
  simp

theorem State.statusWord_doneFlag (s : State) : s.statusWord.getLsbD 1 = s.doneFlag := by
  refine (getLsbD_append_high (by decide)).trans ?_
  refine (getLsbD_append_low (by decide)).trans ?_
  simp

theorem State.statusWord_cmdOverrun (s : State) : s.statusWord.getLsbD 2 = s.cmdOverrun := by
  iterate 2 refine (getLsbD_append_high (by decide)).trans ?_
  refine (getLsbD_append_low (by decide)).trans ?_
  simp

theorem State.statusWord_sstate (s : State) : s.statusWord.extractLsb' 4 3 = s.sstate.code := by
  iterate 4 refine (BitVec.extractLsb'_append_eq_of_le (by decide)).trans ?_
  exact BitVec.extractLsb'_append_eq_right

theorem State.statusWord_reserved (s : State) {i : Nat} (hi : i = 3 ∨ 7 ≤ i) : s.statusWord.getLsbD i = false := by
  iterate 3 refine (getLsbD_append_high (by omega)).trans ?_
  obtain rfl | hi := hi
  · exact getLsbD_append_low (by decide)
  · iterate 2 refine (getLsbD_append_high (by omega)).trans ?_
    exact BitVec.getLsbD_zero

/-! ### RESULT (rules R44 to R46); the place of its code is `State.resultWord_code` -/

theorem State.resultWord_err (s : State) : s.resultWord.extractLsb' 4 4 = s.result.err.code := by
  refine (BitVec.extractLsb'_append_eq_of_le (by decide)).trans ?_
  exact BitVec.extractLsb'_append_eq_right

theorem State.resultWord_ioCause (s : State) : s.resultWord.extractLsb' 8 2 = s.result.ioCause.code := by
  iterate 2 refine (BitVec.extractLsb'_append_eq_of_le (by decide)).trans ?_
  exact BitVec.extractLsb'_append_eq_right

theorem State.resultWord_ioCode (s : State) : s.resultWord.extractLsb' 16 8 = s.result.ioCode := by
  iterate 4 refine (BitVec.extractLsb'_append_eq_of_le (by decide)).trans ?_
  exact BitVec.extractLsb'_append_eq_right

theorem State.resultWord_reserved (s : State) {i : Nat} (hi : 10 ≤ i ∧ i ≤ 15 ∨ 24 ≤ i) :
    s.resultWord.getLsbD i = false := by
  iterate 3 refine (getLsbD_append_high (by omega)).trans ?_
  obtain hi | hi := hi
  · exact (getLsbD_append_low (by omega)).trans BitVec.getLsbD_zero
  · iterate 2 refine (getLsbD_append_high (by omega)).trans ?_
    exact BitVec.getLsbD_zero

/-! ### SEG_INFO, ICC_STATE and ICC_LEN (rules R49, R52, R53) -/

theorem State.segInfoWord_fields (s : State) :
    s.segInfoWord.extractLsb' 0 8 = s.segMarker ∧ s.segInfoWord.extractLsb' 8 8 = 0#8 ∧
      s.segInfoWord.extractLsb' 16 16 = s.segSize := by
  refine ⟨BitVec.extractLsb'_append_eq_right, ?_, ?_⟩
  · exact (BitVec.extractLsb'_append_eq_of_le (by decide)).trans BitVec.extractLsb'_append_eq_right
  · refine (BitVec.extractLsb'_append_eq_of_le (by decide)).trans ?_
    exact BitVec.extractLsb'_append_eq_left

theorem State.iccStateWord_counts (s : State) :
    s.iccStateWord.extractLsb' 0 8 = s.iccTotal ∧ s.iccStateWord.extractLsb' 8 8 = s.iccFilled := by
  refine ⟨BitVec.extractLsb'_append_eq_right, ?_⟩
  exact (BitVec.extractLsb'_append_eq_of_le (by decide)).trans BitVec.extractLsb'_append_eq_right

theorem State.iccStateWord_iccActive (s : State) :
    s.iccStateWord.getLsbD 16 = s.iccActive ∧ s.iccStateWord.extractLsb' 17 15 = 0#15 := by
  constructor
  · iterate 2 refine (getLsbD_append_high (by decide)).trans ?_
    refine (getLsbD_append_low (by decide)).trans ?_
    simp
  · iterate 2 refine (BitVec.extractLsb'_append_eq_of_le (by decide)).trans ?_
    exact BitVec.extractLsb'_append_eq_left

theorem State.iccLenWord_iccUsed (s : State) : s.iccLenWord.extractLsb' 0 24 = s.iccUsed :=
  BitVec.extractLsb'_append_eq_right

theorem State.iccLenWord_reserved (s : State) : s.iccLenWord.extractLsb' 24 8 = 0#8 :=
  BitVec.extractLsb'_append_eq_left

/-! ### SLOT_VALID0 to SLOT_VALID7 (rule R54) -/

/-- The offset of SLOT_VALIDk (rule R34). -/
def slotValidOffset (k : Nat) : BitVec 8 := BitVec.ofNat 8 (0x40 + 4 * k)

theorem slotValidOffset_toNat {k : Nat} (hk : k < 8) : (slotValidOffset k).toNat = 0x40 + 4 * k := by
  rw [slotValidOffset, BitVec.toNat_ofNat]
  omega

theorem State.readReg_slotValid (s : State) {k : Nat} (hk : k < 8) :
    s.readReg (slotValidOffset k) = s.slotValidWord k := by
  match k, hk with
  | 0, _ | 1, _ | 2, _ | 3, _ | 4, _ | 5, _ | 6, _ | 7, _ => rfl

/-! ### Reads and writes as turns of the host -/

theorem step_read {s : State} {offset : BitVec 8} {rest : List Move} (ho : offset.toNat % 4 = 0)
    (ha : s.agenda = .read offset .word :: rest) :
    step s = .next { s with agenda := rest, seen := s.seen ++ [.value offset (s.readReg offset)] } :=
  step_of_answer ((fetch_read ha).trans (hostRead_word ho))

theorem step_writeReg {s : State} {offset : BitVec 8} {w : Word} {rest : List Move} (ho : offset.toNat % 4 = 0)
    (hc : offset ≠ cmdOffset) (ha : s.agenda = .write offset .word w :: rest) :
    step s = .next ({ s with agenda := rest }.writeReg offset w) :=
  step_of_answer ((fetch_write ha).trans (hostWrite_register ho hc))

/-- A write to a read-only or reserved offset has no effect (rules R35, R114). -/
theorem step_write_other {s : State} {offset : BitVec 8} {w : Word} {rest : List Move} (ho : offset.toNat % 4 = 0)
    (hctrl : offset ≠ 0x00#8) (hcmd : offset ≠ 0x04#8) (hstatus : offset ≠ 0x08#8)
    (ha : s.agenda = .write offset .word w :: rest) : step s = .next { s with agenda := rest } := by
  rw [step_writeReg ho hcmd ha]
  obtain ⟨h, -⟩ | ⟨h, -⟩ | h := State.writeReg_cases { s with agenda := rest } offset w
  · exact absurd h hctrl
  · exact absurd h hstatus
  · rw [h]

/-- The ranges without a register (rule R34). -/
theorem State.readReg_reserved (s : State) {offset : BitVec 8}
    (h : 0x28 ≤ offset.toNat ∧ offset.toNat ≤ 0x3C ∨ 0x60 ≤ offset.toNat) : s.readReg offset = 0#32 := by
  unfold State.readReg
  split
  case h_19 => rfl
  all_goals omega

/-! ### The state a reset leaves -/

/-- A reset gives every piece of state the value of rule R70. -/
theorem State.hardReset_atReset (s : State) : s.hardReset.AtReset := by
  have hslots : ∀ k, s.hardReset.valid k = false ∧ s.hardReset.slot k = [] := fun k => by
    simp [State.valid, State.slot, State.reset, cellGet]
  simp only [State.AtReset, hslots]
  simp [State.irq, State.reset]

theorem State.reset_readReg (offset : BitVec 8) : State.reset.readReg offset = 0#32 := by
  unfold State.readReg
  split <;> rfl

/-! ### The statements on the register window and the reset -/

/-- Settles O8: the state after reset is what a reset makes of it; its registers and its first commands are evaluated. -/
theorem resetValues : Obligations.ResetValues := by
  refine ⟨State.reset.hardReset_atReset, State.reset_readReg, fun i hi => ?_⟩
  obtain rfl | rfl | rfl := hi
  · exact ⟨_, rfl, nofun, nofun⟩
  · exact ⟨_, rfl, nofun, nofun⟩
  · exact ⟨_, rfl, nofun, nofun⟩

/-- Settles O9: the reset input and CTRL's SRST both come to `State.hardReset`. -/
theorem resetFromAnyState : Obligations.ResetFromAnyState := by
  intro s rest w h
  refine ⟨{ s with agenda := rest }.hardReset, ?_, State.hardReset_atReset _, rfl, rfl, rfl⟩
  obtain ha | ⟨ha, hw⟩ := h
  · exact step_of_answer (fetch_reset ha)
  · rw [step_writeReg rfl (by decide) ha]
    exact congrArg _ (if_pos hw)

/-- Settles O18: a read and a write by the law of its turn, the reserved ranges by `State.readReg_reserved`. -/
theorem registerAccesses : Obligations.RegisterAccesses :=
  fun s _ _ ho => ⟨step_read ho, fun _ ha hctrl hcmd hstatus => step_write_other ho hctrl hcmd hstatus ha,
    s.readReg_reserved⟩

/-- Settles O19: each field of STATUS at its place, and the write that clears DONE and CMD_OVERRUN. -/
theorem statusRegister : Obligations.StatusRegister := by
  intro s
  refine ⟨s.statusWord_busy, s.statusWord_doneFlag, s.statusWord_cmdOverrun, s.statusWord_reserved (.inl rfl), ?_,
    fun i hi => s.statusWord_reserved (.inr hi), rfl, fun w rest ha => ?_⟩
  · refine (congrArg BitVec.toNat s.statusWord_sstate).trans ?_
    cases s.sstate <;> rfl
  · rw [step_writeReg rfl (by decide) ha]
    change Host.Outcome.next (State.writeStatus _ w) = _
    rw [State.writeStatus]
    cases w.getLsbD 1 <;> cases w.getLsbD 2 <;> simp

/-- Settles O20: each field of RESULT at its place, with its codes. -/
theorem resultRegister : Obligations.ResultRegister := by
  intro s
  refine ⟨?_, ?_, ?_, s.resultWord_ioCode, fun i hi => s.resultWord_reserved hi⟩
  · refine (congrArg BitVec.toNat s.resultWord_code).trans ?_
    cases s.result.code <;> rfl
  · refine (congrArg BitVec.toNat s.resultWord_err).trans ?_
    cases s.result.err <;> rfl
  · refine (congrArg BitVec.toNat s.resultWord_ioCause).trans ?_
    cases s.result.ioCause <;> rfl

/-- Settles O21: each field at its place. -/
theorem observationRegisters : Obligations.ObservationRegisters := by
  intro s
  obtain ⟨hmarker, hzero, hsize⟩ := s.segInfoWord_fields
  obtain ⟨htotal, hfilled⟩ := s.iccStateWord_counts
  obtain ⟨hactive, hreserved⟩ := s.iccStateWord_iccActive
  exact ⟨s.ctrlWord_irqEn, fun i hi => s.ctrlWord_reserved hi, rfl, rfl, hmarker, hzero, hsize, rfl, rfl, htotal, hfilled,
    hactive, hreserved, s.iccLenWord_iccUsed, s.iccLenWord_reserved⟩

/-- Settles O22: SLOT_VALIDk is read as its word of VALID bits, and a write to it is one to a read-only offset. -/
theorem slotValidRegisters : Obligations.SlotValidRegisters := by
  intro s k i hk hi
  have bit {j n : Nat} (hj : j < 8) (hn : n < 32) : (s.readReg (slotValidOffset j)).getLsbD n = s.valid (32 * j + n) := by
    rw [s.readReg_slotValid hj, State.slotValidWord, wordOfBits_getLsbD _ hn]
  refine ⟨fun h1 => ?_, ?_, State.reset_readReg _, fun w rest ha => ?_⟩
  · rw [← slotValidOffset, bit hk hi, State.valid, decide_eq_true h1, Bool.true_and]
  · exact (bit (j := 0) (n := 0) (by decide) (by decide)).trans s.valid_zero
  · have ho : (slotValidOffset k).toNat = 0x40 + 4 * k := slotValidOffset_toNat hk
    have hne {n : BitVec 8} (hn : n.toNat < 0x40) : slotValidOffset k ≠ n := fun h => by rw [h] at ho; omega
    exact step_write_other (by omega) (hne (by decide)) (hne (by decide)) (hne (by decide)) ha

/-- Settles O23: the interrupt line by the two bits it is made of, the write by CTRL's law. -/
theorem interruptLine : Obligations.InterruptLine := by
  intro s
  constructor
  · rw [show (s.readReg 0x00#8).getLsbD 1 = s.irqEn from s.ctrlWord_irqEn,
      show (s.readReg 0x08#8).getLsbD 1 = s.doneFlag from s.statusWord_doneFlag, State.irq, Bool.and_eq_true]
  · intro w rest ha hw
    rw [step_writeReg rfl (by decide) ha]
    exact congrArg _ (if_neg (Bool.eq_false_iff.1 hw))

end Sys2Proof.Machine
end

section
/-! SUPPORT. What follows from the micro-steps and the invariant: how a command can end, when a profile is complete, what a
step refuses and what CMD_LAST holds. -/

namespace Sys2Proof.Machine

/-! ### What a step refuses (rule R35 (a)) -/

theorem State.issue_not_refused {s : State} {w : Word} {legal : SState → Option ErrCode} {effect : State → State}
    {r : Refusal} : s.issue w legal effect ≠ .refused r := by
  obtain ⟨-, h⟩ | ⟨_, -, -, h⟩ | ⟨-, -, h⟩ := s.issue_cases w legal effect <;> rw [h] <;> exact nofun

theorem State.issueUndecoded_not_refused {s : State} {w : Word} {r : Refusal} : s.issueUndecoded w ≠ .refused r :=
  State.issue_not_refused

theorem State.outPush_not_refused {s : State} {b : Byte} {rest : State → State} {r : Refusal} :
    s.outPush b rest ≠ .refused r := by
  obtain ⟨-, h⟩ | ⟨-, h⟩ := s.outPush_cases b rest <;> rw [h] <;> exact nofun

theorem State.onEoi_not_refused {s : State} {r : Refusal} : s.onEoi ≠ .refused r := by
  unfold State.onEoi; split <;> exact nofun

theorem State.onMarker_not_refused {s : State} {code : Byte} {r : Refusal} : s.onMarker code ≠ .refused r := by
  unfold State.onMarker; split <;> exact nofun

theorem State.bodyByte_not_refused {s : State} {v : Byte} {r : Refusal} : s.bodyByte v ≠ .refused r := by
  unfold State.bodyByte; split_ifs <;> exact nofun

/-- Every instruction has its meaning. -/
theorem exec_not_refused {i : Instr} {s : State} {r : Refusal} : exec i s ≠ .refused r := by
  cases i with
  | openSession | readSoi | getSegment | getCommonApp | getIcc =>
    rw [exec_command rfl]; exact State.issue_not_refused
  | desync | stuff | fill | rst | soi | iccChunk => exact nofun
  | eoi => exact State.onEoi_not_refused (s := s)
  | marker code => exact State.onMarker_not_refused (s := { s with mkCode := code, moff := s.pos })
  | segment part =>
    cases part with
    | lengthHigh | lengthLow => exact nofun
    | payload v => exact State.bodyByte_not_refused (s := s)
  | segmentRecord marker offset size payload =>
    cases h : recordByte marker offset size payload s.eidx.toNat with
    | none => rw [exec_segmentRecord_none h]; exact nofun
    | some b => rw [exec_segmentRecord_some h]; exact State.outPush_not_refused
  | iccProfileOut slots =>
    cases h : profileByte slots s.eslot.toNat s.eidx.toNat with
    | none => rw [exec_iccProfileOut_none h]; exact nofun
    | some b => rw [exec_iccProfileOut_some h]; exact State.outPush_not_refused

theorem run_not_refused {i : Instr} {s : State} {r : Refusal} : (Fetched.run i s).outcome ≠ .refused r :=
  exec_not_refused

theorem State.readByte_not_refused {s : State} {k : Byte → State → Fetched} {r : Refusal}
    (hk : ∀ v u, (k v u).outcome ≠ .refused r) : (s.readByte k).outcome ≠ .refused r := by
  obtain ⟨-, h⟩ | ⟨v, items, -, h⟩ | ⟨_, -, h⟩ | ⟨_, _, -, h⟩ := s.readByte_cases k <;> rw [h]
  · exact nofun
  · exact hk v _
  · exact nofun
  · exact nofun

theorem State.fetchSoi_not_refused {s : State} {v : Byte} {r : Refusal} : (s.fetchSoi v).outcome ≠ .refused r := by
  unfold State.fetchSoi
  split
  · exact run_not_refused
  · exact nofun

theorem State.fetchChunk_not_refused {s : State} {r : Refusal} : s.fetchChunk.outcome ≠ .refused r := by
  unfold State.fetchChunk
  split
  · exact nofun
  · split
    · exact run_not_refused
    · exact nofun

theorem State.fetchRecord_not_refused {s : State} {r : Refusal} : s.fetchRecord.outcome ≠ .refused r := by
  unfold State.fetchRecord
  split
  · exact nofun
  · exact run_not_refused

theorem engineTurn_not_refused {s : State} {r : Refusal} : s.engineTurn.outcome ≠ .refused r := by
  unfold State.engineTurn
  split
  · exact nofun
  · exact State.readByte_not_refused fun _ _ => nofun
  · exact State.readByte_not_refused fun _ _ => State.fetchSoi_not_refused
  · exact State.readByte_not_refused fun _ _ => nofun
  · exact State.readByte_not_refused fun _ _ => run_not_refused
  · exact State.readByte_not_refused fun _ _ => run_not_refused
  · exact State.readByte_not_refused fun _ _ => run_not_refused
  · exact State.readByte_not_refused fun _ _ => run_not_refused
  · exact State.fetchChunk_not_refused
  · exact State.fetchRecord_not_refused
  · exact run_not_refused

theorem State.hostRead_refused {s : State} {offset : BitVec 8} {width : Width} {r : Refusal} :
    (s.hostRead offset width).outcome = .refused r ↔ accessRefusal offset width = some r := by
  unfold State.hostRead
  split
  · simp [*, Fetched.outcome]
  · simp [*, Fetched.outcome]

theorem State.hostWrite_refused {s : State} {offset : BitVec 8} {width : Width} {w : Word} {r : Refusal} :
    (s.hostWrite offset width w).outcome = .refused r ↔ accessRefusal offset width = some r := by
  unfold State.hostWrite
  split
  · simp [*, Fetched.outcome]
  · rename_i hnone
    refine iff_of_false ?_ (by simp [hnone])
    split_ifs
    · split
      · exact run_not_refused
      · exact State.issueUndecoded_not_refused
    · exact nofun

/-- A step is refused exactly as the host's access at the head of the agenda is. -/
theorem step_refused {s : State} {r : Refusal} :
    step s = .refused r ↔ ∃ (offset : BitVec 8) (width : Width) (rest : List Move),
      (s.agenda = .read offset width :: rest ∨ ∃ w, s.agenda = .write offset width w :: rest) ∧
      accessRefusal offset width = some r := by
  constructor
  · intro h
    rw [step_eq_outcome] at h
    unfold fetch at h
    split at h
    · exact absurd h engineTurn_not_refused
    · exact absurd h engineTurn_not_refused
    · exact ⟨_, _, _, .inl ‹_›, State.hostRead_refused.1 h⟩
    · exact ⟨_, _, _, .inr ⟨_, ‹_›⟩, State.hostWrite_refused.1 h⟩
    · split at h
      · cases h
      · exact absurd h engineTurn_not_refused
    · split at h
      · exact absurd h engineTurn_not_refused
      · cases h
    · split at h <;> cases h
    · split at h
      · cases h
      · split at h
        · cases h
        · exact absurd h engineTurn_not_refused
    · cases h
  · rintro ⟨offset, width, rest, ha | ⟨w, ha⟩, hr⟩
    · rw [step_eq_outcome, fetch_read ha]; exact State.hostRead_refused.2 hr
    · rw [step_eq_outcome, fetch_write ha]; exact State.hostWrite_refused.2 hr

theorem accessRefusal_isSome {offset : BitVec 8} {width : Width} :
    (∃ r, accessRefusal offset width = some r) ↔ width ≠ .word ∨ offset.toNat % 4 ≠ 0 := by
  unfold accessRefusal
  split_ifs with hw ho
  · simp [hw]
  · simp [ho]
  · simp [hw, ho]

/-- Settles O14: the engine and the commands refuse nothing, an access is refused by its width or its offset. -/
theorem stepRefusesOnlyBadAccesses : Obligations.StepRefusesOnlyBadAccesses := by
  intro s
  constructor
  · rintro ⟨r, h⟩
    obtain ⟨offset, width, rest, ha, hr⟩ := step_refused.1 h
    exact ⟨offset, width, rest, ha, accessRefusal_isSome.1 ⟨r, hr⟩⟩
  · rintro ⟨offset, width, rest, ha, hbad⟩
    obtain ⟨r, hr⟩ := accessRefusal_isSome.2 hbad
    exact ⟨r, step_refused.2 ⟨offset, width, rest, ha, hr⟩⟩

/-! ### CMD_LAST (rule R40) -/

/-- A word without a reserved bit is made of its TARGET and its OPC (rule R150). -/
theorem commandWord_fields {w : Word} (h : cmdReservedSet w = false) : commandWord (cmdTarget w) (cmdOpc w) = w := by
  simp only [cmdReservedSet, Bool.or_eq_false_iff, bne_eq_false_iff_eq] at h
  obtain ⟨hlow, hhigh⟩ := h
  calc commandWord (cmdTarget w) (cmdOpc w)
      = w.extractLsb' 16 16 ++ w.extractLsb' 8 8 ++ w.extractLsb' 4 4 ++ w.extractLsb' 0 4 := by
        rw [hhigh, hlow]; rfl
    _ = w.extractLsb' 0 32 := by
        rw [BitVec.extractLsb'_append_extractLsb'_eq_extractLsb' (start₁ := 8) (len₁ := 8) rfl,
          BitVec.extractLsb'_append_extractLsb'_eq_extractLsb' (start₁ := 4) (len₁ := 4) rfl,
          BitVec.extractLsb'_append_extractLsb'_eq_extractLsb' (start₁ := 0) (len₁ := 4) rfl]
    _ = w := BitVec.extractLsb'_eq_self

theorem decodeNoTarget_target {target : Byte} {i j : Instr} (h : decodeNoTarget target i = .instr j) : target = 0#8 := by
  unfold decodeNoTarget at h
  split at h
  · assumption
  · cases h

/-- A command's word is the word it was decoded from (rules R150, R151). -/
theorem commandWordOf_decoded {w : Word} {i : Instr} (h : decodeCommand w = .instr i) : commandWordOf i = w := by
  unfold decodeCommand at h
  split_ifs at h with hr h1 h2 h3 h4 h5
  all_goals have hw := commandWord_fields (Bool.eq_false_iff.2 hr)
  · rw [decodeNoTarget_instr h, ← hw, decodeNoTarget_target h, h1]; rfl
  · rw [decodeNoTarget_instr h, ← hw, decodeNoTarget_target h, h2]; rfl
  · cases h; exact (h3 ▸ hw : commandWord (cmdTarget w) 0x3#4 = w)
  · rw [decodeNoTarget_instr h, ← hw, decodeNoTarget_target h, h4]; rfl
  · rw [decodeNoTarget_instr h, ← hw, decodeNoTarget_target h, h5]; rfl

theorem commandEffect_cmdLast (i : Instr) (s : State) : (commandEffect i s).cmdLast = s.cmdLast := by
  cases i <;> rfl

/-- A CMD write latches its word unless a command runs (rules R40, R280, R333). -/
theorem State.issue_cmdLast {s t : State} {w : Word} {legal : SState → Option ErrCode} {effect : State → State}
    (he : ∀ u, (effect u).cmdLast = u.cmdLast) (h : s.issue w legal effect = .next t) :
    t.cmdLast = if s.busy then s.cmdLast else w := by
  obtain ⟨hb, hi⟩ | ⟨_, hb, -, hi⟩ | ⟨hb, -, hi⟩ := s.issue_cases w legal effect <;> rw [hi] at h <;> cases h <;> rw [hb]
  · rfl
  · rfl
  · exact he _

theorem EngineMove.cmdLast {s t : State} : EngineMove s t → t.cmdLast = s.cmdLast
  | .work h => h.cmdLast
  | .read _ _ _ _ h => h.cmdLast
  | .push _ h => h.cmdLast

/-- A register write leaves CMD_LAST alone or resets the block (rules R36, R40). -/
theorem State.writeReg_cmdLast (s : State) (offset : BitVec 8) (w : Word) :
    (s.writeReg offset w).cmdLast = s.cmdLast ∨ (s.writeReg offset w).AtReset := by
  obtain ⟨-, h⟩ | ⟨-, h⟩ | h := s.writeReg_cases offset w <;> rw [h]
  · obtain ⟨-, h⟩ | ⟨-, h⟩ := s.writeCtrl_cases w <;> rw [h]
    · exact .inr s.hardReset_atReset
    · exact .inl rfl
  · exact .inl rfl
  · exact .inl rfl

/-- Every step is a write to CMD, which latches its word unless a command runs, or leaves CMD_LAST alone but for a reset. -/
theorem step_cmdLast {s t : State} (h : step s = .next t) :
    (∃ w rest, s.agenda = .write cmdOffset .word w :: rest ∧ t.cmdLast = if s.busy then s.cmdLast else w) ∨
    ((∀ w rest, s.agenda ≠ .write cmdOffset .word w :: rest) ∧ (t.cmdLast = s.cmdLast ∨ t.AtReset)) := by
  have noted (w : Word) (rest : List Move) : ({ s with agenda := rest }.noteIssue w).busy = s.busy ∧
      ({ s with agenda := rest }.noteIssue w).cmdLast = s.cmdLast := by
    rw [State.noteIssue_eq]; exact ⟨rfl, rfl⟩
  obtain ⟨h, ha⟩ | ⟨rest, ha, h⟩ | ⟨_, _, ha, rfl⟩ | ⟨offset, w, rest, ha, ho, rfl⟩ | ⟨w, rest, i, ha, hd, h⟩ |
    ⟨w, rest, _, ha, -, h⟩ | ⟨_, _, ha, -, rfl⟩ | ⟨_, _, _, _, ha, hm, -, rfl | rfl⟩ | ⟨_, ha, rfl⟩ | ⟨_, ha, -, -, rfl⟩ |
    ⟨_, ha, rfl⟩ := step_next_cases h
  · exact .inr ⟨fun w rest => ha _ _ w rest, .inl (EngineMove.of_engineTurn h).cmdLast⟩
  · exact .inr ⟨by simp [ha], .inl ((EngineMove.of_engineTurn h).cmdLast :)⟩
  · exact .inr ⟨by simp [ha], .inl rfl⟩
  · exact .inr ⟨by simp [ha, ho], State.writeReg_cmdLast { s with agenda := rest } offset w⟩
  · rw [exec_command (decodeCommand_role hd), commandWordOf_decoded hd] at h
    obtain ⟨hb, hc⟩ := noted w rest
    exact .inl ⟨w, rest, ha, by rw [State.issue_cmdLast (commandEffect_cmdLast i) h, hb, hc]⟩
  · obtain ⟨hb, hc⟩ := noted w rest
    exact .inl ⟨w, rest, ha, by rw [State.issue_cmdLast (fun _ => rfl) h, hb, hc]⟩
  · exact .inr ⟨by simp [ha], .inl rfl⟩
  · exact .inr ⟨by obtain rfl | rfl | rfl := hm <;> simp [ha], .inl rfl⟩
  · exact .inr ⟨by obtain rfl | rfl | rfl := hm <;> simp [ha], .inl rfl⟩
  · exact .inr ⟨by simp [ha], .inl rfl⟩
  · exact .inr ⟨by simp [ha], .inl rfl⟩
  · exact .inr ⟨by simp [ha], .inr (State.hardReset_atReset _)⟩

theorem State.AtReset.cmdLast {s : State} (h : s.AtReset) : s.cmdLast = 0#32 := by
  obtain ⟨-, hc, -⟩ := h
  exact hc

/-- Settles O32: by `step_cmdLast`, since a step is not both a write to CMD and none. -/
theorem cmdLastFollowsIdleWrites : Obligations.CmdLastFollowsIdleWrites := by
  refine ⟨rfl, fun s t => ⟨rfl, fun h => ?_⟩⟩
  obtain ⟨w, rest, ha, hc⟩ | ⟨ha, hc⟩ := step_cmdLast h
  · refine ⟨fun w' rest' ha' => ?_, fun hn => absurd ha (hn w rest)⟩
    obtain ⟨hm, -⟩ := List.cons.inj (ha.symm.trans ha')
    obtain ⟨-, -, rfl⟩ := Move.write.inj hm
    exact hc
  · exact ⟨fun w rest hw => absurd hw (ha w rest), fun _ => hc.imp_right fun hr => ⟨hr.cmdLast, hr⟩⟩

/-! ### A complete profile (rules R53, R258) -/

/-- What stands under a key is listed under it. -/
theorem mem_of_cellGet {α : Type} {k : Nat} {v : α} {m : List (Nat × α)} (h : cellGet k m = some v) : (k, v) ∈ m := by
  induction m with
  | nil => cases h
  | cons c m ih =>
    obtain ⟨j, u⟩ := c
    simp only [cellGet] at h
    split_ifs at h with hj
    · subst hj; cases h; exact List.mem_cons_self
    · exact List.mem_cons_of_mem _ (ih h)

/-- Rising keys above `a` and up to `a + n` that are as many as `n` are all of them: read in order they give the list. -/
theorem map_cellGet_of_keysRising {α : Type} {a n : Nat} {m : List (Nat × α)} (hr : keysRising m = true)
    (hm : ∀ c ∈ m, a < c.1 ∧ c.1 ≤ a + n) (hn : m.length = n) :
    (List.range n).map (fun i => cellGet (a + i + 1) m) = m.map fun c => some c.2 := by
  induction m generalizing a n with
  | nil => subst hn; rfl
  | cons c m ih =>
    obtain ⟨k, v⟩ := c
    obtain ⟨habove, hrest⟩ := keysRising_cons.1 hr
    obtain ⟨hlo, -⟩ : a < k ∧ k ≤ a + n := hm (k, v) List.mem_cons_self
    obtain ⟨n, rfl⟩ : ∃ n', n = n' + 1 := ⟨m.length, by rw [← hn, List.length_cons]⟩
    have hlen : m.length = n := Nat.succ.inj hn
    have hle := keysRising_length_le (a := k) (b := a + (n + 1)) hrest fun c hc =>
      ⟨habove c hc, (hm c (List.mem_cons_of_mem _ hc)).2⟩
    have hmax := (hm (k, v) List.mem_cons_self).2
    obtain rfl : k = a + 1 := by simp only at hmax; omega
    have htail := ih (a := a + 1) hrest
      (fun c hc => ⟨habove c hc, by have := (hm c (List.mem_cons_of_mem _ hc)).2; omega⟩) hlen
    rw [List.range_succ_eq_map, List.map_cons, List.map_cons, List.map_map, ← htail]
    refine congrArg₂ _ (by simp [cellGet]) (List.map_congr_left fun i _ => ?_)
    simp only [Function.comp_apply, cellGet, if_neg (show a + 1 ≠ a + i.succ + 1 by omega)]
    congr 1
    omega

/-- With ICC_FILLED at ICC_TOTAL the slots, read in order, are what the slot file lists (rules R52, R258). -/
theorem State.Inv.slots_complete {s : State} (hs : s.Inv) (hf : s.iccFilled = s.iccTotal) :
    (List.range s.iccTotal.toNat).map (fun i => cellGet (i + 1) s.slots) = s.slots.map fun c => some c.2 := by
  obtain ⟨hfilled, -, -, htotal, -⟩ := hs.icc
  obtain ⟨hrise, hwf⟩ := Bool.and_eq_true_iff.1 hs.memories.2
  have h := map_cellGet_of_keysRising (a := 0) (n := s.iccTotal.toNat) hrise
    (fun c hc => ⟨(of_decide_eq_true (List.all_eq_true.1 hwf c hc)).1, by simpa using htotal c hc⟩) (by rw [← hf, hfilled])
  simpa using h

/-- Settles O51: as many slots as ICC_TOTAL are listed, with rising numbers up to it, so they are all of them. -/
theorem completeProfile : Obligations.CompleteProfile := by
  intro s hs hf
  have hall := hs.slots_complete hf
  obtain ⟨-, hused, -, htotal, -⟩ := hs.icc
  refine ⟨fun k => ⟨fun hv => ?_, fun ⟨h1, h2⟩ => ?_⟩, ?_⟩
  · rw [State.valid, Bool.and_eq_true, decide_eq_true_eq, Option.isSome_iff_exists] at hv
    obtain ⟨h1, p, hp⟩ := hv
    exact ⟨h1, htotal _ (mem_of_cellGet hp)⟩
  · have hmem : cellGet k s.slots ∈ (List.range s.iccTotal.toNat).map fun i => cellGet (i + 1) s.slots :=
      List.mem_map.2 ⟨k - 1, List.mem_range.2 (by omega), by rw [Nat.sub_add_cancel h1]⟩
    rw [hall] at hmem
    obtain ⟨c, -, hc⟩ := List.mem_map.1 hmem
    simp [State.valid, h1, ← hc]
  · have hslots : s.profileSlots = s.slots.map (·.2) := by
      have := congrArg (List.map fun p => p.getD []) hall
      simpa [Function.comp_def, State.profileSlots, State.slot] using this
    have hread : (s.readReg 0x24#8).extractLsb' 0 24 = s.iccUsed := s.iccLenWord_iccUsed
    rw [hread, hused, hslots, List.length_flatten, List.map_map]
    rfl

/-! ### How a command can end (rules R44, R295, R330) -/

theorem State.onSegmentEnd_busy (s : State) : s.onSegmentEnd.busy = s.busy := by
  unfold State.onSegmentEnd
  split_ifs <;> rfl

theorem State.bodyCount_busy (s : State) : s.bodyCount.busy = s.busy := by
  unfold State.bodyCount
  dsimp only
  split_ifs
  · exact State.onSegmentEnd_busy _
  · rfl

theorem State.bodyByte_busy {s t : State} {v : Byte} (h : s.bodyByte v = .next t) : t.busy = s.busy := by
  obtain ⟨-, rfl⟩ | ⟨-, -, rfl⟩ := State.bodyByte_cases h
  · exact s.bodyCount_busy
  · exact State.bodyCount_busy _

/-- A length field ends the command only when it is invalid (rule R232). -/
theorem State.lengthLow_ends {s : State} {hi lo : Byte} (hb : s.busy = true) (h : (s.lengthLow hi lo).busy = false) :
    s.lengthLow hi lo = { s with len := be16 hi lo }.raiseFormat .invalidSegmentLength := by
  obtain hlt | heq | hgt := Nat.lt_trichotomy (be16 hi lo).toNat 2
  · exact State.lengthLow_invalid hlt
  · rw [State.lengthLow_empty heq, State.onSegmentEnd_busy, hb] at h
    cases h
  · rw [State.lengthLow_body hgt, hb] at h
    cases h

theorem State.soiPassed_ends {s : State} (hb : s.busy = true) (h : s.soiPassed.busy = false) :
    s.op = .readSoi ∧ s.soiPassed = { s with sstate := .ready }.finish .ok .ready := by
  unfold State.soiPassed at h ⊢
  dsimp only at h ⊢
  split_ifs at h ⊢ with hop
  · exact ⟨hop, rfl⟩
  · exact absurd (hb.symm.trans h) nofun

theorem State.recordStep_ends {s : State} {size : Half} (hb : s.busy = true) (h : (s.recordStep size).busy = false) :
    s.op = .getSegment ∧ (s.recordStep size).result.code = .segment ∧ (s.recordStep size).sstate = .ready := by
  unfold State.recordStep at h ⊢
  dsimp only at h ⊢
  split_ifs at h ⊢ with hend hop
  · exact ⟨hop, rfl, rfl⟩
  · exact absurd (hb.symm.trans h) nofun
  · exact absurd (hb.symm.trans h) nofun

theorem State.emitFrom_ends {s : State} {slots : List (List Byte)} {eslot eidx : Nat} (hb : s.busy = true)
    (h : (s.emitFrom slots eslot eidx).busy = false) :
    (s.emitFrom slots eslot eidx).result.code = .iccPresent ∧ (s.emitFrom slots eslot eidx).sstate = .closed := by
  unfold State.emitFrom at h ⊢
  dsimp only at h ⊢
  split_ifs at h ⊢
  · exact ⟨rfl, rfl⟩
  · exact absurd (hb.symm.trans h) nofun

/-- A stored chunk ends the command only as a complete profile of no byte (rules R258, R259). -/
theorem State.chunkStored_ends {s : State} (hb : s.busy = true) (h : s.chunkStored.busy = false) :
    s.chunkStored.result.code = .iccPresent ∧ s.chunkStored.sstate = .closed ∧
      s.chunkStored.iccFilled = s.chunkStored.iccTotal := by
  have kept := MemoriesKept.chunkStored s
  rw [kept.iccFilled, kept.iccTotal]
  unfold State.chunkStored at h ⊢
  split_ifs at h ⊢ with heq
  · obtain ⟨hc, hst⟩ := State.emitFrom_ends hb h
    exact ⟨hc, hst, heq⟩
  · exact absurd (hb.symm.trans h) nofun

/-- Where each error is raised (rule R330). -/
def RaisedBy (s : State) (err : ErrCode) : Prop :=
  (err = .ioError ∧ s.estate.reads = true) ∨
  (err = .missingSoi ∧ s.estate = .soi1 ∧ (s.op = .readSoi ∨ s.op = .getIcc)) ∨
  (err = .invalidSegmentLength ∧ s.estate = .lenLo) ∨
  ((err = .invalidIccHeader ∨ err = .invalidSequenceNumber ∨ err = .inconsistentChunkCount ∨ err = .capacity) ∧
    s.estate = .assemble ∧ s.op = .getIcc)

/-- The endings of a command, from the state of its last step to the state it leaves (rules R44, R295, R330). -/
inductive CommandOutcome (s t : State) : Prop
  | soiRead (hop : s.op = .readSoi) (hc : t.result.code = .ok) (hs : t.sstate = .ready)
  | segment (hop : s.op = .getSegment) (hc : t.result.code = .segment) (hs : t.sstate = .ready) (he : s.estate = .emitSeg)
  | noSegment (hop : s.op = .getSegment) (hc : t.result.code = .noSegment) (hs : t.sstate = .eoi)
  | listDone (hop : s.op = .getCommonApp) (hc : t.result.code = .listDone) (hs : t.sstate = .eoi)
  | iccPresent (hop : s.op = .getIcc) (hc : t.result.code = .iccPresent) (hs : t.sstate = .closed)
      (hf : t.iccFilled = t.iccTotal)
  | iccAbsent (hop : s.op = .getIcc) (hc : t.result.code = .iccAbsent) (hs : t.sstate = .eoi) (ha : s.iccActive = false)
  | iccIncomplete (hop : s.op = .getIcc) (hc : t.result.code = .iccIncomplete) (hs : t.sstate = .eoi)
      (ha : s.iccActive = true) (hf : s.iccFilled.toNat < s.iccTotal.toNat)
  | error (hc : t.result.code = .error) (hs : t.sstate = .error) (ho : t.output = s.output)
      (he : RaisedBy s t.result.err)

/-- A chunk that ends the command is refused, or completes a profile of no byte (rules R253 to R259). -/
theorem Scanning.assemble_outcome {s : State} {seq cnt : Byte} {payload : List Byte} (hs : Scanning s)
    (he : s.estate = .assemble) (hop : s.op = .getIcc) (hb : (s.assemble seq cnt payload).busy = false) :
    CommandOutcome s (s.assemble seq cnt payload) := by
  obtain ⟨u, err, hu, herr, hr⟩ | ⟨-, -, -, hr⟩ := s.assemble_cases seq cnt payload
  · rw [hr]
    refine .error rfl rfl ?_ (.inr (.inr (.inr ⟨.inr ?_, he, hop⟩)))
    · obtain rfl | rfl := hu
      · rfl
      · rw [State.counted_eq]; rfl
    · cases err <;> simp_all [ErrCode.refusesChunk]
  · rw [hr] at hb ⊢
    have hbusy : ((s.counted cnt).storeChunk seq payload).busy = true := by
      rw [State.storeChunk_eq, State.counted_eq]; exact hs.busy
    obtain ⟨hc, hst, hf⟩ := State.chunkStored_ends hbusy hb
    exact .iccPresent hop hc hst hf

/-- A micro-step that ends the command ends it in one of the ways of rule R295. -/
theorem EngineStep.outcome {s t : State} (h : EngineStep s t) (hs : s.Inv) (hb : s.busy = true) (ht : t.busy = false) :
    CommandOutcome s t := by
  have goesOn (h : t.busy = s.busy) : False := absurd (hb.symm.trans (h.symm.trans ht)) nofun
  have scanning {e : EState} (he : s.estate = e) (hsc : e.scans = true) : Scanning s := hs.scanning (he ▸ hsc)
  cases h with
  | hold | soiFirst | scanFirst | pairDropped | desync | fill | lengthHigh => exact (goesOn rfl).elim
  | marker _ _ _ h =>
    obtain ⟨_, rfl⟩ := State.onMarker_next h
    exact (goesOn rfl).elim
  | payload _ _ h =>
    have hbusy := State.bodyByte_busy h
    exact (goesOn hbusy).elim
  | ioError hr => exact .error rfl rfl rfl (.inl ⟨rfl, hr⟩)
  | soiMissing he => exact .error rfl rfl rfl (.inr (.inl ⟨rfl, he, (hs.starting (.inr he)).op⟩))
  | soi he hi =>
    obtain ⟨hop, hr⟩ := State.soiPassed_ends (s := s.taken _) hb ht
    exact .soiRead hop (congrArg (·.result.code) hr) (congrArg (·.sstate) hr)
  | eoi he _ _ h =>
    obtain ⟨hop, rfl⟩ | ⟨hop, rfl⟩ | ⟨hop, ha, rfl⟩ | ⟨hop, ha, rfl⟩ := State.onEoi_next h
    · exact .noSegment hop rfl rfl
    · exact .listDone hop rfl rfl
    · exact .iccIncomplete hop rfl rfl ha ((scanning he rfl).gathering hop ha).2
    · exact .iccAbsent hop rfl rfl ha
  | lengthLow he _ =>
    rw [State.lengthLow_ends (s := s.taken _) hb ht]
    exact .error rfl rfl rfl (.inr (.inr (.inl ⟨rfl, he⟩)))
  | headerInvalid he =>
    exact .error rfl rfl rfl (.inr (.inr (.inr ⟨.inl rfl, he, by simpa [OpMatches, he] using hs.op⟩)))
  | chunk he _ _ => exact (scanning he rfl).assemble_outcome he (by simpa [OpMatches, he] using hs.op) ht
  | @recordByte _ b he _ _ _ =>
    obtain ⟨hop, hc, hst⟩ := State.recordStep_ends (s := { s with output := s.output ++ [b] }) hb ht
    exact .segment hop hc hst he
  | @profileByte b he _ _ =>
    have hemit := hs.emitting he
    obtain ⟨hc, hst⟩ := State.emitFrom_ends (s := { s with output := s.output ++ [b] }) hb ht
    have kept := MemoriesKept.emitFrom { s with output := s.output ++ [b] } s.profileSlots s.eslot.toNat (s.eidx.toNat + 1)
    exact .iccPresent hemit.op hc hst (kept.iccFilled.trans (hemit.complete.2.trans kept.iccTotal.symm))

/-- Settles O56: the engine's turn is a micro-step, and one that ends the command is one of the endings. -/
theorem commandOutcomes : Obligations.CommandOutcomes := by
  intro s t hs ha hb h ht
  rw [step_eq_outcome, fetch_nil ha] at h
  cases (EngineStep.of_engineTurn h).outcome hs hb ht with
  | soiRead hop hc hst => exact .inl ⟨hop, hc, hst⟩
  | segment hop hc hst he => exact .inr (.inl ⟨hop, hc, hst, he⟩)
  | noSegment hop hc hst => exact .inr (.inr (.inl ⟨hop, hc, hst⟩))
  | listDone hop hc hst => exact .inr (.inr (.inr (.inl ⟨hop, hc, hst⟩)))
  | iccPresent hop hc hst hf => exact .inr (.inr (.inr (.inr (.inl ⟨hop, hc, hst, hf⟩))))
  | iccAbsent hop hc hst hi => exact .inr (.inr (.inr (.inr (.inr (.inl ⟨hop, hc, hst, hi⟩)))))
  | iccIncomplete hop hc hst hi hf => exact .inr (.inr (.inr (.inr (.inr (.inr (.inl ⟨hop, hc, hst, hi, hf⟩))))))
  | error hc hst ho he => exact .inr (.inr (.inr (.inr (.inr (.inr (.inr ⟨hc, hst, ho, he⟩))))))

end Sys2Proof.Machine
end

section
/-! SUPPORT. What the host can do to a running command short of a reset, and the fault of each instruction in the states where
the spec gives it no effect; and the statements on them. -/

namespace Sys2Proof.Machine

/-! ### Turns of the host while a command runs (rules R113, R333) -/

/-- A register access that is not refused is a word access at an aligned offset (rule R35 (a)). -/
theorem access_of_step_next {s t : State} {offset : BitVec 8} {width : Width} {rest : List Move}
    (ha : s.agenda = .read offset width :: rest ∨ ∃ w, s.agenda = .write offset width w :: rest)
    (h : step s = .next t) : width = .word ∧ offset.toNat % 4 = 0 := by
  rw [← not_ne_iff, ← not_ne_iff (b := 0), ← not_or]
  intro hbad
  obtain ⟨r, hr⟩ := (stepRefusesOnlyBadAccesses s).2 ⟨offset, width, rest, ha, hbad⟩
  rw [h] at hr
  cases hr

/-- A write to CMD while a command runs is an overrun, whatever its word (rules R43, R333). -/
theorem step_command_busy {s : State} {w : Word} {rest : List Move} (hb : s.busy = true)
    (ha : s.agenda = .write cmdOffset .word w :: rest) :
    step s = .next { s with agenda := rest, cmdOverrun := true } := by
  have hnote : { s with agenda := rest }.noteIssue w = { s with agenda := rest } := State.noteIssue_busy w hb
  cases hd : decodeCommand w with
  | instr i =>
    rw [step_of_run ((fetch_write ha).trans (hostWrite_command hd)), hnote, exec_command (decodeCommand_role hd)]
    exact State.issue_busy _ _ _ hb
  | rejected why =>
    rw [step_of_answer ((fetch_write ha).trans (hostWrite_undecoded hd)), hnote]
    exact State.issue_busy _ _ _ hb

/-- A register write that is no soft reset changes IRQ_EN and the two W1C flags at most (rules R36, R47). -/
theorem State.writeReg_flags {s : State} {offset : BitVec 8} {w : Word}
    (hreset : offset = 0x00#8 → w.getLsbD 0 = false) :
    s.writeReg offset w = { s with
      irqEn := (s.writeReg offset w).irqEn, doneFlag := (s.writeReg offset w).doneFlag
      cmdOverrun := (s.writeReg offset w).cmdOverrun } := by
  obtain ⟨ho, h⟩ | ⟨-, h⟩ | h := s.writeReg_cases offset w <;> rw [h]
  · obtain ⟨hw, -⟩ | ⟨-, h⟩ := s.writeCtrl_cases w
    · rw [hreset ho] at hw; cases hw
    · rw [h]
  · rfl

/-- Settles O31: each turn of the host's by its own law, a write by whether it is CMD's. -/
theorem hostTurnsLeaveTheEngine : Obligations.HostTurnsLeaveTheEngine := by
  intro s t move rest hb ha hengine hreset hroom hbytes hctrl h
  cases move with
  | engine => exact absurd rfl hengine
  | reset => exact absurd rfl hreset
  | read offset width =>
    obtain ⟨rfl, ho⟩ := access_of_step_next (.inl ha) h
    cases (step_read ho ha).symm.trans h
    exact ⟨rfl, .inl rfl, .inl rfl⟩
  | write offset width w =>
    obtain ⟨rfl, ho⟩ := access_of_step_next (.inr ⟨w, ha⟩) h
    by_cases hc : offset = cmdOffset
    · subst hc
      cases (step_command_busy hb ha).symm.trans h
      exact ⟨rfl, .inl rfl, .inl rfl⟩
    · cases (step_writeReg ho hc ha).symm.trans h
      rw [State.writeReg_flags (s := { s with agenda := rest }) fun h0 => hctrl w (by rw [h0])]
      exact ⟨rfl, .inl rfl, .inl rfl⟩
  | push item =>
    cases (step_of_answer (fetch_push_room ha (State.inputRoom_iff.2 (hroom item rfl)))).symm.trans h
    exact ⟨rfl, .inr ⟨item, rfl, rfl⟩, .inl rfl⟩
  | pop =>
    obtain ⟨b, bytes, ho⟩ := List.exists_cons_of_ne_nil (hbytes (.inl rfl))
    cases (step_of_answer (fetch_pop ha ho)).symm.trans h
    exact ⟨rfl, .inl rfl, .inr ⟨b, ho, rfl⟩⟩
  | drainAll =>
    cases ho : s.output with
    | nil =>
      cases (step_of_answer (fetch_drainAll_empty ha ho)).symm.trans h
      exact ⟨rfl, .inl rfl, .inl ho⟩
    | cons b bytes =>
      cases (step_of_answer (fetch_drainAll ha ho)).symm.trans h
      exact ⟨rfl, .inl rfl, .inr ⟨b, rfl, rfl⟩⟩
  | waitDone =>
    obtain ⟨b, bytes, ho⟩ := List.exists_cons_of_ne_nil (hbytes (.inr rfl))
    cases (step_of_answer (fetch_waitDone ha ho)).symm.trans h
    exact ⟨rfl, .inl rfl, .inr ⟨b, ho, rfl⟩⟩

/-! ### The faults (log entry 10) -/

/-- `OnEOI` has no case for an operation that does not scan (rule R283). -/
theorem State.onEoi_fault {s : State} (h : s.op = .none ∨ s.op = .openSession ∨ s.op = .readSoi) :
    s.onEoi = .fault .noScanningCommand := by
  obtain h | h | h := h <;> simp only [State.onEoi, h]

/-- `OnMarker` has no case for an operation that does not scan (rule R284). -/
theorem State.onMarker_fault {s : State} (code : Byte) (h : s.op = .none ∨ s.op = .openSession ∨ s.op = .readSoi) :
    s.onMarker code = .fault .noScanningCommand := by
  obtain h | h | h := h <;> simp only [State.onMarker, h]

/-- SEGBUF has no entry at its capacity or past it (rules R7, R104). -/
theorem State.bodyByte_fault {s : State} (v : Byte) (hk : s.keep = true) (hl : Config.segbufBytes ≤ s.seglen.toNat) :
    s.bodyByte v = .fault .segbufIndex := by
  simp [State.bodyByte, hk, hl]

/-- A record has no byte past its 7-byte header and its payload (rule R290). -/
theorem recordByte_past {marker : Byte} {offset : Word} {size : Half} {payload : List Byte} {i : Nat}
    (h : 7 + payload.length ≤ i) : recordByte marker offset size payload i = none := by
  rw [recordByte, if_neg (by omega), if_neg (by omega), if_neg (by omega)]
  exact List.getElem?_eq_none (by omega)

/-- A profile has no byte outside its slots, whose numbers start at 1 (rule R260). -/
theorem profileByte_outside {slots : List (List Byte)} {eslot : Nat} (eidx : Nat)
    (h : eslot = 0 ∨ slots.length < eslot) : profileByte slots eslot eidx = none := by
  cases eslot with
  | zero => rfl
  | succ k => simp only [profileByte, List.getElem?_eq_none (show slots.length ≤ k by omega)]

theorem State.fetchChunk_unwritten {s : State} (h : s.heldSegment = none) :
    s.fetchChunk = .answer (.fault .segbufUnwritten) := by
  simp only [State.fetchChunk, h]

theorem State.fetchRecord_unwritten {s : State} (h : s.recordPayload = none) :
    s.fetchRecord = .answer (.fault .segbufUnwritten) := by
  simp only [State.fetchRecord, h]

/-- Settles O60: each fault where its instruction, or the fetch, meets no case of the spec. -/
theorem faultsByName : Obligations.FaultsByName := by
  refine fun s => ⟨fun hop => ⟨State.onEoi_fault hop, fun code => ?_⟩, fun v hk hl => State.bodyByte_fault v hk hl,
    fun marker offset size payload hlen hpast => exec_segmentRecord_none (recordByte_past (by omega)),
    fun slots hout => exec_iccProfileOut_none (profileByte_outside _ ?_), fun ha he hheld => ?_, fun ha he hp => ?_⟩
  · exact State.onMarker_fault (s := { s with mkCode := code, moff := s.pos }) code hop
  · exact hout.imp_left (congrArg BitVec.toNat)
  · exact step_of_answer ((fetch_nil ha).trans ((engineTurn_assemble he).trans (State.fetchChunk_unwritten hheld)))
  · exact step_of_answer ((fetch_nil ha).trans ((engineTurn_emitSeg he).trans (State.fetchRecord_unwritten hp)))

end Sys2Proof.Machine
end

section
/-! SUPPORT. The decoders against the encoders of spec/30_encoding.md: what the fields of an encoding read as, what bits a
decoder has accepted, the words that are no command, and the lines of host commands; and the statements on them. -/

namespace Sys2Proof

/-! ### Fields of an encoding -/

@[simp] theorem bytes16_be16 (hi lo : Byte) : bytes16 (be16 hi lo) = [hi, lo] := by
  rw [bytes16, be16, BitVec.extractLsb'_append_eq_left, BitVec.extractLsb'_append_eq_right]

/-- A field that lies above the low part of a word is a field of its high part. -/
theorem extractLsb'_append_high {v w len start : Nat} (x : BitVec v) (y : BitVec w) :
    (x ++ y).extractLsb' (start + w) len = x.extractLsb' start len := by
  rw [BitVec.extractLsb'_append_eq_of_le (Nat.le_add_left w start), Nat.add_sub_cancel]

@[simp] theorem bytes32_be32 (b3 b2 b1 b0 : Byte) : bytes32 (be32 b3 b2 b1 b0) = [b3, b2, b1, b0] := by
  have h3 : (be32 b3 b2 b1 b0).extractLsb' 24 8 = b3 :=
    (extractLsb'_append_high (start := 16) _ b0).trans
      ((extractLsb'_append_high (start := 8) _ b1).trans BitVec.extractLsb'_append_eq_left)
  have h2 : (be32 b3 b2 b1 b0).extractLsb' 16 8 = b2 :=
    (extractLsb'_append_high (start := 8) _ b0).trans
      ((extractLsb'_append_high (start := 0) _ b1).trans BitVec.extractLsb'_append_eq_right)
  have h1 : (be32 b3 b2 b1 b0).extractLsb' 8 8 = b1 :=
    (extractLsb'_append_high (start := 0) _ b0).trans BitVec.extractLsb'_append_eq_right
  have h0 : (be32 b3 b2 b1 b0).extractLsb' 0 8 = b0 := BitVec.extractLsb'_append_eq_right
  rw [bytes32, h3, h2, h1, h0]

@[simp] theorem cmdOpc_commandWord (target : Byte) (opc : BitVec 4) : cmdOpc (commandWord target opc) = opc :=
  BitVec.extractLsb'_append_eq_right

@[simp] theorem cmdTarget_commandWord (target : Byte) (opc : BitVec 4) : cmdTarget (commandWord target opc) = target :=
  (extractLsb'_append_high (start := 4) _ opc).trans
    ((extractLsb'_append_high (start := 0) _ 0#4).trans BitVec.extractLsb'_append_eq_right)

@[simp] theorem cmdReservedSet_commandWord (target : Byte) (opc : BitVec 4) :
    cmdReservedSet (commandWord target opc) = false := by
  have hlow : (commandWord target opc).extractLsb' 4 4 = 0#4 :=
    (extractLsb'_append_high (start := 0) _ opc).trans BitVec.extractLsb'_append_eq_right
  have hhigh : (commandWord target opc).extractLsb' 16 16 = 0#16 :=
    (extractLsb'_append_high (start := 12) _ opc).trans
      ((extractLsb'_append_high (start := 8) _ 0#4).trans BitVec.extractLsb'_append_eq_left)
  rw [cmdReservedSet, hlow, hhigh]
  rfl

theorem toNat_append_eq_add {v w : Nat} (x : BitVec v) (y : BitVec w) :
    (x ++ y).toNat = 2 ^ w * x.toNat + y.toNat := by
  rw [BitVec.toNat_append, ← Nat.shiftLeft_add_eq_or_of_lt y.isLt, Nat.shiftLeft_eq, Nat.mul_comm]

theorem rstCode_toNat (n : BitVec 3) : (rstCode n).toNat = 0xD0 + n.toNat := toNat_append_eq_add 0x1A#5 n

theorem commandWord_toNat (target : Byte) (opc : BitVec 4) :
    (commandWord target opc).toNat = 256 * target.toNat + opc.toNat := by
  simp only [commandWord, toNat_append_eq_add, BitVec.toNat_ofNat]
  omega

@[simp] theorem extractLsb'_rstCode (n : BitVec 3) : (rstCode n).extractLsb' 0 3 = n := BitVec.extractLsb'_append_eq_right

/-- A code in the range of the restart markers is the code of its own low bits (rules R158, R207). -/
theorem rstCode_extractLsb' {code : Byte} (h : 0xD0 ≤ code.toNat ∧ code.toNat ≤ 0xD7) :
    rstCode (code.extractLsb' 0 3) = code := by
  apply BitVec.eq_of_toNat_eq
  rw [rstCode_toNat, BitVec.extractLsb'_toNat]
  simp only [Nat.shiftRight_zero]
  omega

/-! ### Each encoding decodes to its instruction -/

theorem decodePair_rstCode (n : BitVec 3) : decodePair 0xFF (rstCode n) = .rst n := by
  have h := rstCode_toNat n
  have hn := n.isLt
  obtain ⟨h0, -⟩ | ⟨-, h1, -⟩ | ⟨-, h1, -⟩ | ⟨-, h1, -⟩ | ⟨-, -, hd⟩ | ⟨-, hm, -⟩ :=
    Machine.decodePair_cases 0xFF (rstCode n)
  · exact absurd rfl h0
  · rw [h1, BitVec.toNat_ofNat] at h; omega
  · rw [h1, BitVec.toNat_ofNat] at h; omega
  · rw [h1, BitVec.toNat_ofNat] at h; omega
  · rw [hd, extractLsb'_rstCode]
  · simp only [isMarkerCode, Bool.or_eq_true, Bool.and_eq_true, decide_eq_true_eq, beq_iff_eq] at hm
    omega

theorem decodePair_marker {code : Byte} (h : isMarkerCode code = true) : decodePair 0xFF code = .marker code := by
  obtain ⟨h0, -⟩ | ⟨-, rfl, -⟩ | ⟨-, rfl, -⟩ | ⟨-, rfl, -⟩ | ⟨-, hr, -⟩ | ⟨-, -, hd⟩ :=
    Machine.decodePair_cases 0xFF code
  · exact absurd rfl h0
  · cases h
  · cases h
  · cases h
  · simp only [isMarkerCode, Bool.or_eq_true, Bool.and_eq_true, decide_eq_true_eq, beq_iff_eq] at h
    omega
  · exact hd

/-- A chunk decodes to its own fields (rule R161). -/
theorem decodeChunk_encodeChunk (seq cnt : Byte) {payload : List Byte} (h : payload.length ≤ Config.maxChunkBytes) :
    decodeChunk (encodeChunk seq cnt payload) = .instr (.iccChunk seq cnt payload) := by
  have hlen : (encodeChunk seq cnt payload).length = payload.length + 14 := by simp [encodeChunk, iccSignature]
  simp only [Config.maxChunkBytes] at h
  rw [decodeChunk, if_neg (by rw [hlen, Config.segbufBytes]; omega), if_neg (by simp [encodeChunk, iccSignature])]
  rfl

/-- A profile decodes to its own slots (rule R164). -/
theorem decodeProfile_encodeProfile {slots : List (List Byte)} (h : WellFormed (.iccProfileOut slots) = true) :
    decodeProfile (slots.map List.length) (encodeProfile slots) = .instr (.iccProfileOut slots) := by
  simp only [WellFormed, Bool.and_eq_true, decide_eq_true_eq, and_assoc] at h
  rw [decodeProfile, encodeProfile, Machine.splitLengths_flatten, if_pos (by simpa using h)]

/-- Settles O3: each constructor's encoding, at every value of its operands, by the decoder of the place it is read at. -/
theorem decodeEncodeRoundTrip : Obligations.DecodeEncodeRoundTrip := by
  intro i h
  cases i with
  | openSession | readSoi | getCommonApp | getIcc => simp [encode, decode, decodeCommand, decodeNoTarget]
  | getSegment target => simp [encode, decode, decodeCommand]
  | desync b0 b1 => exact congrArg Decoded.instr (if_pos (by simpa [WellFormed] using h))
  | stuff | fill | eoi | soi => rfl
  | rst n => exact congrArg Decoded.instr (decodePair_rstCode n)
  | marker code => exact congrArg Decoded.instr (decodePair_marker h)
  | segment part => cases part <;> rfl
  | iccChunk seq cnt payload => exact decodeChunk_encodeChunk seq cnt (of_decide_eq_true h)
  | segmentRecord marker offset size payload =>
    simp only [WellFormed, Bool.and_eq_true, beq_iff_eq, decide_eq_true_eq] at h
    exact decodeRecord_encodeRecord marker offset h.1 h.2
  | iccProfileOut slots => exact decodeProfile_encodeProfile h

/-! ### What a decoder has accepted -/

/-- The bits are the encoding of the instruction, which is well formed. -/
def Encodes (i : Instr) (c : Code) : Prop := WellFormed i = true ∧ encode i = c

/-- A command has no condition on its fields, and its encoding is its word (rules R150, R152). -/
theorem encodes_command {i : Instr} (h : i.role = .command) : Encodes i (.command (Machine.commandWordOf i)) := by
  cases i with
  | openSession | readSoi | getSegment | getCommonApp | getIcc => exact ⟨rfl, rfl⟩
  | _ => cases h

theorem encodes_decodePair (b0 b1 : Byte) : Encodes (decodePair b0 b1) (.scanPair b0 b1) := by
  obtain ⟨h0, hd⟩ | ⟨rfl, rfl, hd⟩ | ⟨rfl, rfl, hd⟩ | ⟨rfl, rfl, hd⟩ | ⟨rfl, hr, hd⟩ | ⟨rfl, hm, hd⟩ :=
    Machine.decodePair_cases b0 b1 <;> rw [hd]
  · exact ⟨bne_iff_ne.2 h0, rfl⟩
  · exact ⟨rfl, rfl⟩
  · exact ⟨rfl, rfl⟩
  · exact ⟨rfl, rfl⟩
  · exact ⟨rfl, congrArg (Code.scanPair 0xFF) (rstCode_extractLsb' hr)⟩
  · exact ⟨hm, rfl⟩

theorem encodes_decodeSoi {b0 b1 : Byte} {i : Instr} (h : decodeSoi b0 b1 = .instr i) : Encodes i (.startPair b0 b1) := by
  unfold decodeSoi at h
  split at h <;> cases h
  obtain ⟨rfl, rfl⟩ := ‹b0 = 0xFF#8 ∧ b1 = 0xD8#8›
  exact ⟨rfl, rfl⟩

/-- What is accepted as a chunk begins with the signature (rule R252). -/
theorem decodeChunk_signature {data : List Byte} {i : Instr} (h : decodeChunk data = .instr i) :
    data.take 12 = iccSignature := by
  by_contra hsig
  rw [decodeChunk, if_pos hsig] at h
  split at h <;> cases h

theorem encodes_decodeChunk {data : List Byte} {i : Instr} (h : decodeChunk data = .instr i) : Encodes i (.app2 data) := by
  obtain ⟨seq, cnt, payload, rfl, hdrop, -⟩ := Machine.decodeChunk_instr h
  refine ⟨decide_eq_true (Machine.decodeChunk_payload_le h), congrArg Code.app2 ?_⟩
  rw [encodeChunk, ← decodeChunk_signature h, ← hdrop, List.take_append_drop]

theorem encodes_decodeRecord {bytes : List Byte} {i : Instr} (h : decodeRecord bytes = .instr i) :
    Encodes i (.record bytes) := by
  unfold decodeRecord at h
  split at h
  · split at h <;> cases h
    rename_i hsize
    refine ⟨by simpa [WellFormed] using hsize, congrArg Code.record ?_⟩
    simp [encodeRecord, recordHeader]
  · cases h

/-- Bytes cut by lengths give pieces of those lengths, which are the bytes in order (rule R164). -/
theorem splitLengths_some {lengths : List Nat} {bytes : List Byte} {slots : List (List Byte)}
    (h : splitLengths lengths bytes = some slots) : slots.map List.length = lengths ∧ slots.flatten = bytes := by
  induction lengths generalizing bytes slots with
  | nil => cases bytes <;> cases h; exact ⟨rfl, rfl⟩
  | cons n lengths ih =>
    rw [splitLengths] at h
    split at h
    · obtain ⟨rest, hrest, rfl⟩ := Option.map_eq_some_iff.1 h
      obtain ⟨hlengths, hbytes⟩ := ih hrest
      exact ⟨by simp [*], by simp [hbytes]⟩
    · cases h

theorem encodes_decodeProfile {lengths : List Nat} {bytes : List Byte} {i : Instr}
    (h : decodeProfile lengths bytes = .instr i) : Encodes i (.profile lengths bytes) := by
  unfold decodeProfile at h
  split at h
  · split at h <;> cases h
    rename_i hlegal _ _ hsplit
    obtain ⟨rfl, rfl⟩ := splitLengths_some hsplit
    exact ⟨by simpa [WellFormed, and_assoc] using hlegal, rfl⟩
  · cases h

/-- Settles O4: each place's decoder accepts only encodings. -/
theorem decodedIsWellFormedAndUnique : Obligations.DecodedIsWellFormedAndUnique := by
  intro c i h
  cases c with
  | command w => exact Machine.commandWordOf_decoded h ▸ encodes_command (decodeCommand_role h)
  | startPair b0 b1 => exact encodes_decodeSoi h
  | scanPair b0 b1 => exact Decoded.instr.inj h ▸ encodes_decodePair b0 b1
  | lengthHigh | lengthLow | payload => cases h; exact ⟨rfl, rfl⟩
  | app2 data => exact encodes_decodeChunk h
  | record bytes => exact encodes_decodeRecord h
  | profile lengths bytes => exact encodes_decodeProfile h

/-! ### The words that are no command (rule R153) -/

/-- The illegal commands of rule R153. -/
def IllegalCommand (w : Word) : Prop :=
  cmdOpc w = 0x0#4 ∨ 0x6 ≤ (cmdOpc w).toNat ∨ w.extractLsb' 4 4 ≠ 0x0#4 ∨ w.extractLsb' 16 16 ≠ 0x0000#16 ∨
    (cmdOpc w ≠ 0x3#4 ∧ cmdTarget w ≠ 0x00#8)

theorem opc_cases : ∀ opc : BitVec 4,
    opc = 0x0#4 ∨ 0x6 ≤ opc.toNat ∨ opc = 0x1#4 ∨ opc = 0x2#4 ∨ opc = 0x3#4 ∨ opc = 0x4#4 ∨ opc = 0x5#4 := by
  decide

/-- Every other word is a command (rules R151, R153). -/
theorem decodeCommand_legal {w : Word} (h : ¬ IllegalCommand w) : ∃ i, decodeCommand w = .instr i ∧
    (i = .openSession ∨ i = .readSoi ∨ i = .getSegment (cmdTarget w) ∨ i = .getCommonApp ∨ i = .getIcc) := by
  simp only [IllegalCommand, not_or, not_and, not_not] at h
  obtain ⟨h0, h6, hlow, hhigh, htarget⟩ := h
  have hr : cmdReservedSet w = false := by simp [cmdReservedSet, hlow, hhigh]
  have noTarget (i : Instr) (hopc : cmdOpc w ≠ 0x3#4) : decodeNoTarget (cmdTarget w) i = .instr i :=
    if_pos (htarget hopc)
  obtain ho | ho | ho | ho | ho | ho | ho := opc_cases (cmdOpc w)
  · exact absurd ho h0
  · exact absurd ho h6
  · exact ⟨.openSession, by simp [decodeCommand, noTarget, hr, ho], by simp⟩
  · exact ⟨.readSoi, by simp [decodeCommand, noTarget, hr, ho], by simp⟩
  · exact ⟨.getSegment (cmdTarget w), by simp [decodeCommand, hr, ho], by simp⟩
  · exact ⟨.getCommonApp, by simp [decodeCommand, noTarget, hr, ho], by simp⟩
  · exact ⟨.getIcc, by simp [decodeCommand, noTarget, hr, ho], by simp⟩

/-- A word that decodes is a command's own word, which is not illegal (rules R150, R153). -/
theorem not_illegalCommand_of_decoded {w : Word} {i : Instr} (h : decodeCommand w = .instr i) : ¬ IllegalCommand w := by
  have legal {target : Byte} {opc : BitVec 4} (h0 : opc ≠ 0x0#4) (h6 : opc.toNat < 0x6)
      (ht : opc = 0x3#4 ∨ target = 0x00#8) : ¬ IllegalCommand (commandWord target opc) := by
    have hr := cmdReservedSet_commandWord target opc
    simp only [cmdReservedSet, Bool.or_eq_false_iff, bne_eq_false_iff_eq] at hr
    rw [IllegalCommand, cmdOpc_commandWord, cmdTarget_commandWord]
    rintro (h | h | h | h | ⟨h3, h⟩)
    · exact h0 h
    · omega
    · exact h hr.1
    · exact h hr.2
    · exact ht.elim h3 h
  have hrole := decodeCommand_role h
  rw [← Machine.commandWordOf_decoded h]
  cases i with
  | getSegment target => exact legal nofun (by decide) (.inl rfl)
  | openSession | readSoi | getCommonApp | getIcc => exact legal nofun (by decide) (.inr rfl)
  | _ => cases hrole

theorem decodeCommand_rejected {w : Word} {why : Undecoded} (h : decodeCommand w = .rejected why) : why = .badOpcode := by
  unfold decodeCommand decodeNoTarget at h
  split_ifs at h <;> cases h <;> rfl

theorem decodeCommand_illegal {w : Word} (h : IllegalCommand w) : decodeCommand w = .rejected .badOpcode := by
  cases hd : decodeCommand w with
  | instr i => exact absurd h (not_illegalCommand_of_decoded hd)
  | rejected why => rw [decodeCommand_rejected hd]

/-! ### Written out from the spec -/

/-- Settles O1, by the decoder's value on each of the words. -/
theorem specWordsDecode : Obligations.SpecWordsDecode := by
  unfold Obligations.SpecWordsDecode
  decide

/-- GET_SEGMENT's word as the host computes it (rules R151, R155). -/
theorem commandWord_getSegment (target : Byte) :
    commandWord target 0x3 = 0x00000003#32 ||| (target.setWidth 32 <<< 8) := by
  have ht := target.isLt
  have hshift : (target.setWidth 32 <<< 8).toNat = target.toNat <<< 8 := by
    rw [BitVec.toNat_shiftLeft, BitVec.toNat_setWidth, Nat.shiftLeft_eq, Nat.shiftLeft_eq]
    omega
  apply BitVec.eq_of_toNat_eq
  rw [commandWord_toNat, BitVec.toNat_or, hshift, Nat.or_comm, ← Nat.shiftLeft_add_eq_or_of_lt (by decide),
    Nat.shiftLeft_eq, Nat.mul_comm]
  rfl

end Sys2Proof

namespace Sys2Proof.Machine

/-- The write of a word that is no command, while no command runs (rules R153, R281). -/
theorem step_undecoded {s : State} {rest : List Move} {w : Word} {why : Undecoded}
    (hd : decodeCommand w = .rejected why) (hb : s.busy = false) (ha : s.agenda = .write cmdOffset .word w :: rest) :
    step s = .next
      (State.reject { s with agenda := rest, cmdLast := w, seen := s.seen ++ [.issued w] } .badOpcode) := by
  rw [step_of_answer ((fetch_write ha).trans (hostWrite_undecoded hd)), State.noteIssue_idle w (by exact hb)]
  exact State.issue_refused w id (by exact hb) rfl

/-- Settles O2: the legal words are those of the five commands. -/
theorem illegalCommandWords : Obligations.IllegalCommandWords := by
  intro w
  refine ⟨⟨decodeCommand_illegal, fun hd => ?_⟩, decodeCommand_legal, fun s rest hw hb ha =>
    step_undecoded (decodeCommand_illegal hw) hb ha⟩
  by_contra hw
  obtain ⟨i, hi, -⟩ := decodeCommand_legal hw
  cases hd.symm.trans hi

/-- Settles O7: the lines and the pseudo-instructions by evaluation, GET_SEGMENT's word for every code. -/
theorem hostSyntax : Obligations.HostSyntax :=
  ⟨rfl, rfl, rfl, rfl, rfl, rfl, rfl, rfl, rfl, rfl, rfl, rfl, fun _ => rfl, commandWord_getSegment, rfl, rfl, rfl,
    fun _ => rfl, rfl, fun _ => rfl, rfl⟩

end Sys2Proof.Machine
end

section
/-! SUPPORT. The runs of an emission: the record and the profile as byte sequences with a cursor, the step that pushes the
byte the cursor stands at, and what the steps come to with room for all of it; and the statements on them. -/

namespace Sys2Proof.Machine

theorem stepN_one (s : State) : stepN 1 s = step s := by
  simp only [stepN]
  cases step s <;> rfl

/-! ### A record (rules R160, R289 to R291) -/

/-- `RecordByte(i)` is byte `i` of the record's encoding, and neither has a byte past its end (rules R160, R290). -/
theorem recordByte_eq_getElem? (marker : Byte) (offset : Word) (size : Half) (payload : List Byte) (i : Nat) :
    recordByte marker offset size payload i = (encodeRecord marker offset size payload)[i]? := by
  match i with
  | 0 | 1 | 2 | 3 | 4 | 5 | 6 => rfl
  | i + 7 => rfl

/-- EMIT_SEG with room pushes the byte of the record at the cursor (rules R290, R291). -/
theorem step_emitSeg {s : State} {payload : List Byte} {b : Byte} (ha : s.agenda = []) (he : s.estate = .emitSeg)
    (hp : s.recordPayload = some payload) (hroom : s.output.length < s.params.outDepth)
    (hb : (encodeRecord s.segMarker s.segOffset s.segSize payload)[s.eidx.toNat]? = some b) :
    step s = .next ({ s with output := s.output ++ [b] }.recordStep s.segSize) := by
  rw [step_of_run ((fetch_nil ha).trans ((engineTurn_emitSeg he).trans (State.fetchRecord_payload hp))),
    exec_segmentRecord_some ((recordByte_eq_getElem? _ _ _ _ _).trans hb),
    State.outPush_room b _ (State.outputRoom_iff.2 hroom)]

/-- With more of the record to come the cursor moves on (rule R291). -/
theorem State.recordStep_more {s : State} {size : Half} (h : s.eidx.toNat + 1 < 7 + size.toNat) :
    s.recordStep size = { s with eidx := s.eidx + 1 } := by
  have hsize := size.isLt
  have hnext : (s.eidx + 1).toNat = s.eidx.toNat + 1 := by bv_omega
  exact if_neg (by simp only [hnext]; omega)

/-- The last byte of a record counts it, ends GET_SEGMENT and sends the scanner on (rule R291). -/
theorem State.recordStep_last {s : State} {size : Half} (h : s.eidx.toNat + 1 = 7 + size.toNat) :
    s.recordStep size =
      if s.op = .getSegment then { s with eidx := s.eidx + 1, segCount := s.segCount + 1 }.finish .segment .ready
      else { s with eidx := s.eidx + 1, segCount := s.segCount + 1, estate := .scanB0 } := by
  have hsize := size.isLt
  have hnext : (s.eidx + 1).toNat = s.eidx.toNat + 1 := by bv_omega
  exact if_pos (by simp only [hnext]; omega)

theorem State.recordPayload_length {s : State} {payload : List Byte} (h : s.recordPayload = some payload) :
    payload.length = s.segSize.toNat := Memory.readRange_length h

/-- The state in EMIT_SEG once the first `n` bytes of the record have been pushed. -/
def State.recordPushed (s : State) (payload : List Byte) (n : Nat) : State :=
  { s with
    output := s.output ++ (encodeRecord s.segMarker s.segOffset s.segSize payload).take n
    eidx := BitVec.ofNat 24 n }

section

variable {s : State} {payload : List Byte} (ha : s.agenda = []) (he : s.estate = .emitSeg)
  (hp : s.recordPayload = some payload) (hroom : s.output.length + (7 + payload.length) ≤ s.params.outDepth)

include ha he hp hroom

/-- The step that pushes byte `n` of the record. -/
theorem step_recordPushed {n : Nat} (hn : n < 7 + payload.length) :
    step (s.recordPushed payload n) = .next (State.recordStep
      { s.recordPushed payload (n + 1) with eidx := BitVec.ofNat 24 n } s.segSize) := by
  have hsize := State.recordPayload_length hp
  have hlen := length_encodeRecord s.segMarker s.segOffset hsize
  have hlt := s.segSize.isLt
  have hcursor : (BitVec.ofNat 24 n).toNat = n := by rw [BitVec.toNat_ofNat]; omega
  have hb : (encodeRecord s.segMarker s.segOffset s.segSize payload)[(BitVec.ofNat 24 n).toNat]? =
      some ((encodeRecord s.segMarker s.segOffset s.segSize payload)[n]'(by omega)) := by
    rw [hcursor, List.getElem?_eq_getElem]
  rw [step_emitSeg (s := s.recordPushed payload n) ha he hp ?_ hb]
  · simp only [State.recordPushed, List.append_assoc, List.take_append_getElem]
  · simp only [State.recordPushed, List.length_append, List.length_take]
    omega

/-- Up to the last byte of the record each step pushes one and moves the cursor on. -/
theorem stepN_recordPushed (h0 : s.eidx = 0#24) {n : Nat} (hn : n < 7 + payload.length) :
    stepN n s = .next (s.recordPushed payload n) := by
  have hsize := State.recordPayload_length hp
  induction n with
  | zero => simp [stepN, State.recordPushed, ← h0]
  | succ n ih =>
    have hlt := s.segSize.isLt
    rw [stepN_add (ih (by omega)) 1, stepN_one, step_recordPushed ha he hp hroom (by omega), State.recordStep_more ?_]
    · simp [State.recordPushed, BitVec.ofNat_add]
    · simp only [BitVec.toNat_ofNat]; omega

end

/-- Settles O44: all bytes but the last by `stepN_recordPushed`, then the step that ends the record. -/
theorem recordRun : Obligations.RecordRun := by
  intro s payload ha he h0 hp hroom
  have hsize := State.recordPayload_length hp
  have hlt := s.segSize.isLt
  have hlen := length_encodeRecord s.segMarker s.segOffset hsize
  have hlast : 6 + payload.length < 7 + payload.length := by omega
  rw [show 7 + payload.length = 6 + payload.length + 1 by omega,
    stepN_add (stepN_recordPushed ha he hp hroom h0 hlast) 1, stepN_one, step_recordPushed ha he hp hroom hlast,
    State.recordStep_last (by simp only [BitVec.toNat_ofNat]; omega)]
  simp only [State.recordPushed]
  rw [List.take_of_length_le (by omega), BitVec.ofNat_add (6 + payload.length) 1]
  rfl

/-! ### A profile (rules R164, R259, R260) -/

/-- The byte at a cursor that stands in its slot is the first of the bytes still to come, and the next cursor has the rest
(rule R260). -/
theorem profileRest_cons {slots : List (List Byte)} {k i : Nat} {p : List Byte} (hk : 1 ≤ k)
    (hp : slots[k - 1]? = some p) (hi : i < p.length) :
    ∃ b, profileByte slots k i = some b ∧ profileRest slots k i = b :: profileRest slots k (i + 1) := by
  obtain ⟨k, rfl⟩ := Nat.exists_eq_add_of_le' hk
  rw [Nat.add_sub_cancel] at hp
  refine ⟨p[i], ?_, ?_⟩
  · simp only [profileByte, hp, List.getElem?_eq_getElem hi]
  · rw [profileRest, profileRest, Nat.add_sub_cancel, flatten_drop_cons hp hi.le, flatten_drop_cons hp hi,
      List.drop_eq_getElem_cons hi, List.cons_append]

/-- The profile of a state within the invariant has a slot for every number, each of legal length (rules R56, R260). -/
theorem State.Inv.profileSlots_legal {s : State} (hs : s.Inv) :
    s.profileSlots.length ≤ Config.maxChunks ∧ ∀ q ∈ s.profileSlots, q.length ≤ Config.maxChunkBytes := by
  refine ⟨?_, fun q hq => ?_⟩
  · rw [State.profileSlots_length, Config.maxChunks]
    exact Nat.le_of_lt_succ s.iccTotal.isLt
  · obtain ⟨k, rfl⟩ := State.slot_mem_profileSlots hq
    exact State.slot_length_le hs.memories.2 k

/-- EMIT_ICC with room pushes the first of the bytes still to come: the command ends with the last of them, and otherwise
goes on at a cursor that has the others (rules R259, R260). -/
theorem step_emitIcc {s : State} (hs : s.Inv) (ha : s.agenda = []) (he : s.estate = .emitIcc)
    (hroom : s.output.length < s.params.outDepth) :
    ∃ (b : Byte) (rest : List Byte),
      profileRest s.profileSlots s.eslot.toNat s.eidx.toNat = b :: rest ∧
      ((rest = [] ∧ step s = .next (State.finish
          { s with output := s.output ++ [b], eslot := BitVec.ofNat 9 (s.iccTotal.toNat + 1), eidx := 0 }
          .iccPresent .closed)) ∨
        (rest ≠ [] ∧ ∃ (eslot : BitVec 9) (eidx : BitVec 24),
          profileRest s.profileSlots eslot.toNat eidx.toNat = rest ∧
          step s = .next { s with output := s.output ++ [b], eslot := eslot, eidx := eidx })) := by
  obtain ⟨hlo, hhi, hin⟩ := hs.profile he
  have hslot := State.profileSlots_getElem? hlo hhi
  obtain ⟨hcount, hlegal⟩ := hs.profileSlots_legal
  obtain ⟨b, hb, hrest⟩ := profileRest_cons hlo hslot hin
  have hstep : step s = .next
      ({ s with output := s.output ++ [b] }.emitFrom s.profileSlots s.eslot.toNat (s.eidx.toNat + 1)) := by
    rw [step_of_run ((fetch_nil ha).trans (engineTurn_emitIcc he)), exec_iccProfileOut_some hb,
      State.outPush_room b _ (State.outputRoom_iff.2 hroom)]
  refine ⟨b, _, hrest, ?_⟩
  rw [hstep]
  obtain ⟨hend, hf⟩ | ⟨hmore, eslot, eidx, hf, hnext, -⟩ :=
    { s with output := s.output ++ [b] }.emitFrom_cases hcount hlegal hlo hslot hin <;> rw [hf]
  · exact .inl ⟨hend, by rw [State.profileSlots_length]⟩
  · exact .inr ⟨hmore, eslot, eidx, hnext, by rw [← he]⟩

/-- From a state within the invariant the bytes still to come are pushed one a step, and with the last GET_ICC ends
(rules R164, R260, R261). -/
theorem stepN_profileRest {s : State} (hs : s.Inv) (ha : s.agenda = []) (he : s.estate = .emitIcc) {bytes : List Byte}
    (hbytes : profileRest s.profileSlots s.eslot.toNat s.eidx.toNat = bytes)
    (hroom : s.output.length + bytes.length ≤ s.params.outDepth) :
    stepN bytes.length s = .next (State.finish
      { s with output := s.output ++ bytes, eslot := BitVec.ofNat 9 (s.iccTotal.toNat + 1), eidx := 0 }
      .iccPresent .closed) := by
  induction bytes generalizing s with
  | nil =>
    obtain ⟨hlo, hhi, hin⟩ := hs.profile he
    obtain ⟨b, -, hrest⟩ := profileRest_cons hlo (State.profileSlots_getElem? hlo hhi) hin
    cases hbytes.symm.trans hrest
  | cons b bytes ih =>
    rw [List.length_cons] at hroom
    obtain ⟨b', rest, hrest, h⟩ := step_emitIcc hs ha he (by omega)
    obtain ⟨rfl, rfl⟩ := List.cons.inj (hbytes.symm.trans hrest)
    rw [List.length_cons, Nat.add_comm]
    obtain ⟨rfl, hstep⟩ | ⟨-, eslot, eidx, hnext, hstep⟩ := h
    · exact (stepN_one s).trans hstep
    · rw [stepN_add ((stepN_one s).trans hstep),
        ih (stepKeepsInvariant s _ hs hstep) ha he hnext (by simp only [List.length_append, List.length_singleton]; omega)]
      simp only [List.append_assoc, List.singleton_append]

/-- Settles O50: `stepN_profileRest` at the cursor the state has. -/
theorem profileRun : Obligations.ProfileRun := fun _ hs ha he => stepN_profileRest hs ha he rfl

end Sys2Proof.Machine
end

section
/-! The scanner: the pairs that are markers, and the turns that keep it scanning (rules R201 to R213). -/

namespace Sys2Proof

/-- A marker code is what the classes STUFF, FILL, EOI and RST leave over (rules R158, R213). -/
theorem isMarkerCode_iff (code : Byte) :
    isMarkerCode code = true ↔
      code ≠ 0x00#8 ∧ code ≠ 0xFF#8 ∧ code ≠ 0xD9#8 ∧ ¬ (0xD0 ≤ code.toNat ∧ code.toNat ≤ 0xD7) := by
  simp only [isMarkerCode, Bool.or_eq_true, Bool.and_eq_true, decide_eq_true_eq, beq_iff_eq, ne_eq,
    ← BitVec.toNat_inj, BitVec.toNat_ofNat]
  omega

/-- A pair is a MARKER exactly when it is that marker's encoding (rule R158). -/
theorem decodePair_eq_marker_iff {b0 b1 code : Byte} :
    decodePair b0 b1 = .marker code ↔ b0 = 0xFF#8 ∧ code = b1 ∧ isMarkerCode code = true := by
  constructor
  · intro h
    obtain ⟨hcode, hpair⟩ := h ▸ encodes_decodePair b0 b1
    obtain ⟨h0, h1⟩ := Code.scanPair.inj hpair
    exact ⟨h0.symm, h1, hcode⟩
  · rintro ⟨rfl, rfl, hcode⟩
    exact decodePair_marker hcode

end Sys2Proof

namespace Sys2Proof.Machine

/-- The scanner's second byte: the turn runs the class of the pair (rule R202). -/
theorem fetch_scanB1 {s : State} {v : Byte} {items : List Item} (ha : s.agenda = []) (he : s.estate = .scanB1)
    (hi : s.input = .byte v :: items) :
    fetch s = .run (decodePair s.b0 v) { s with input := items, pos := s.pos + 1, b1 := v } := by
  rw [fetch_nil ha, engineTurn_scanB1 he, State.readByte_byte _ hi, State.fetchPair]

/-- Settles O5: the turn runs the pair's class, and that is MARKER exactly on the marker codes. -/
theorem scannerReturnsMarkers : Obligations.ScannerReturnsMarkers := by
  intro s v items ha he hi
  refine ⟨decodePair s.b0 v, fetch_scanB1 ha he hi, fun code => ?_⟩
  rw [decodePair_eq_marker_iff, isMarkerCode_iff]

/-- Settles O34: the first byte by the turn of SCAN_B0, the four classes by what their instructions do. -/
theorem scannerScansOn : Obligations.ScannerScansOn := by
  intro s
  refine ⟨fun v items ha he hi => ?_, fun b0 b1 => ?_, ?_, ?_, fun n => ?_⟩
  · exact step_byte ha hi (engineTurn_scanB0 he)
  · rw [exec, execDesync]
  · rw [exec, execStuff]
  · rw [exec, execFill]
  · rw [exec, execRst]

end Sys2Proof.Machine
end

section
/-! The segment reader: the length field, a payload byte, and the run over a whole segment (rules R231 to R237). -/

namespace Sys2Proof.Machine

/-! ### The length field (rules R231 to R233) -/

/-- The length field is the number its two bytes name, high byte first (rule R107). -/
theorem eq_be16_of_toNat {hi lo : Byte} {L : Half} (h : L.toNat = 256 * hi.toNat + lo.toNat) : L = be16 hi lo :=
  BitVec.eq_of_toNat_eq (h.trans (be16_toNat hi lo).symm)

/-- LEN_HI sets the high byte of LEN and keeps the low one (rule R231). -/
theorem be16_low_eq_ofNat (hi : Byte) (len : Half) :
    be16 hi (len.extractLsb' 0 8) = BitVec.ofNat 16 (256 * hi.toNat + len.toNat % 256) := by
  have hhi := hi.isLt
  refine (eq_be16_of_toNat ?_).symm
  rw [BitVec.toNat_ofNat, BitVec.extractLsb'_toNat, Nat.shiftRight_zero]
  omega

/-- LEN_LO finds the high byte in LEN (rule R232). -/
theorem be16_high (hi lo : Byte) : (be16 hi lo).extractLsb' 8 8 = hi :=
  (List.cons.inj (bytes16_be16 hi lo)).1

/-- Once the check has passed, `size` on 16 bits is the difference on integers (rules R232, R233). -/
theorem ofNat_size_eq_sub {L : Half} (h : 2 ≤ L.toNat) : BitVec.ofNat 16 (L.toNat - 2) = L - 2#16 := by
  have hL := L.isLt
  apply BitVec.eq_of_toNat_eq
  rw [BitVec.toNat_ofNat, BitVec.toNat_sub_of_le h]
  exact Nat.mod_eq_of_lt (by omega)

/-- Settles O39: the first byte by `be16_low_eq_ofNat`, the check by the three cases of `State.lengthLow`. -/
theorem lengthField : Obligations.LengthField := by
  intro s hi lo
  refine ⟨?_, fun L hL => ?_⟩
  · rw [← be16_low_eq_ofNat]
    rfl
  · obtain rfl := eq_be16_of_toNat hL
    refine ⟨fun h => ?_, fun h => ?_, fun h => ?_⟩
    · exact congrArg Host.Outcome.next (State.lengthLow_invalid h)
    · exact congrArg Host.Outcome.next (State.lengthLow_empty h)
    · rw [← ofNat_size_eq_sub h.le]
      exact congrArg Host.Outcome.next (State.lengthLow_body h)

/-! ### A payload byte (rules R234, R235) -/

/-- The last payload byte ends the segment, every other one is counted off (rules R234 to R236). -/
theorem State.bodyCount_eq (s : State) :
    s.bodyCount =
      if s.remain = 1#16 then { s with remain := 0#16 }.onSegmentEnd else { s with remain := s.remain - 1#16 } := by
  have hlast : s.remain - 1 = 0 ↔ s.remain = 1#16 := by bv_omega
  unfold State.bodyCount
  simp only [hlast]
  split_ifs with h
  · simp only [h]; rfl
  · rfl

/-- Settles O40: the byte by `State.bodyByte`'s two cases, the count by `State.bodyCount_eq`. -/
theorem payloadByte : Obligations.PayloadByte := by
  intro s v
  refine ⟨fun hk => ?_, fun hk hl => ?_⟩
  · exact (State.bodyByte_dropped v hk).trans (congrArg Host.Outcome.next s.bodyCount_eq)
  · refine ⟨s.segbuf.write s.seglen.toNat v, Memory.read_write_same _ _ _,
      fun a ha => Memory.read_write_other _ v ha, ?_⟩
    exact (State.bodyByte_kept v hk hl).trans (congrArg Host.Outcome.next (State.bodyCount_eq _))

/-! ### A whole segment (rules R231, R232, R234 to R237) -/

/-- A run of bytes written reads back at its own indices and leaves every other entry alone (rule R104). -/
theorem Memory.read_writeRange (m : Memory) (i a : Nat) (bytes : List Byte) :
    (writeRange m i bytes).read a = if i ≤ a ∧ a < i + bytes.length then bytes[a - i]? else m.read a := by
  induction bytes generalizing m i with
  | nil => rw [if_neg (by simp)]; rfl
  | cons v rest ih =>
    rw [writeRange, ih, Memory.read_write, List.length_cons]
    obtain hlt | rfl | hgt := Nat.lt_trichotomy a i
    · rw [if_neg (by omega), if_neg (by omega), if_neg (by omega)]
    · rw [if_neg (by omega), if_pos rfl, if_pos (by omega), Nat.sub_self, List.getElem?_cons_zero]
    · rw [if_neg hgt.ne', show a - i = a - (i + 1) + 1 by omega, List.getElem?_cons_succ]
      exact if_congr (by omega) rfl rfl

/-- Bytes written in two runs are written in one (rule R104). -/
theorem writeRange_append (m : Memory) (i : Nat) (xs ys : List Byte) :
    writeRange m i (xs ++ ys) = writeRange (writeRange m i xs) (i + xs.length) ys := by
  induction xs generalizing m i with
  | nil => rfl
  | cons x xs ih =>
    rw [List.cons_append, writeRange, writeRange, ih, List.length_cons, Nat.add_right_comm, Nat.add_assoc]

/-- What KEEP lets through of the payload bytes read (rules R66, R234). -/
def State.keptOf (s : State) (bytes : List Byte) : List Byte := if s.keep then bytes else []

theorem State.keptOf_discarded {s : State} (h : s.keep = false) (bytes : List Byte) : s.keptOf bytes = [] := by
  simp [State.keptOf, h]

theorem State.keptOf_kept {s : State} (h : s.keep = true) (bytes : List Byte) : s.keptOf bytes = bytes := by
  simp [State.keptOf, h]

theorem State.keptOf_append (s : State) (xs ys : List Byte) : s.keptOf (xs ++ ys) = s.keptOf xs ++ s.keptOf ys := by
  unfold State.keptOf
  split <;> rfl

theorem State.length_keptOf_le (s : State) (bytes : List Byte) : (s.keptOf bytes).length ≤ bytes.length := by
  unfold State.keptOf
  split
  · exact le_rfl
  · exact Nat.zero_le _

/-- The state once a segment's length field has been read and passed its check, with `items` still in the channel; the
engine is in `e` (rules R231, R232). -/
def State.lengthRead (s : State) (len : Half) (items : List Item) (e : EState) : State :=
  { s with input := items, pos := s.pos + 2#32, len := len, remain := len - 2#16, seglen := 0#16, estate := e }

/-- The state once `bytes` of the payload have been read and counted off, with `items` still in the channel
(rules R234, R235). -/
def State.payloadRead (s : State) (bytes : List Byte) (items : List Item) : State :=
  { s with
    input := items
    pos := s.pos + BitVec.ofNat 32 bytes.length
    remain := s.remain - BitVec.ofNat 16 bytes.length
    seglen := s.seglen + BitVec.ofNat 16 (s.keptOf bytes).length
    segbuf := writeRange s.segbuf s.seglen.toNat (s.keptOf bytes) }

theorem State.payloadRead_nil (s : State) : s.payloadRead [] s.input = s := by
  have hkept : s.keptOf [] = [] := ite_self []
  simp [State.payloadRead, hkept, writeRange]

/-- Payload read in two runs is read in one, while SEGLEN does not wrap (rules R234, R235). -/
theorem State.payloadRead_append {s : State} {xs : List Byte} (h : s.seglen.toNat + xs.length < 65536)
    (ys : List Byte) (items items' : List Item) :
    (s.payloadRead xs items).payloadRead ys items' = s.payloadRead (xs ++ ys) items' := by
  have hle := s.length_keptOf_le xs
  have hkept : (s.payloadRead xs items).keptOf ys = s.keptOf ys := rfl
  have hseglen : (s.seglen + BitVec.ofNat 16 (s.keptOf xs).length).toNat = s.seglen.toNat + (s.keptOf xs).length := by
    rw [BitVec.toNat_add_of_lt] <;> rw [BitVec.toNat_ofNat, Nat.mod_eq_of_lt (by omega)]
    omega
  rw [State.payloadRead, hkept]
  simp only [State.payloadRead, hseglen, State.keptOf_append, writeRange_append, List.length_append, BitVec.ofNat_add,
    BitVec.add_assoc, BitVec.sub_sub]

/-- One BODY step: the byte is taken and dropped or kept, and the last one ends the segment (rules R234 to R236). -/
theorem step_body {s : State} {v : Byte} {items : List Item} (ha : s.agenda = []) (he : s.estate = .body)
    (hi : s.input = .byte v :: items) (hroom : s.keep = true → s.seglen.toNat < 65533) :
    step s = .next (if s.remain = 1#16 then (s.payloadRead [v] items).onSegmentEnd else s.payloadRead [v] items) := by
  have hcount : step s = .next { s.payloadRead [v] items with remain := s.remain }.bodyCount := by
    refine (step_byte ha hi (engineTurn_body he)).trans ?_
    by_cases hk : s.keep = true
    · simp only [State.payloadRead, State.keptOf_kept hk]
      exact State.bodyByte_kept (s := s.taken items) v hk (hroom hk)
    · rw [Bool.not_eq_true] at hk
      simp only [State.payloadRead, State.keptOf_discarded hk, List.length_nil, BitVec.add_zero]
      exact State.bodyByte_dropped (s := s.taken items) v hk
  rw [hcount, State.bodyCount_eq]
  split_ifs with h
  · have hlast : s.remain = 1#16 := h
    have hzero : s.remain - BitVec.ofNat 16 [v].length = 0#16 := hlast ▸ BitVec.sub_self _
    simp only [State.payloadRead, hzero]
  · rfl

/-- From the first payload byte on, the reader takes what REMAIN says, one byte a step, and then performs OnSegmentEnd
(rules R234 to R236). -/
theorem stepN_payloadRead {s : State} {v : Byte} {rest : List Byte} {items : List Item} (ha : s.agenda = [])
    (he : s.estate = .body) (hi : s.input = (v :: rest).map Item.byte ++ items)
    (hremain : s.remain.toNat = rest.length + 1) (hroom : s.seglen.toNat + rest.length < 65533) :
    stepN (rest.length + 1) s = .next (s.payloadRead (v :: rest) items).onSegmentEnd := by
  induction rest generalizing s v with
  | nil =>
    have hlast : s.remain = 1#16 := BitVec.eq_of_toNat_eq hremain
    rw [List.length_nil, stepN_one, step_body (items := items) ha he hi fun _ => hroom, if_pos hlast]
  | cons w rest ih =>
    rw [List.length_cons] at hremain hroom ⊢
    have hmore : s.remain ≠ 1#16 := by bv_omega
    have hstep := step_body (items := (w :: rest).map Item.byte ++ items) ha he hi fun _ => by omega
    rw [if_neg hmore] at hstep
    have hle := s.length_keptOf_le [v]
    rw [List.length_singleton] at hle
    rw [Nat.add_comm _ 1, stepN_add ((stepN_one s).trans hstep), ih (s := s.payloadRead [v] _) ha he rfl ?_ ?_,
      State.payloadRead_append (by rw [List.length_singleton]; omega), List.singleton_append]
    · simp only [State.payloadRead, List.length_singleton]; bv_omega
    · simp only [State.payloadRead]; bv_omega

/-- The LEN_LO step, with the high byte taken out of LEN (rule R232). -/
theorem step_lenLo {s : State} {v : Byte} {items : List Item} (ha : s.agenda = []) (he : s.estate = .lenLo)
    (hi : s.input = .byte v :: items) :
    step s = .next ((s.taken items).lengthLow (s.len.extractLsb' 8 8) v) :=
  step_byte ha hi (engineTurn_lenLo he)

/-- The two length bytes: a length of 2 ends the segment, a longer one starts its payload (rules R231, R232). -/
theorem stepN_lengthRead {s : State} {hi lo : Byte} {items : List Item} (ha : s.agenda = []) (he : s.estate = .lenHi)
    (hin : s.input = .byte hi :: .byte lo :: items) (hL : 2 ≤ (be16 hi lo).toNat) :
    stepN 2 s = .next (if be16 hi lo = 2#16 then (s.lengthRead (be16 hi lo) items .lenLo).onSegmentEnd
      else s.lengthRead (be16 hi lo) items .body) := by
  have hpos : s.pos + 1 + 1 = s.pos + 2#32 := BitVec.add_assoc ..
  have hhigh : stepN 1 s = .next ((s.taken (.byte lo :: items)).lengthHigh hi) :=
    (stepN_one s).trans (step_byte ha hin (engineTurn_lenHi he))
  have hlow := step_lenLo (s := (s.taken (.byte lo :: items)).lengthHigh hi) (v := lo) (items := items) ha rfl rfl
  rw [stepN_add hhigh 1, stepN_one, hlow]
  simp only [State.lengthHigh, be16_high]
  split_ifs with h
  · rw [State.lengthLow_empty (congrArg BitVec.toNat h)]
    simp only [State.lengthRead, h, hpos, BitVec.sub_self]; rfl
  · have hlt : 2 < (be16 hi lo).toNat := by bv_omega
    rw [State.lengthLow_body hlt, ofNat_size_eq_sub hL]
    simp only [State.lengthRead, hpos]; rfl

/-- A whole segment: its length field and then its payload, up to OnSegmentEnd, which the engine performs in LEN_LO or
in BODY (rules R231 to R236). -/
theorem stepN_segmentRead {s : State} {payload : List Byte} {hi lo : Byte} {items : List Item} (ha : s.agenda = [])
    (he : s.estate = .lenHi) (hL : 256 * hi.toNat + lo.toNat = payload.length + 2)
    (hin : s.input = (hi :: lo :: payload).map Item.byte ++ items) :
    ∃ e, stepN (2 + payload.length) s = .next
      ((s.lengthRead (be16 hi lo) (payload.map Item.byte ++ items) e).payloadRead payload items).onSegmentEnd := by
  have hnat : (be16 hi lo).toNat = payload.length + 2 := (be16_toNat hi lo).trans hL
  have hlt := (be16 hi lo).isLt
  have hfield := stepN_lengthRead ha he hin (by omega)
  cases payload with
  | nil =>
    rw [if_pos (BitVec.eq_of_toNat_eq hnat)] at hfield
    refine ⟨.lenLo, hfield.trans ?_⟩
    exact congrArg (fun u : State => Host.Outcome.next u.onSegmentEnd) (State.payloadRead_nil _).symm
  | cons v rest =>
    rw [List.length_cons] at hnat
    rw [if_neg (by bv_omega)] at hfield
    refine ⟨.body, (stepN_add hfield _).trans (stepN_payloadRead ha rfl rfl ?_ ?_)⟩
    · simp only [State.lengthRead]; bv_omega
    · simp only [State.lengthRead, BitVec.toNat_ofNat]; omega

/-- Settles O42: the run by `stepN_segmentRead`, SEGBUF by `Memory.read_writeRange`. -/
theorem segmentReadRun : Obligations.SegmentReadRun := by
  intro s payload hi lo items ha he hlen hL hin
  obtain ⟨e, hrun⟩ := stepN_segmentRead ha he hL hin
  have hnat : (be16 hi lo).toNat = payload.length + 2 := (be16_toNat hi lo).trans hL
  have hfield : be16 hi lo = BitVec.ofNat 16 (payload.length + 2) :=
    BitVec.eq_of_toNat_eq (by rw [hnat, BitVec.toNat_ofNat]; omega)
  have hremain : be16 hi lo - 2#16 - BitVec.ofNat 16 payload.length = 0#16 := by bv_omega
  refine ⟨_, hrun, ?_, ?_, fun a => ?_, ?_⟩
  · simp only [State.payloadRead, State.lengthRead, BitVec.add_assoc, BitVec.ofNat_add]
  · have hkept : (s.keptOf payload).length = if s.keep then payload.length else 0 := apply_ite List.length ..
    have hle := s.length_keptOf_le payload
    change (0#16 + BitVec.ofNat 16 (s.keptOf payload).length).toNat = _
    rw [BitVec.zero_add, BitVec.toNat_ofNat, Nat.mod_eq_of_lt (by omega), hkept]
  · refine (Memory.read_writeRange s.segbuf 0 a (s.keptOf payload)).trans ?_
    by_cases hk : s.keep = true
    · simp [State.keptOf_kept hk, hk]
    · simp [State.keptOf_discarded (Bool.eq_false_of_not_eq_true hk), hk]
  · simp only [State.payloadRead, State.lengthRead, hremain, ← hfield]

end Sys2Proof.Machine
end

section
/-! SUPPORT. The assembler (spec/43_icc_assembler.md): a chunk's checks in their order, the chunk as it is stored, and the
start of the profile's emission; and the statements on them. -/

namespace Sys2Proof.Machine

/-! ### The count that step 4 fixes or compares (rules R254, R255) -/

@[simp] theorem State.counted_params (s : State) (cnt : Byte) : (s.counted cnt).params = s.params := by
  rw [State.counted_eq]

@[simp] theorem State.counted_iccFilled (s : State) (cnt : Byte) : (s.counted cnt).iccFilled = s.iccFilled := by
  rw [State.counted_eq]

@[simp] theorem State.counted_valid (s : State) (cnt : Byte) (k : Nat) : (s.counted cnt).valid k = s.valid k := by
  rw [State.counted_eq]; rfl

@[simp] theorem State.counted_slot (s : State) (cnt : Byte) (k : Nat) : (s.counted cnt).slot k = s.slot k := by
  rw [State.counted_eq]; rfl

@[simp] theorem State.counted_newUsed (s : State) (cnt seq : Byte) (payload : List Byte) :
    (s.counted cnt).newUsed seq payload = s.newUsed seq payload := by
  rw [State.counted_eq]; rfl

/-- On a first chunk, and on a later one whose count is the total, the total is the chunk's count. -/
theorem State.counted_of_agrees {s : State} {cnt : Byte} (h : s.iccActive = true → cnt = s.iccTotal) :
    s.counted cnt = { s with iccTotal := cnt, iccActive := true } := by
  rw [State.counted_eq]
  congr 1
  unfold State.counted
  split_ifs with ha
  · exact (h ha).symm
  · rfl

/-- A sequence number other than 0 names a slot (rules R54, R253). -/
theorem one_le_toNat_of_ne_zero {seq : Byte} (h : seq ≠ 0#8) : 1 ≤ seq.toNat :=
  Nat.one_le_iff_ne_zero.2 fun h0 => h (BitVec.eq_of_toNat_eq h0)

/-! ### The bytes in use (rules R57, R250) -/

/-- A slot's bytes are among those that ICC_USED counts (rule R57). -/
theorem IccCounts.slotLen_le {s : State} (hi : IccCounts s) (hm : MemoriesCanonical s) (k : Nat) :
    s.slotLen k ≤ s.iccUsed.toNat := by
  obtain ⟨-, hused, -⟩ := hi
  have hbytes := SlotFile.bytes_cellSet (k := k) (bytes := []) (Bool.and_eq_true_iff.1 hm.2).1
  have hslot : (s.slot k).length ≤ s.iccUsed.toNat := by
    rw [hused, State.slot]; simp only [List.length_nil] at hbytes; omega
  unfold State.slotLen
  split_ifs
  · exact hslot
  · exact Nat.zero_le _

/-- `new_used` in the order of rule R250's terms (log entry 8). -/
theorem State.newUsed_eq {s : State} (hi : IccCounts s) (hm : MemoriesCanonical s) (seq : Byte) (payload : List Byte) :
    s.newUsed seq payload = s.iccUsed.toNat - s.slotLen seq.toNat + payload.length := by
  have := hi.slotLen_le hm seq.toNat
  unfold State.newUsed
  omega

/-- The 24 bits of ICC_USED hold the bytes of any legal slot file (rules R57, R256). -/
theorem State.newUsed_lt {s : State} (hi : IccCounts s) (hm : MemoriesCanonical s) {seq : Byte} (hseq : seq ≠ 0#8)
    {payload : List Byte} (hl : payload.length ≤ Config.maxChunkBytes) : s.newUsed seq payload < 2 ^ 24 := by
  have hwf := (hm.storeChunk hseq hl).2
  rw [State.storeChunk_eq] at hwf
  have hcount := SlotFile.length_le hwf
  have hbytes := SlotFile.bytes_le hwf
  rw [State.newUsed_eq_bytes hi hm hseq]
  simp only [Config.maxChunks, Config.maxChunkBytes] at hcount hbytes
  omega

/-! ### The checks in their order (rules R251 to R256, R264) -/

/-- Steps 1 and 2: a chunk that is too short or without the signature is refused (rules R251, R252). -/
theorem decodeChunk_header_invalid {data : List Byte} (h : data.length < 14 ∨ data.take 12 ≠ iccSignature) :
    decodeChunk data = .rejected .invalidIccHeader := by
  unfold decodeChunk
  split_ifs with hsize hsig
  · rfl
  · rfl
  · obtain h | h := h
    · exact absurd (.inl h) hsize
    · exact absurd h hsig

theorem State.fetchChunk_rejected {s : State} {data : List Byte} {why : Undecoded} (hd : s.heldSegment = some data)
    (h : decodeChunk data = .rejected why) : s.fetchChunk = .answer (.next (s.raiseFormat .invalidIccHeader)) := by
  simp only [State.fetchChunk, hd, h]

/-- Steps 3 and 4, each check in its turn, and then the later steps on the count that is settled (rules R253 to R255,
R264). -/
theorem State.assemble_eq (s : State) (seq cnt : Byte) (payload : List Byte) :
    s.assemble seq cnt payload =
      if seq = 0#8 then s.raiseFormat .invalidSequenceNumber
      else if s.iccActive = true ∧ cnt ≠ s.iccTotal then s.raiseFormat .inconsistentChunkCount
      else (s.counted cnt).chunkCounted seq payload := by
  unfold State.assemble
  by_cases hseq : seq = 0#8
  · rw [if_pos hseq, if_pos hseq]
  rw [if_neg hseq, if_neg hseq]
  cases ha : s.iccActive with
  | false => rw [if_pos rfl, if_neg (by simp), State.counted_of_agrees (by simp [ha])]
  | true =>
    rw [if_neg (by simp)]
    by_cases hcnt : cnt = s.iccTotal
    · rw [if_neg (by simp [hcnt]), if_neg (by simp [hcnt]), State.counted, if_pos ha]
    · rw [if_pos hcnt, if_pos ⟨rfl, hcnt⟩]

/-- Steps 5 and 6, with the chunk's own count as the total (rules R255 to R257). -/
theorem State.chunkCounted_counted {s : State} {cnt : Byte} (h : s.iccActive = true → cnt = s.iccTotal) (seq : Byte)
    (payload : List Byte) : (s.counted cnt).chunkCounted seq payload =
      if cnt.toNat < seq.toNat then (s.counted cnt).raiseFormat .invalidSequenceNumber
      else if s.params.iccMemBytes < s.newUsed seq payload then (s.counted cnt).raiseFormat .capacity
      else ((s.counted cnt).storeChunk seq payload).chunkStored := by
  have htotal : (s.counted cnt).iccTotal = cnt := by rw [State.counted_of_agrees h]
  rw [State.chunkCounted, htotal, State.counted_params, State.counted_newUsed]

theorem exec_iccChunk (s : State) (seq cnt : Byte) (payload : List Byte) :
    exec (.iccChunk seq cnt payload) s = .next (s.assemble seq cnt payload) := rfl

/-- Settles O45: the header by `decodeChunk_header_invalid`, the other checks by `State.assemble_eq` and
`State.chunkCounted_counted`. -/
theorem iccChecksRunInOrder : Obligations.IccChecksRunInOrder := by
  intro s data hs ha he hlen hreads
  have hheld : s.heldSegment = some data :=
    Memory.readRange_of_reads hlen fun k hk => by rw [Nat.zero_add]; exact hreads k (hlen ▸ hk)
  have hinvalid (h : data.length < 14 ∨ data.take 12 ≠ iccSignature) :
      step s = .next (s.raise .invalidIccHeader .none 0) :=
    step_of_answer ((fetch_nil ha).trans ((engineTurn_assemble he).trans
      (State.fetchChunk_rejected hheld (decodeChunk_header_invalid h))))
  refine ⟨fun h => hinvalid (.inl h), fun _ h => hinvalid (.inr h), fun seq cnt payload hdata => ?_⟩
  have hpayload : payload.length ≤ Config.maxChunkBytes := by
    have hcount := hs.reader.2 (.inl he)
    have hfield := s.len.isLt
    rw [← hlen, hdata] at hcount
    simp only [List.length_append, List.length_cons, List.length_nil] at hcount
    rw [Config.maxChunkBytes]
    omega
  have hdecode : decodeChunk data = .instr (.iccChunk seq cnt payload) :=
    hdata ▸ decodeChunk_encodeChunk seq cnt hpayload
  have hrun : step s = .next (s.assemble seq cnt payload) :=
    step_of_run ((fetch_nil ha).trans ((engineTurn_assemble he).trans (State.fetchChunk_instr hheld hdecode)))
  intro counted old
  have hused : s.newUsed seq payload = s.iccUsed.toNat - old + payload.length :=
    State.newUsed_eq hs.icc hs.memories seq payload
  rw [hrun, exec_iccChunk, ← hused, State.assemble_eq]
  by_cases hcnt : s.iccActive = true ∧ cnt ≠ s.iccTotal
  · rw [if_pos hcnt, if_pos hcnt]
    split_ifs <;> rfl
  · rw [if_neg hcnt, if_neg hcnt, State.chunkCounted_counted (not_and_not_right.1 hcnt)]
    split_ifs <;> rfl

/-- Settles O48: on a first chunk step 4 fixes the total at 0, below every sequence number; on a later one the total is
over the number of slots that are filled. -/
theorem countZeroAlwaysFails : Obligations.CountZeroAlwaysFails := by
  intro s seq payload hs he hseq
  rw [exec_iccChunk, State.assemble_eq, if_neg hseq]
  refine ⟨fun ha => ?_, fun ha => ?_⟩
  · have hagrees : s.iccActive = true → 0 = s.iccTotal := by simp [ha]
    have hbelow : (0 : Byte).toNat < seq.toNat := one_le_toNat_of_ne_zero hseq
    rw [if_neg (not_and_not_right.2 hagrees), State.chunkCounted_counted hagrees, if_pos hbelow,
      State.counted_of_agrees hagrees]
    rfl
  · have hop : s.op = .getIcc := by simpa [OpMatches, he] using hs.op
    obtain ⟨-, hlt⟩ := (hs.scanning (he ▸ rfl)).gathering hop ha
    have htotal : 1 ≤ s.iccTotal.toNat := Nat.one_le_of_lt hlt
    have hcnt : 0x00#8 ≠ s.iccTotal := fun h0 => by rw [← h0] at htotal; exact absurd htotal (Nat.not_succ_le_zero 0)
    refine ⟨htotal, ?_⟩
    rw [if_pos ⟨ha, hcnt⟩]
    rfl

/-! ### A chunk as it is stored (rules R254, R257, R258, R261, R262) -/

/-- Settles O46: the state is `State.storeChunk`'s on the settled count, and step 7 follows it. -/
theorem chunkStored : Obligations.ChunkStored := by
  intro s seq cnt payload hi hm hl hseq hle hagrees old hcap
  have hcounted := State.counted_of_agrees hagrees
  have hused : s.newUsed seq payload = s.iccUsed.toNat - old + payload.length := State.newUsed_eq hi hm seq payload
  have hlt := State.newUsed_lt hi hm hseq hl
  refine ⟨(s.counted cnt).storeChunk seq payload, ?_, ?_, ?_, fun k => ?_, fun k => ?_, ?_⟩
  · rw [State.storeChunk_eq, hcounted]
  · rw [State.storeChunk_eq, State.counted_valid, State.counted_iccFilled]
    rfl
  · rw [State.storeChunk_eq, State.counted_newUsed, ← hused]
    exact (BitVec.toNat_ofNat ..).trans (Nat.mod_eq_of_lt hlt)
  · rw [State.valid_storeChunk _ _ _ _ (one_le_toNat_of_ne_zero hseq), State.counted_valid]
  · rw [State.slot_storeChunk, State.counted_slot]
  · have htotal : ((s.counted cnt).storeChunk seq payload).iccTotal = cnt := by rw [State.storeChunk_eq, hcounted]
    rw [exec_iccChunk, State.assemble_eq, if_neg hseq, if_neg (not_and_not_right.2 hagrees),
      State.chunkCounted_counted hagrees, if_neg (Nat.not_lt.2 hle), if_neg (Nat.not_lt.2 (hused.trans_le hcap)),
      State.chunkStored, htotal]

/-- Settles O52, by induction on the arrivals from the last one back. -/
theorem lastChunkWins : Obligations.LastChunkWins := by
  intro arrivals s k
  induction arrivals using List.reverseRecOn with
  | nil => rfl
  | append_singleton arrivals a ih =>
    rw [List.foldl_append, List.foldl_cons, List.foldl_nil, State.slot_storeChunk, ih, List.reverse_append,
      List.reverse_singleton, List.singleton_append, List.find?_cons]
    by_cases hk : k = a.1.toNat
    · simp [hk]
    · have hk' : (a.1.toNat == k) = false := beq_false_of_ne (Ne.symm hk)
      rw [if_neg hk, hk']

/-! ### The emission of the profile (rules R259, R260) -/

/-- `SkipEmpty` from the first byte goes past the slots that hold none (rule R259). -/
theorem skipEmpty_append {l : List (List Byte)} (h : ∀ p ∈ l, p = []) (m : List (List Byte)) (k : Nat) :
    skipEmpty (l ++ m) k 0 = skipEmpty m (k + l.length) 0 := by
  induction l generalizing k with
  | nil => rfl
  | cons p l ih =>
    obtain rfl := h p List.mem_cons_self
    rw [List.cons_append, skipEmpty, if_pos List.length_nil.symm, ih (fun q hq => h q (List.mem_cons_of_mem _ hq)),
      List.length_cons, Nat.add_assoc, Nat.add_comm 1]

theorem skipEmpty_of_ne_nil {p : List Byte} (h : p ≠ []) (m : List (List Byte)) (k : Nat) :
    skipEmpty (p :: m) k 0 = (k, 0) := by
  rw [skipEmpty, if_neg (Ne.symm (mt List.length_eq_zero_iff.1 h))]

/-- The slots before number `k + 1` are empty when each number up to `k` has an empty slot. -/
theorem State.profileSlots_take_empty {s : State} {k : Nat} (h : ∀ j, 1 ≤ j → j ≤ k → s.slot j = []) :
    ∀ p ∈ s.profileSlots.take k, p = [] := by
  intro p hp
  obtain ⟨i, hi, rfl⟩ := List.mem_take_iff_getElem.1 hp
  simp only [State.profileSlots, List.getElem_map, List.getElem_range]
  exact h (i + 1) (by omega) (by omega)

/-- Settles O47: `SkipEmpty` passes over the empty slots before the first that holds a byte, or over all of them. -/
theorem emissionStarts : Obligations.EmissionStarts := by
  intro s
  refine ⟨fun hempty => ?_, fun k hlo hhi hk hbefore => ?_⟩
  · have hskip : skipCursor s.profileSlots 1 0 = (s.iccTotal.toNat + 1, 0) := by
      have hall := State.profileSlots_take_empty hempty
      rw [← State.profileSlots_length, List.take_length] at hall
      have h := skipEmpty_append hall [] 1
      rw [List.append_nil, State.profileSlots_length, Nat.add_comm] at h
      exact h
    rw [State.startEmit, State.emitFrom, hskip, State.profileSlots_length]
    exact if_pos (Nat.lt_succ_self _)
  · have hskip : skipCursor s.profileSlots 1 0 = (k, 0) := by
      have hslot := State.profileSlots_getElem? hlo hhi
      obtain ⟨hlt, hget⟩ := List.getElem?_eq_some_iff.1 hslot
      have hall : ∀ q ∈ s.profileSlots.take (k - 1), q = [] :=
        State.profileSlots_take_empty fun j hj hjk => hbefore j hj (by omega)
      have h := skipEmpty_append hall (s.profileSlots.drop (k - 1)) 1
      rw [List.take_append_drop, List.length_take_of_le hlt.le, Nat.add_sub_cancel' hlo, List.drop_eq_getElem_cons hlt,
        hget, skipEmpty_of_ne_nil hk] at h
      exact h
    rw [State.startEmit, State.emitFrom, hskip, State.profileSlots_length]
    exact if_neg (Nat.not_lt.2 hhi)

/-- In a slot of the profile the byte at the cursor is the slot's (rule R260). -/
theorem profileByte_of_slot {slots : List (List Byte)} {k : Nat} {p : List Byte} (hk : 1 ≤ k)
    (hp : slots[k - 1]? = some p) (i : Nat) : profileByte slots k i = p[i]? := by
  obtain ⟨k, rfl⟩ := Nat.exists_eq_add_of_le' hk
  rw [Nat.add_sub_cancel] at hp
  simp only [profileByte, hp]

/-- Settles O49: the push by `State.outPush_room`, and the cursor after it by `State.emitFrom_cases`. -/
theorem profileByteStep : Obligations.ProfileByteStep := by
  intro s slots p hcount hlegal hlo hp hin
  obtain ⟨b, hb, hrest⟩ := profileRest_cons hlo hp hin
  rw [exec_iccProfileOut_some hb]
  refine ⟨fun hfull => State.outPush_full b _ (Bool.eq_false_iff.2 fun h => ?_), fun hroom => ?_⟩
  · exact absurd (State.outputRoom_iff.1 h) (Nat.not_lt.2 hfull)
  have hbyte : p[s.eidx.toNat]? = some b := (profileByte_of_slot hlo hp _).symm.trans hb
  refine ⟨b, _, _, State.outPush_room b _ (State.outputRoom_iff.2 hroom), hbyte, hrest, ?_⟩
  obtain ⟨hend, hf⟩ | ⟨hmore, eslot, eidx, hf, hnext, hlo', hq, hsame⟩ :=
    { s with output := s.output ++ [b] }.emitFrom_cases hcount hlegal hlo hp hin <;> rw [hf]
  · refine ⟨fun _ => rfl, fun hne => absurd hend hne, fun hlt => ?_⟩
    obtain ⟨b', -, hcons⟩ := profileRest_cons hlo hp hlt
    cases hend.symm.trans hcons
  · refine ⟨fun hnil => absurd hnil hmore, fun _ => ⟨rfl, hnext, hlo', hq⟩, fun hlt => ?_⟩
    obtain ⟨hslot, hidx⟩ := hsame hlt
    have hbound := hlegal p (List.mem_of_getElem? hp)
    exact ⟨BitVec.eq_of_toNat_eq hslot, BitVec.eq_of_toNat_eq (by rw [hidx]; bv_omega)⟩

end Sys2Proof.Machine
end

section
/-! SUPPORT. The host's commands (spec/44_parser_commands.md): what each does where it is accepted and where it is not, the
session states only OPEN or a reset leaves, and the endings of a command. -/

namespace Sys2Proof.Machine

/-! ### Accepted and rejected commands (rules R280, R281) -/

/-- A command in a session state that accepts it latches its word and has its effect (rule R280). -/
theorem exec_command_accepted {i : Instr} {s : State} (hi : i.role = .command) (hb : s.busy = false)
    (hl : commandLegality i s.sstate = none) :
    exec i s = .next (commandEffect i { s with cmdLast := commandWordOf i }) := by
  rw [exec_command hi, State.issue_accepted _ _ hb hl]

/-- A command in a session state that does not accept it latches its word and is rejected (rule R281). -/
theorem exec_command_rejected {i : Instr} {s : State} {err : ErrCode} (hi : i.role = .command) (hb : s.busy = false)
    (hl : commandLegality i s.sstate = some err) :
    exec i s = .next ({ s with cmdLast := commandWordOf i }.reject err) := by
  rw [exec_command hi, State.issue_refused _ _ hb hl]

theorem legalInStart_some {session : SState} (h : session ≠ .start) : legalInStart session = some .badState := if_neg h

theorem legalInReady_some {session : SState} (h : session ≠ .ready) : legalInReady session = some .badState := if_neg h

/-- Settles O24: OPEN is accepted in every session state. -/
theorem openStartsSession : Obligations.OpenStartsSession := by
  intro s hb
  rw [exec_command_accepted rfl hb rfl, commandWordOf_openSession]
  rfl

/-- Settles O25: each command's effect in the session state that accepts it. -/
theorem commandsAccepted : Obligations.CommandsAccepted := by
  intro s hb
  refine ⟨fun hs => ?_, fun hs => ?_⟩
  · have hl : legalInStart s.sstate = none := legalInStart_none.2 hs
    rw [exec_command_accepted (i := .readSoi) rfl hb hl, exec_command_accepted (i := .getIcc) rfl hb hl,
      commandWordOf_readSoi, commandWordOf_getIcc]
    exact ⟨rfl, rfl⟩
  · have hl : legalInReady s.sstate = none := legalInReady_none.2 hs
    refine ⟨fun t => ?_, ?_⟩
    · rw [exec_command_accepted (i := .getSegment t) rfl hb hl, commandWordOf_getSegment, commandWord_getSegment]
      rfl
    · rw [exec_command_accepted (i := .getCommonApp) rfl hb hl, commandWordOf_getCommonApp]
      rfl

/-- Settles O26: by the legality of each command. -/
theorem commandsRejectedInWrongState : Obligations.CommandsRejectedInWrongState := by
  intro s i hb h
  obtain ⟨rfl | rfl, hs⟩ | ⟨⟨t, rfl⟩ | rfl, hs⟩ := h
  · exact exec_command_rejected rfl hb (legalInStart_some hs)
  · exact exec_command_rejected rfl hb (legalInStart_some hs)
  · exact exec_command_rejected rfl hb (legalInReady_some hs)
  · exact exec_command_rejected rfl hb (legalInReady_some hs)

/-! ### The terminal session states (rules R296, R337) -/

/-- The session states in which no stream is read on (rule R296). -/
def SState.Terminal (session : SState) : Prop := session = .eoi ∨ session = .error ∨ session = .closed

theorem SState.Terminal.ne_start {session : SState} (h : session.Terminal) : session ≠ .start := by
  obtain rfl | rfl | rfl := h <;> exact nofun

theorem SState.Terminal.ne_ready {session : SState} (h : session.Terminal) : session ≠ .ready := by
  obtain rfl | rfl | rfl := h <;> exact nofun

/-- A terminal session state accepts no command but OPEN (rule R281). -/
theorem SState.Terminal.commandLegality {session : SState} (h : session.Terminal) {i : Instr} (hi : i.role = .command)
    (hopen : i ≠ .openSession) : commandLegality i session = some .badState := by
  cases i with
  | openSession => exact absurd rfl hopen
  | readSoi | getIcc => exact legalInStart_some h.ne_start
  | getSegment | getCommonApp => exact legalInReady_some h.ne_ready
  | _ => cases hi

/-- A command issued while none runs is noted by the host and executed (rule R280, log entry 14). -/
theorem step_command_idle {s : State} {w : Word} {rest : List Move} {i : Instr} (hb : s.busy = false)
    (ha : s.agenda = .write cmdOffset .word w :: rest) (hd : decodeCommand w = .instr i) :
    step s = exec i { s with agenda := rest, seen := s.seen ++ [.issued w] } := by
  rw [step_of_run ((fetch_write ha).trans (hostWrite_command hd)), State.noteIssue_idle w (by exact hb)]

theorem step_command_accepted {s : State} {w : Word} {rest : List Move} {i : Instr} (hb : s.busy = false)
    (ha : s.agenda = .write cmdOffset .word w :: rest) (hd : decodeCommand w = .instr i)
    (hl : commandLegality i s.sstate = none) :
    step s = .next (commandEffect i { s with agenda := rest, cmdLast := w, seen := s.seen ++ [.issued w] }) := by
  rw [step_command_idle hb ha hd, exec_command_accepted (decodeCommand_role hd) (by exact hb) (by exact hl),
    commandWordOf_decoded hd]

theorem step_command_rejected {s : State} {w : Word} {rest : List Move} {i : Instr} {err : ErrCode} (hb : s.busy = false)
    (ha : s.agenda = .write cmdOffset .word w :: rest) (hd : decodeCommand w = .instr i)
    (hl : commandLegality i s.sstate = some err) :
    step s = .next (State.reject { s with agenda := rest, cmdLast := w, seen := s.seen ++ [.issued w] } err) := by
  rw [step_command_idle hb ha hd, exec_command_rejected (decodeCommand_role hd) (by exact hb) (by exact hl),
    commandWordOf_decoded hd]

/-- Settles O28: by `SState.Terminal.commandLegality`; OPEN is accepted. -/
theorem terminalStatesAcceptOnlyOpen : Obligations.TerminalStatesAcceptOnlyOpen := by
  intro s w rest i hb hs ha hd
  refine ⟨fun hopen => step_command_rejected hb ha hd ?_, fun hopen => ?_⟩
  · exact SState.Terminal.commandLegality hs (decodeCommand_role hd) hopen
  · subst hopen
    exact ⟨_, step_command_accepted hb ha hd rfl, rfl⟩

/-- While the engine works the session is in START or READY (rules R281, R287). -/
theorem State.Inv.idle_of_terminal {s : State} (hs : s.Inv) (h : s.sstate.Terminal) : s.estate = .idle := by
  have hsession := hs.session.1
  cases he : s.estate with
  | idle => rfl
  | soi0 | soi1 => rw [he] at hsession; exact absurd hsession h.ne_start
  | _ => rw [he] at hsession; exact absurd hsession h.ne_ready

/-- A register write leaves the session state alone or is CTRL's soft reset (rules R36, R371). -/
theorem State.writeReg_sstate (s : State) (offset : BitVec 8) (w : Word) :
    (s.writeReg offset w).sstate = s.sstate ∨ (offset = 0x00#8 ∧ w.getLsbD 0 = true) := by
  by_cases hreset : offset = 0x00#8 ∧ w.getLsbD 0 = true
  · exact .inr hreset
  · rw [State.writeReg_flags fun ho => Bool.eq_false_iff.2 fun hw => hreset ⟨ho, hw⟩]
    exact .inl rfl

/-- A word that is no command is an overrun or a rejection (rules R153, R333). -/
theorem State.issueUndecoded_next {s t : State} {w : Word} (h : s.issueUndecoded w = .next t) :
    t = { s with cmdOverrun := true } ∨ t = { s with cmdLast := w }.reject .badOpcode := by
  unfold State.issueUndecoded at h
  obtain ⟨-, hs⟩ | ⟨_, -, herr, hs⟩ | ⟨-, hl, -⟩ := s.issue_cases w (fun _ => some .badOpcode) id
  · rw [hs] at h; cases h; exact .inl rfl
  · rw [hs] at h; cases h; cases herr; exact .inr rfl
  · cases hl

/-- Settles O29: the engine is IDLE, every command but OPEN is rejected, and of the other turns only a reset writes the
session state. -/
theorem onlyOpenOrResetLeavesTerminalStates : Obligations.OnlyOpenOrResetLeavesTerminalStates := by
  intro s t hs hterm h hne
  have hidle := hs.idle_of_terminal hterm
  have hb : s.busy = false := Bool.eq_false_iff.2 fun hb => hs.busy.1 hb hidle
  obtain ⟨h, -⟩ | ⟨rest, -, h⟩ | ⟨_, _, -, rfl⟩ | ⟨offset, w, rest, ha, -, rfl⟩ | ⟨w, rest, i, ha, hd, -⟩ |
    ⟨w, rest, _, -, -, hu⟩ | ⟨_, _, -, -, rfl⟩ | ⟨_, _, _, _, -, -, -, rfl | rfl⟩ | ⟨_, -, rfl⟩ | ⟨_, -, -, -, rfl⟩ |
    ⟨rest, ha, rfl⟩ := step_next_cases h
  · rw [engineTurn_idle hidle] at h
    cases h; exact absurd rfl hne
  · rw [engineTurn_idle (by exact hidle)] at h
    cases h; exact absurd rfl hne
  · exact absurd rfl hne
  · obtain hw | ⟨rfl, hw⟩ := State.writeReg_sstate { s with agenda := rest } offset w
    · exact absurd hw hne
    · exact ⟨rest, .inr (.inr ⟨w, ha, hw⟩)⟩
  · by_cases hopen : i = .openSession
    · have hw : w = 0x00000001#32 := by rw [← commandWordOf_decoded hd, hopen, commandWordOf_openSession]
      exact ⟨rest, .inr (.inl (hw ▸ ha))⟩
    · have hl := SState.Terminal.commandLegality hterm (decodeCommand_role hd) hopen
      cases (step_command_rejected hb ha hd hl).symm.trans h
      exact absurd rfl hne
  · obtain rfl | rfl := State.issueUndecoded_next hu <;> rw [State.noteIssue_eq] at hne <;> exact absurd rfl hne
  pick_goal -1
  · exact ⟨rest, .inl ha⟩
  all_goals exact absurd rfl hne

/-! ### The scanner's and the reader's transfers of control (rules R282 to R289) -/

/-- Settles O57: by definition. -/
theorem commandEndings : Obligations.CommandEndings := fun _ => ⟨fun _ _ _ => rfl, fun _ _ => rfl⟩

/-- Settles O35: EOI by the operation that scans; an unfinished GET_ICC by `Scanning.gathering`. -/
theorem eoiEndsTheScan : Obligations.EoiEndsTheScan := by
  intro s
  refine ⟨State.onEoi_getSegment, State.onEoi_getCommonApp, fun hop => ?_, fun hs he hop ha => ?_⟩
  · refine (State.onEoi_getIcc hop).trans ?_
    split_ifs <;> rfl
  · exact (hs.scanning (he ▸ rfl)).gathering hop ha

/-- Settles O36: `OnMarker` by the operation that scans. -/
theorem markerStartsReader : Obligations.MarkerStartsReader := by
  intro s code
  refine ⟨fun hop => State.onMarker_getSegment code hop, fun hop => ?_, fun hop => State.onMarker_getIcc code hop⟩
  refine (State.onMarker_getCommonApp (s := { s with mkCode := code, moff := s.pos }) code hop).trans ?_
  simp only [State.startReader_eq, Bool.decide_or, Bool.or_assoc]
  rfl

theorem decodeSoi_rejected {b0 b1 : Byte} (h : b0 ≠ 0xFF#8 ∨ b1 ≠ 0xD8#8) :
    decodeSoi b0 b1 = .rejected .missingSoi :=
  if_neg (not_and_or.2 h)

theorem State.fetchSoi_rejected {s : State} {v : Byte} {why : Undecoded} (h : decodeSoi s.t0 v = .rejected why) :
    s.fetchSoi v = .answer (.next (s.raiseFormat .missingSoi)) := by
  simp only [State.fetchSoi, h]

/-- Settles O37: each step by the turn of its state, the check by `decodeSoi`. -/
theorem soiCheck : Obligations.SoiCheck := by
  intro s v items ha hi
  refine ⟨fun he => step_byte ha hi (engineTurn_soi0 he), fun he hpair => ?_, fun he h0 hv => ?_⟩
  · rw [step_byte ha hi (engineTurn_soi1 he), State.fetchSoi_rejected (by exact decodeSoi_rejected hpair)]
    rfl
  · rw [step_byte ha hi (engineTurn_soi1 he), State.fetchSoi_instr (by exact if_pos ⟨h0, hv⟩)]
    rfl

/-- Settles O38: `SoiPassed` by the operation. -/
theorem soiPassed : Obligations.SoiPassed := fun _ =>
  ⟨fun hop => congrArg Host.Outcome.next (if_pos hop), fun hop => congrArg Host.Outcome.next (if_neg hop)⟩

/-- Settles O41: the three cases of `OnSegmentEnd`. -/
theorem segmentEnd : Obligations.SegmentEnd := fun _ =>
  ⟨State.onSegmentEnd_discarded, State.onSegmentEnd_icc, State.onSegmentEnd_record⟩

end Sys2Proof.Machine
end

section
/-! SUPPORT. The bytes of a record and the step that pushes one (rules R160, R290, R291), and the statements on them. -/

namespace Sys2Proof.Machine

/-- A byte of a field, by its place in the field's value (rules R107, R108). -/
theorem toNat_extractLsb'_byte {w : Nat} (v : BitVec w) (n : Nat) : (v.extractLsb' n 8).toNat = v.toNat / 2 ^ n % 256 := by
  rw [BitVec.extractLsb'_toNat, Nat.shiftRight_eq_div_pow]

section

variable (marker : Byte) (offset : Word) (size : Half) (payload : List Byte) {i : Nat}

theorem recordByte_marker : recordByte marker offset size payload 0 = some marker := rfl

theorem recordByte_offset (h1 : 1 ≤ i) (h4 : i ≤ 4) :
    recordByte marker offset size payload i = some (offset.extractLsb' (8 * (4 - i)) 8) := by
  rw [recordByte, if_neg (by omega), if_pos h4]

theorem recordByte_size (h5 : 5 ≤ i) (h6 : i ≤ 6) :
    recordByte marker offset size payload i = some (size.extractLsb' (8 * (6 - i)) 8) := by
  rw [recordByte, if_neg (by omega), if_neg (by omega), if_pos h6]

theorem recordByte_payload (h7 : 7 ≤ i) : recordByte marker offset size payload i = payload[i - 7]? := by
  rw [recordByte, if_neg (by omega), if_neg (by omega), if_neg (by omega)]

/-- Every place of a record holds a byte (rules R160, R290). -/
theorem recordByte_isSome {size : Half} {payload : List Byte} (hl : payload.length = size.toNat)
    (hi : i < 7 + size.toNat) : ∃ b, recordByte marker offset size payload i = some b := by
  rw [recordByte_eq_getElem?, List.getElem?_eq_getElem (by rw [length_encodeRecord marker offset hl]; exact hi)]
  exact ⟨_, rfl⟩

end

/-- Settles O6: the byte at each place by the field it is in, the encoding by `recordByte_eq_getElem?`. -/
theorem recordByteContent : Obligations.RecordByteContent := by
  intro s payload hlen hreads
  refine ⟨Memory.readRange_of_reads hlen fun k hk => ?_, length_encodeRecord s.segMarker s.segOffset hlen, fun i hi => ?_⟩
  · rw [Nat.zero_add]
    exact hreads k (hlen ▸ hk)
  · obtain ⟨b, hb⟩ := recordByte_isSome s.segMarker s.segOffset hlen hi
    refine ⟨b, hb, (recordByte_eq_getElem? _ _ _ _ _).symm.trans hb, fun h0 => ?_, fun h1 h4 => ?_, fun h5 h6 => ?_,
      fun h7 => ?_⟩
    · subst h0
      exact Option.some.inj (hb.symm.trans (recordByte_marker _ _ _ _))
    · obtain rfl := Option.some.inj ((recordByte_offset _ _ _ _ h1 h4).symm.trans hb)
      rw [toNat_extractLsb'_byte, show 8 * (4 - i) = 24 - 8 * (i - 1) by omega]
    · obtain rfl := Option.some.inj ((recordByte_size _ _ _ _ h5 h6).symm.trans hb)
      rw [toNat_extractLsb'_byte, show 8 * (6 - i) = 8 - 8 * (i - 5) by omega]
    · rw [hreads (i - 7) (by omega), ← hb, recordByte_payload _ _ _ _ h7]

/-- Settles O43: the push by `State.outPush_room`, what follows it by `State.recordStep_more` and
`State.recordStep_last`. -/
theorem recordByteStep : Obligations.RecordByteStep := by
  intro s marker offset size payload hlen hcur
  obtain ⟨b, hb⟩ := recordByte_isSome marker offset hlen hcur
  rw [exec_segmentRecord_some hb]
  refine ⟨fun hfull => State.outPush_full b _ (Bool.eq_false_iff.2 fun h => ?_), fun hroom => ?_⟩
  · exact absurd (State.outputRoom_iff.1 h) (Nat.not_lt.2 hfull)
  · refine ⟨b, (recordByte_eq_getElem? _ _ _ _ _).symm.trans hb, ?_⟩
    rw [State.outPush_room b _ (State.outputRoom_iff.2 hroom)]
    dsimp only
    by_cases hmore : s.eidx.toNat + 1 < 7 + size.toNat
    · rw [if_pos hmore, State.recordStep_more (by exact hmore)]
      rfl
    · rw [if_neg hmore, State.recordStep_last (by simp only; omega)]
      rfl

end Sys2Proof.Machine
end

section
/-! SUPPORT. The arcs of the engine (rule R301): where each operation leaves ESTATE, and the statement on them. -/

namespace Sys2Proof.Machine

/-! ### Where each operation leaves ESTATE -/

theorem State.soiPassed_estate (s : State) : s.soiPassed.estate ∈ EState.successors .soi1 := by
  unfold State.soiPassed
  dsimp only
  split_ifs <;> simp [EState.successors]

theorem State.onSegmentEnd_estate (s : State) : s.onSegmentEnd.estate ∈ EState.successors .body := by
  unfold State.onSegmentEnd
  split_ifs <;> simp [EState.successors]

theorem State.lengthLow_estate (s : State) (hi lo : Byte) : (s.lengthLow hi lo).estate ∈ EState.successors .lenLo := by
  obtain hlt | heq | hgt := Nat.lt_trichotomy (be16 hi lo).toNat 2
  · rw [State.lengthLow_invalid hlt]; simp [EState.successors]
  · rw [State.lengthLow_empty heq]; exact State.onSegmentEnd_estate _
  · rw [State.lengthLow_body hgt]; simp [EState.successors]

theorem State.bodyCount_estate {s : State} (he : s.estate = .body) : s.bodyCount.estate ∈ EState.successors .body := by
  rw [State.bodyCount_eq]
  split_ifs
  · exact State.onSegmentEnd_estate _
  · simp [EState.successors, he]

theorem State.bodyByte_estate {s t : State} {v : Byte} (he : s.estate = .body) (h : s.bodyByte v = .next t) :
    t.estate ∈ EState.successors .body := by
  obtain ⟨-, rfl⟩ | ⟨-, -, rfl⟩ := State.bodyByte_cases h
  · exact State.bodyCount_estate he
  · exact State.bodyCount_estate he

theorem State.emitFrom_estate (s : State) (slots : List (List Byte)) (eslot eidx : Nat) :
    (s.emitFrom slots eslot eidx).estate ∈ EState.successors .emitIcc := by
  unfold State.emitFrom
  dsimp only
  split_ifs <;> simp [EState.successors]

theorem State.chunkStored_estate (s : State) : s.chunkStored.estate ∈ EState.successors .assemble := by
  unfold State.chunkStored
  split_ifs
  · exact List.mem_cons_of_mem _ (s.emitFrom_estate _ _ _)
  · simp [EState.successors]

theorem State.assemble_estate (s : State) (seq cnt : Byte) (payload : List Byte) :
    (s.assemble seq cnt payload).estate ∈ EState.successors .assemble := by
  obtain ⟨u, err, -, -, h⟩ | ⟨-, -, -, h⟩ := s.assemble_cases seq cnt payload <;> rw [h]
  · simp [EState.successors]
  · exact State.chunkStored_estate _

theorem State.recordStep_estate {s : State} (he : s.estate = .emitSeg) (size : Half) :
    (s.recordStep size).estate ∈ s.estate.successors := by
  unfold State.recordStep
  dsimp only
  split_ifs <;> simp [EState.successors, he]

/-- Every state that reads can end with an IOError (rules R301, R340). -/
theorem EState.idle_mem_successors {e : EState} (h : e.reads = true) : .idle ∈ e.successors := by
  cases e with
  | idle | assemble | emitSeg | emitIcc => cases h
  | _ => decide

/-- Every micro-step of the engine is a hold or follows an arc of the table (rule R301). -/
theorem EngineStep.estate {s t : State} (h : EngineStep s t) : t = s ∨ t.estate ∈ s.estate.successors := by
  cases h with
  | hold => exact .inl rfl
  | ioError hr => exact .inr (EState.idle_mem_successors hr)
  | soiFirst he | soiMissing he | scanFirst he | pairDropped he | desync he | fill he | lengthHigh he
  | headerInvalid he => simp [he, EState.successors, State.lengthHigh]
  | soi he => rw [he]; exact .inr (State.soiPassed_estate _)
  | eoi he _ _ h =>
    obtain ⟨-, rfl⟩ | ⟨-, rfl⟩ | ⟨-, -, rfl⟩ | ⟨-, -, rfl⟩ := State.onEoi_next h <;> simp [he, EState.successors]
  | marker he _ _ h =>
    obtain ⟨_, rfl⟩ := State.onMarker_next h
    simp [he, EState.successors, State.startReader]
  | lengthLow he => rw [he]; exact .inr (State.lengthLow_estate _ _ _)
  | payload he _ h => rw [he]; exact .inr (State.bodyByte_estate (s := s.taken _) he h)
  | chunk he => rw [he]; exact .inr (s.assemble_estate _ _ _)
  | @recordByte _ b he => exact .inr (State.recordStep_estate (s := { s with output := s.output ++ [b] }) he _)
  | profileByte he => rw [he]; exact .inr (State.emitFrom_estate _ _ _ _)

/-! ### The way out of IDLE -/

/-- A register write leaves ESTATE alone or resets it to IDLE (rules R36, R371). -/
theorem State.writeReg_estate (s : State) (offset : BitVec 8) (w : Word) :
    (s.writeReg offset w).estate = s.estate ∨ (s.writeReg offset w).estate = .idle := by
  obtain ⟨-, h⟩ | ⟨-, h⟩ | h := s.writeReg_cases offset w <;> rw [h]
  · obtain ⟨-, h⟩ | ⟨-, h⟩ := s.writeCtrl_cases w <;> rw [h]
    · exact .inr rfl
    · exact .inl rfl
  · exact .inl rfl
  · exact .inl rfl

/-- A command that starts the engine: which it is, and the state the engine starts in (rules R280, R286, R288, R292,
R294). -/
def StartsEngine (i : Instr) (t : State) : Prop :=
  t.busy = true ∧ ((i = .readSoi ∨ i = .getIcc) ∧ t.estate = .soi0 ∨
    ((∃ target, i = .getSegment target) ∨ i = .getCommonApp) ∧ t.estate = .scanB0)

/-- Every accepted command starts the engine but OPEN, which leaves it where it is. -/
theorem commandEffect_estate {i : Instr} (hi : i.role = .command) (s : State) :
    StartsEngine i (commandEffect i s) ∨ (commandEffect i s).estate = s.estate := by
  cases i with
  | openSession => exact .inr rfl
  | readSoi => exact .inl ⟨rfl, .inl ⟨.inl rfl, rfl⟩⟩
  | getIcc => exact .inl ⟨rfl, .inl ⟨.inr rfl, rfl⟩⟩
  | getSegment target => exact .inl ⟨rfl, .inr ⟨.inl ⟨target, rfl⟩, rfl⟩⟩
  | getCommonApp => exact .inl ⟨rfl, .inr ⟨.inr rfl, rfl⟩⟩
  | _ => cases hi

/-- A command written to CMD starts the engine or leaves it where it is (rules R280, R281, R333). -/
theorem exec_command_estate {i : Instr} {s t : State} (hi : i.role = .command) (h : exec i s = .next t) :
    StartsEngine i t ∨ t.estate = s.estate := by
  rw [exec_command hi] at h
  obtain ⟨-, hs⟩ | ⟨_, -, -, hs⟩ | ⟨-, -, hs⟩ := s.issue_cases (commandWordOf i) (commandLegality i) (commandEffect i) <;>
    rw [hs] at h <;> cases h
  · exact .inr rfl
  · exact .inr rfl
  · exact commandEffect_estate hi _

/-- Settles O54: the engine's turn by `EngineStep.estate`; of the host's turns only a command starts the engine. -/
theorem engineTransitions : Obligations.EngineTransitions := by
  intro s t h
  refine ⟨fun ha => ?_, fun hidle hne => ?_⟩
  · rw [step_eq_outcome, fetch_nil ha] at h
    exact (EngineStep.of_engineTurn h).estate
  obtain ⟨h, -⟩ | ⟨rest, -, h⟩ | ⟨_, _, -, rfl⟩ | ⟨offset, w, rest, -, -, rfl⟩ | ⟨w, rest, i, ha, hd, h⟩ |
    ⟨w, rest, _, -, -, hu⟩ | ⟨_, _, -, -, rfl⟩ | ⟨_, _, _, _, -, -, -, rfl | rfl⟩ | ⟨_, -, rfl⟩ | ⟨_, -, -, -, rfl⟩ |
    ⟨_, -, rfl⟩ := step_next_cases h
  · rw [engineTurn_idle hidle] at h
    cases h; exact absurd hidle hne
  · rw [engineTurn_idle (by exact hidle)] at h
    cases h; exact absurd hidle hne
  · exact absurd hidle hne
  · obtain hw | hw := State.writeReg_estate { s with agenda := rest } offset w
    · exact absurd (hw.trans hidle) hne
    · exact absurd hw hne
  · obtain ⟨hb, hstart⟩ | he := exec_command_estate (decodeCommand_role hd) h
    · exact ⟨w, rest, i, ha, hd, hb, hstart⟩
    · rw [he, State.noteIssue_eq] at hne
      exact absurd hidle hne
  · obtain rfl | rfl := State.issueUndecoded_next hu <;> rw [State.noteIssue_eq] at hne <;> exact absurd hidle hne
  pick_goal -1
  · exact absurd rfl hne
  all_goals exact absurd hidle hne

end Sys2Proof.Machine
end

section
/-! SUPPORT. The faults no run meets (log entry 10): under the relations between the engine's registers each operation of the
engine answers a next state, and the statement on that. -/

namespace Sys2Proof.Machine

theorem State.issue_not_fault {s : State} {w : Word} {legal : SState → Option ErrCode} {effect : State → State}
    {f : Fault} : s.issue w legal effect ≠ .fault f := by
  obtain ⟨-, h⟩ | ⟨_, -, -, h⟩ | ⟨-, -, h⟩ := s.issue_cases w legal effect <;> rw [h] <;> exact nofun

theorem State.issueUndecoded_not_fault {s : State} {w : Word} {f : Fault} : s.issueUndecoded w ≠ .fault f :=
  State.issue_not_fault

theorem State.outPush_not_fault {s : State} {b : Byte} {rest : State → State} {f : Fault} :
    s.outPush b rest ≠ .fault f := by
  obtain ⟨-, h⟩ | ⟨-, h⟩ := s.outPush_cases b rest <;> rw [h] <;> exact nofun

/-- The operations that scan (rules R283, R284). -/
def State.OpScans (s : State) : Prop := s.op = .getSegment ∨ s.op = .getCommonApp ∨ s.op = .getIcc

theorem State.onEoi_not_fault {s : State} {f : Fault} (h : s.OpScans) : s.onEoi ≠ .fault f := by
  obtain h | h | h := h
  · rw [State.onEoi_getSegment h]; exact nofun
  · rw [State.onEoi_getCommonApp h]; exact nofun
  · rw [State.onEoi_getIcc h]; exact nofun

theorem State.onMarker_not_fault {s : State} {code : Byte} {f : Fault} (h : s.OpScans) : s.onMarker code ≠ .fault f := by
  obtain h | h | h := h
  · rw [State.onMarker_getSegment code h]; exact nofun
  · rw [State.onMarker_getCommonApp code h]; exact nofun
  · rw [State.onMarker_getIcc code h]; exact nofun

theorem exec_decodePair_not_fault {s : State} {b0 b1 : Byte} {f : Fault} (h : s.OpScans) :
    exec (decodePair b0 b1) s ≠ .fault f := by
  obtain ⟨-, hd⟩ | ⟨-, -, hd⟩ | ⟨-, -, hd⟩ | ⟨-, -, hd⟩ | ⟨-, -, hd⟩ | ⟨-, -, hd⟩ := decodePair_cases b0 b1 <;> rw [hd]
  · exact nofun
  · exact nofun
  · exact nofun
  · exact State.onEoi_not_fault h
  · exact nofun
  · exact State.onMarker_not_fault (s := { s with mkCode := b1, moff := s.pos }) h

theorem State.bodyByte_not_fault {s : State} {v : Byte} {f : Fault}
    (h : s.keep = true → s.seglen.toNat < Config.segbufBytes) : s.bodyByte v ≠ .fault f := by
  cases hk : s.keep with
  | false => rw [State.bodyByte_dropped v hk]; exact nofun
  | true => rw [State.bodyByte_kept v hk (h hk)]; exact nofun

theorem State.fetchSoi_not_fault {s : State} {v : Byte} {f : Fault} : (s.fetchSoi v).outcome ≠ .fault f := by
  unfold State.fetchSoi decodeSoi
  split_ifs <;> exact nofun

theorem State.readByte_not_fault {s : State} {k : Byte → State → Fetched} {f : Fault}
    (hk : ∀ v items, (k v (s.taken items)).outcome ≠ .fault f) : (s.readByte k).outcome ≠ .fault f := by
  obtain ⟨-, h⟩ | ⟨v, items, -, h⟩ | ⟨_, -, h⟩ | ⟨_, _, -, h⟩ := s.readByte_cases k <;> rw [h]
  · exact nofun
  · exact hk v items
  · exact nofun
  · exact nofun

/-- Entries written below SEGLEN can be read as a segment (rules R67, R104). -/
theorem SegbufHeld.heldSegment {s : State} (h : SegbufHeld s) : ∃ data, s.heldSegment = some data :=
  Option.isSome_iff_exists.1 (Memory.readRange_isSome fun j _ hj => h j (by omega))

theorem State.fetchChunk_not_fault {s : State} {f : Fault} (h : SegbufHeld s) : s.fetchChunk.outcome ≠ .fault f := by
  obtain ⟨data, hdata⟩ := h.heldSegment
  cases hd : decodeChunk data with
  | instr i =>
    obtain ⟨_, _, _, rfl, -⟩ := decodeChunk_instr hd
    rw [State.fetchChunk_instr hdata hd]; exact nofun
  | rejected why => rw [State.fetchChunk_rejected hdata hd]; exact nofun

/-- In EMIT_SEG the record's payload is the segment held (rules R289, R290). -/
theorem RecordCursor.recordPayload {s : State} (h : RecordCursor s) (he : s.estate = .emitSeg) (hs : SegbufHeld s) :
    ∃ payload, s.recordPayload = some payload := by
  obtain ⟨-, -, hsize, -⟩ := h he
  rw [State.recordPayload, hsize]
  exact hs.heldSegment

theorem State.fetchRecord_not_fault {s : State} {f : Fault} (h : RecordCursor s) (he : s.estate = .emitSeg)
    (hs : SegbufHeld s) : s.fetchRecord.outcome ≠ .fault f := by
  obtain ⟨payload, hp⟩ := h.recordPayload he hs
  obtain ⟨-, -, -, hcur⟩ := h he
  obtain ⟨b, hb⟩ := recordByte_isSome s.segMarker s.segOffset (State.recordPayload_length hp) hcur
  rw [State.fetchRecord_payload hp, Fetched.outcome, exec_segmentRecord_some hb]
  exact State.outPush_not_fault

theorem ProfileCursor.profileOut_not_fault {s : State} {f : Fault} (h : ProfileCursor s) (he : s.estate = .emitIcc) :
    exec (.iccProfileOut s.profileSlots) s ≠ .fault f := by
  obtain ⟨hlo, hhi, hin⟩ := h he
  obtain ⟨b, hb, -⟩ := profileRest_cons hlo (State.profileSlots_getElem? hlo hhi) hin
  rw [exec_iccProfileOut_some hb]
  exact State.outPush_not_fault

/-- In BODY a byte still to come has an entry of SEGBUF, since a length field's payload fits in it (rules R104, R232). -/
theorem ReaderCounts.seglen_lt {s : State} (h : ReaderCounts s) (he : s.estate = .body) (hk : s.keep = true) :
    s.seglen.toNat < Config.segbufBytes := by
  obtain ⟨h1, -, hkept⟩ := h.1 he
  have hlen := s.len.isLt
  have := hkept hk
  rw [Config.segbufBytes]
  omega

/-- Under the relations between its registers the engine's turn does not fault, state by state. -/
theorem State.NoFaultCond.engineTurn_not_fault {s : State} {f : Fault} (h : s.NoFaultCond) :
    s.engineTurn.outcome ≠ .fault f := by
  obtain ⟨hop, -, hheld, hreader, hrecord, hprofile⟩ := h
  cases he : s.estate with
  | idle => rw [engineTurn_idle he]; exact nofun
  | soi0 => rw [engineTurn_soi0 he]; exact State.readByte_not_fault fun _ _ => nofun
  | soi1 => rw [engineTurn_soi1 he]; exact State.readByte_not_fault fun _ _ => State.fetchSoi_not_fault
  | scanB0 => rw [engineTurn_scanB0 he]; exact State.readByte_not_fault fun _ _ => nofun
  | scanB1 =>
    have hop : s.OpScans := by simpa [State.OpScans, OpMatches, he] using hop
    rw [engineTurn_scanB1 he]
    exact State.readByte_not_fault fun v items => exec_decodePair_not_fault (s := { s.taken items with b1 := v }) hop
  | lenHi => rw [engineTurn_lenHi he]; exact State.readByte_not_fault fun _ _ => nofun
  | lenLo => rw [engineTurn_lenLo he]; exact State.readByte_not_fault fun _ _ => nofun
  | body =>
    rw [engineTurn_body he]
    exact State.readByte_not_fault fun v items => State.bodyByte_not_fault (s := s.taken items) (hreader.seglen_lt he)
  | assemble => rw [engineTurn_assemble he]; exact State.fetchChunk_not_fault hheld
  | emitSeg => rw [engineTurn_emitSeg he]; exact State.fetchRecord_not_fault hrecord he hheld
  | emitIcc => rw [engineTurn_emitIcc he]; exact hprofile.profileOut_not_fault he

theorem State.hostRead_not_fault {s : State} {offset : BitVec 8} {width : Width} {f : Fault} :
    (s.hostRead offset width).outcome ≠ .fault f := by
  unfold State.hostRead
  split <;> exact nofun

theorem State.hostWrite_not_fault {s : State} {offset : BitVec 8} {width : Width} {w : Word} {f : Fault} :
    (s.hostWrite offset width w).outcome ≠ .fault f := by
  unfold State.hostWrite
  split
  · exact nofun
  · split_ifs
    · split
      · rw [Fetched.outcome, exec_command (decodeCommand_role ‹_›)]; exact State.issue_not_fault
      · exact State.issueUndecoded_not_fault
    · exact nofun

/-- Settles O13: the host's turns never fault, the engine's by
`State.NoFaultCond.engineTurn_not_fault`. -/
theorem noStepFaults : Obligations.NoStepFaults := by
  intro s hs f
  rw [step_eq_outcome]
  unfold fetch
  split
  · exact hs.engineTurn_not_fault
  · exact State.NoFaultCond.engineTurn_not_fault (by exact hs)
  · exact State.hostRead_not_fault
  · exact State.hostWrite_not_fault
  · split_ifs
    · exact nofun
    · exact hs.engineTurn_not_fault
  · split
    · exact hs.engineTurn_not_fault
    · exact nofun
  · split <;> exact nofun
  · split
    · exact nofun
    · split_ifs
      · exact nofun
      · exact hs.engineTurn_not_fault
  · exact nofun

end Sys2Proof.Machine
end

section
/-! SUPPORT. What a command that fails has pushed (rules R299, R336, R383): the engine's work outside an emission pushes
nothing and counts no record, an emission raises no error and counts a record with its last byte; a host that settles a
command keeps its bytes only if it ended without an error; and the statement on all of it. -/

namespace Sys2Proof.Machine

/-! ### Where an error is raised -/

/-- How an error leaves the block (rule R336). -/
def Failed (t : State) : Prop := t.sstate = .error ∧ t.estate = .idle ∧ t.busy = false ∧ t.doneFlag = true

/-- The engine's work outside an emission: it pushes nothing and counts no record, a record it starts has its cursor at the
first byte, and an error it brings about is raised (rules R289, R336). -/
structure ScanWork (s t : State) : Prop where
  op : t.op = s.op := by rfl
  output : t.output = s.output := by rfl
  seen : t.seen = s.seen := by rfl
  segCount : t.segCount = s.segCount := by rfl
  cursor : t.estate = .emitSeg → t.eidx = 0#24 := by exact nofun
  error : t.result.code = .error → s.result.code = .error ∨ Failed t := by exact .inl

theorem ScanWork.raise (s : State) (err : ErrCode) (ioCause : IoCause) (ioCode : Byte) :
    ScanWork s (s.raise err ioCause ioCode) := { error := fun _ => .inr ⟨rfl, rfl, rfl, rfl⟩ }

theorem ScanWork.raiseFormat (s : State) (err : ErrCode) : ScanWork s (s.raiseFormat err) := .raise s err .none 0

theorem ScanWork.finish (s : State) {code : ResultCode} (session : SState) (h : code ≠ .error) :
    ScanWork s (s.finish code session) := { error := fun hc => absurd hc h }

theorem ScanWork.onSegmentEnd (s : State) : ScanWork s s.onSegmentEnd := by
  unfold State.onSegmentEnd
  split_ifs
  · exact {}
  · exact {}
  · exact { cursor := fun _ => rfl }

theorem ScanWork.soiPassed (s : State) : ScanWork s s.soiPassed := by
  unfold State.soiPassed
  dsimp only
  split_ifs
  · exact { ScanWork.finish { s with sstate := .ready } .ready (code := .ok) nofun with }
  · exact {}

theorem ScanWork.lengthLow (s : State) (hi lo : Byte) : ScanWork s (s.lengthLow hi lo) := by
  unfold State.lengthLow
  dsimp only
  split_ifs
  · exact { ScanWork.raiseFormat { s with len := be16 hi lo } .invalidSegmentLength with }
  · exact { ScanWork.onSegmentEnd _ with }
  · exact {}

theorem ScanWork.bodyCount {s : State} (he : s.estate = .body) : ScanWork s s.bodyCount := by
  rw [State.bodyCount_eq]
  split_ifs
  · exact { ScanWork.onSegmentEnd _ with }
  · exact { cursor := fun h => nomatch he.symm.trans h }

theorem ScanWork.of_bodyByte {s t : State} {v : Byte} (he : s.estate = .body) (h : s.bodyByte v = .next t) :
    ScanWork s t := by
  obtain ⟨-, rfl⟩ | ⟨-, -, rfl⟩ := State.bodyByte_cases h
  · exact .bodyCount he
  · exact { ScanWork.bodyCount (s := { s with segbuf := s.segbuf.write _ v, seglen := s.seglen + 1 }) he with }

theorem ScanWork.of_onEoi {s t : State} (h : s.onEoi = .next t) : ScanWork s t := by
  obtain ⟨-, rfl⟩ | ⟨-, rfl⟩ | ⟨-, -, rfl⟩ | ⟨-, -, rfl⟩ := State.onEoi_next h <;> exact .finish s .eoi nofun

theorem ScanWork.of_onMarker {s t : State} {code : Byte} (h : s.onMarker code = .next t) : ScanWork s t := by
  obtain ⟨_, rfl⟩ := State.onMarker_next h
  exact {}

theorem ScanWork.emitFrom (s : State) (slots : List (List Byte)) (eslot eidx : Nat) :
    ScanWork s (s.emitFrom slots eslot eidx) := by
  unfold State.emitFrom
  dsimp only
  split_ifs
  · exact { ScanWork.finish _ .closed (code := .iccPresent) nofun with }
  · exact {}

theorem ScanWork.chunkStored (s : State) : ScanWork s s.chunkStored := by
  unfold State.chunkStored
  split_ifs
  · exact .emitFrom s _ _ _
  · exact {}

theorem ScanWork.assemble (s : State) (seq cnt : Byte) (payload : List Byte) :
    ScanWork s (s.assemble seq cnt payload) := by
  obtain ⟨u, err, rfl | rfl, -, h⟩ | ⟨-, -, -, h⟩ := s.assemble_cases seq cnt payload <;> rw [h]
  · exact .raiseFormat _ err
  · rw [State.counted_eq]; exact { ScanWork.raiseFormat _ err with }
  · rw [State.storeChunk_eq, State.counted_eq]; exact { ScanWork.chunkStored _ with }

/-- The micro-steps by what they push: nothing in a hold or outside an emission, a byte of a record, a byte of the
profile. -/
inductive PushCase (s t : State) : Prop
  | hold (ht : t = s)
  | scan (he : s.estate.emits = false) (hw : ScanWork s t)
  | record {payload : List Byte} {b : Byte} (he : s.estate = .emitSeg) (hp : s.recordPayload = some payload)
      (hb : (encodeRecord s.segMarker s.segOffset s.segSize payload)[s.eidx.toNat]? = some b)
      (ht : t = { s with output := s.output ++ [b] }.recordStep s.segSize)
  | profile {b : Byte} {slots : List (List Byte)} {eslot eidx : Nat} (he : s.estate = .emitIcc)
      (ht : t = { s with output := s.output ++ [b] }.emitFrom slots eslot eidx)

theorem EState.not_emits_of_reads {e : EState} (h : e.reads = true) : e.emits = false := by
  cases e with
  | idle | assemble | emitSeg | emitIcc => cases h
  | _ => rfl

theorem EngineStep.pushCase {s t : State} (h : EngineStep s t) : PushCase s t := by
  have scan {e : EState} (he : s.estate = e) (hn : e.emits = false) (hw : ScanWork s t) : PushCase s t :=
    .scan (he ▸ hn) hw
  cases h with
  | hold => exact .hold rfl
  | ioError hr => exact .scan (EState.not_emits_of_reads hr) { ScanWork.raise _ _ _ _ with }
  | soiFirst he | scanFirst he | pairDropped he | desync he | fill he | lengthHigh he => exact scan he rfl {}
  | soiMissing he => exact scan he rfl { ScanWork.raiseFormat _ _ with }
  | soi he => exact scan he rfl { ScanWork.soiPassed _ with }
  | eoi he _ _ h => exact scan he rfl { ScanWork.of_onEoi h with }
  | marker he _ _ h => exact scan he rfl { ScanWork.of_onMarker h with }
  | lengthLow he => exact scan he rfl { ScanWork.lengthLow _ _ _ with }
  | payload he _ h => exact scan he rfl { ScanWork.of_bodyByte (s := s.taken _) he h with }
  | headerInvalid he => exact scan he rfl (.raiseFormat _ _)
  | chunk he => exact scan he rfl (.assemble _ _ _ _)
  | recordByte he _ hp hb => exact .record he hp ((recordByte_eq_getElem? _ _ _ _ _).symm.trans hb) rfl
  | profileByte he => exact .profile he rfl

/-- The end of a record is no error (rule R291). -/
theorem State.recordStep_error {s : State} {size : Half} (h : (s.recordStep size).result.code = .error) :
    s.result.code = .error := by
  unfold State.recordStep at h
  dsimp only at h
  split_ifs at h
  · cases h
  · exact h
  · exact h

/-- The end of a profile is no error (rule R260). -/
theorem State.emitFrom_error {s : State} {slots : List (List Byte)} {eslot eidx : Nat}
    (h : (s.emitFrom slots eslot eidx).result.code = .error) : s.result.code = .error := by
  unfold State.emitFrom at h
  dsimp only at h
  split_ifs at h
  · cases h
  · exact h

/-- A micro-step that brings about an error pushes nothing and fails the command (rules R299, R336). -/
theorem EngineStep.error {s t : State} (h : EngineStep s t) (ht : t.result.code = .error) :
    s.result.code = .error ∨ t.output = s.output ∧ Failed t := by
  cases h.pushCase with
  | hold hs => exact .inl (hs ▸ ht)
  | scan _ hw => exact (hw.error ht).imp_right fun hf => ⟨hw.output, hf⟩
  | record _ _ _ hs => subst hs; exact .inl (State.recordStep_error ht :)
  | profile _ hs => subst hs; exact .inl (State.emitFrom_error ht :)

/-- No command has an error for its result: an accepted one has none yet or OK, a rejected one is illegal (rules R280,
R281). -/
theorem exec_command_error {i : Instr} {s t : State} (hi : i.role = .command) (h : exec i s = .next t)
    (ht : t.result.code = .error) : s.result.code = .error := by
  rw [exec_command hi] at h
  obtain ⟨-, hs⟩ | ⟨_, -, -, hs⟩ | ⟨-, -, hs⟩ := s.issue_cases (commandWordOf i) (commandLegality i) (commandEffect i) <;>
    rw [hs] at h <;> cases h
  · exact ht
  · cases ht
  · cases i with
    | openSession | readSoi | getSegment | getCommonApp | getIcc => cases ht
    | _ => cases hi

theorem State.writeReg_error {s : State} {offset : BitVec 8} {w : Word}
    (h : (s.writeReg offset w).result.code = .error) : s.result.code = .error := by
  obtain ⟨-, hw⟩ | ⟨-, hw⟩ | hw := s.writeReg_cases offset w <;> rw [hw] at h
  · obtain ⟨-, hc⟩ | ⟨-, hc⟩ := s.writeCtrl_cases w <;> rw [hc] at h
    · cases h
    · exact h
  · exact h
  · exact h

/-- A step that brings about an error is the engine's, pushes nothing and fails the command (rules R299, R336). -/
theorem step_error {s t : State} (h : step s = .next t) (ht : t.result.code = .error) (hs : s.result.code ≠ .error) :
    t.output = s.output ∧ Failed t := by
  obtain ⟨h, -⟩ | ⟨rest, -, h⟩ | ⟨_, _, -, rfl⟩ | ⟨offset, w, rest, -, -, rfl⟩ | ⟨w, rest, i, -, hd, h⟩ |
    ⟨w, rest, _, -, -, hu⟩ | ⟨_, _, -, -, rfl⟩ | ⟨_, _, _, _, -, -, -, rfl | rfl⟩ | ⟨_, -, rfl⟩ | ⟨_, -, -, -, rfl⟩ |
    ⟨_, -, rfl⟩ := step_next_cases h
  · exact ((EngineStep.of_engineTurn h).error ht).resolve_left hs
  · exact ((EngineStep.of_engineTurn h).error ht).resolve_left hs
  · exact absurd ht hs
  · exact absurd (State.writeReg_error ht) hs
  · have hcode := exec_command_error (decodeCommand_role hd) h ht
    rw [State.noteIssue_eq] at hcode
    exact absurd hcode hs
  · obtain rfl | rfl := State.issueUndecoded_next hu
    · rw [State.noteIssue_eq] at ht
      exact absurd ht hs
    · cases ht
  pick_goal -1
  · cases ht
  all_goals exact absurd ht hs

/-! ### What the running command has pushed -/

/-- The running command's output is whole records after the bytes `before`: SEG_COUNT of them, of GET_COMMON_APP only. -/
def RecordsPushed (before : List Byte) (s : State) : Prop :=
  ∃ (bytes : List Byte) (records : List Instr), s.commandOutput = before ++ bytes ∧ splitRecords bytes = some records ∧
    s.segCount = BitVec.ofNat 32 records.length ∧ (s.op ≠ .getCommonApp → records = [])

/-- Outside an emission the command has pushed whole records. -/
theorem CommandPushed.records {before : List Byte} {s : State} (h : CommandPushed before s)
    (he : s.estate.emits = false) : RecordsPushed before s := by
  have hseg : s.estate ≠ .emitSeg := fun hi => by rw [hi] at he; cases he
  have hicc : s.estate ≠ .emitIcc := fun hi => by rw [hi] at he; cases he
  obtain ⟨bytes, current, records, hout, hsplit, hcount, hop, hnone, -⟩ := h hicc
  rw [hnone hseg, List.append_nil] at hout
  exact ⟨bytes, records, hout, hsplit, hcount, hop⟩

theorem RecordsPushed.command {before : List Byte} {s : State} (h : RecordsPushed before s) (he : s.estate ≠ .emitSeg) :
    CommandPushed before s := by
  obtain ⟨bytes, records, hout, hsplit, hcount, hop⟩ := h
  exact fun _ => ⟨bytes, [], records, by rw [hout, List.append_nil], hsplit, hcount, hop, fun _ => rfl,
    fun hi => absurd hi he⟩

/-- A record that starts has pushed none of its bytes (rule R289). -/
theorem RecordsPushed.recordStart {before payload : List Byte} {s : State} (h : RecordsPushed before s)
    (hp : s.recordPayload = some payload) (h0 : s.eidx = 0#24) : CommandPushed before s := by
  obtain ⟨bytes, records, hout, hsplit, hcount, hop⟩ := h
  refine fun _ => ⟨bytes, [], records, by rw [hout, List.append_nil], hsplit, hcount, hop, fun _ => rfl, fun _ =>
    ⟨payload, hp, ?_⟩⟩
  rw [h0]; rfl

theorem ScanWork.recordsPushed {before : List Byte} {s t : State} (hw : ScanWork s t) (h : RecordsPushed before s) :
    RecordsPushed before t := by
  rw [RecordsPushed, State.commandOutput, hw.seen, hw.output, hw.segCount, hw.op]
  exact h

theorem State.commandOutput_pushed (s : State) (b : Byte) :
    State.commandOutput { s with output := s.output ++ [b] } = s.commandOutput ++ [b] :=
  (List.append_assoc ..).symm

/-- The running command's output is in view, or the command has ended without an error. -/
def PushedOrDone (before : List Byte) (s : State) : Prop :=
  CommandPushed before s ∨ s.busy = false ∧ s.result.code ≠ .error

/-- A byte of a record with more of it to come: the command has pushed that byte too (rule R291). -/
theorem CommandPushed.recordMore {before bytes payload : List Byte} {records : List Instr} {s : State} {b : Byte}
    (hout : State.commandOutput { s with output := s.output ++ [b] } =
      before ++ bytes ++ (encodeRecord s.segMarker s.segOffset s.segSize payload).take (s.eidx.toNat + 1))
    (hsplit : splitRecords bytes = some records) (hcount : s.segCount = BitVec.ofNat 32 records.length)
    (hop : s.op ≠ .getCommonApp → records = []) (he : s.estate = .emitSeg) (hp : s.recordPayload = some payload)
    (hmore : s.eidx.toNat + 1 < 7 + s.segSize.toNat) :
    CommandPushed before ({ s with output := s.output ++ [b] }.recordStep s.segSize) := by
  have hnext : (s.eidx + 1).toNat = s.eidx.toNat + 1 := by have := s.segSize.isLt; bv_omega
  rw [State.recordStep_more (by exact hmore)]
  refine fun _ => ⟨bytes, _, records, hout, hsplit, hcount, hop, fun hne => absurd he hne, fun _ => ⟨payload, hp, ?_⟩⟩
  simp only [hnext]

/-- The last byte of a record: the command has pushed one record more, unless that ends GET_SEGMENT (rule R291). -/
theorem PushedOrDone.recordLast {before bytes payload : List Byte} {records : List Instr} {s : State} {b : Byte}
    (hout : State.commandOutput { s with output := s.output ++ [b] } =
      before ++ bytes ++ encodeRecord s.segMarker s.segOffset s.segSize payload)
    (hsplit : splitRecords bytes = some records) (hcount : s.segCount = BitVec.ofNat 32 records.length)
    (hop : s.op = .getSegment ∨ s.op = .getCommonApp) (hp : s.recordPayload = some payload)
    (hfits : s.segSize.toNat ≤ Config.segbufBytes) (hlast : s.eidx.toNat + 1 = 7 + s.segSize.toNat) :
    PushedOrDone before ({ s with output := s.output ++ [b] }.recordStep s.segSize) := by
  rw [State.recordStep_last (by exact hlast)]
  split_ifs with hseg
  · exact .inr ⟨rfl, nofun⟩
  · have hop : s.op = .getCommonApp := hop.resolve_left hseg
    refine .inl (RecordsPushed.command ⟨_, _, hout.trans (List.append_assoc ..),
      splitRecords_append _ _ (State.recordPayload_length hp) hfits hsplit, ?_, fun hne => absurd hop hne⟩ nofun)
    rw [List.length_append, BitVec.ofNat_add, ← hcount]
    rfl

/-- A byte of a record, by whether it is the last (rules R290, R291). -/
theorem CommandPushed.recordStep {before payload : List Byte} {s : State} {b : Byte} (h : CommandPushed before s)
    (hs : s.Inv) (he : s.estate = .emitSeg) (hp : s.recordPayload = some payload)
    (hb : (encodeRecord s.segMarker s.segOffset s.segSize payload)[s.eidx.toNat]? = some b) :
    PushedOrDone before ({ s with output := s.output ++ [b] }.recordStep s.segSize) := by
  obtain ⟨bytes, current, records, hout, hsplit, hcount, hop, -, hcurrent⟩ := h (by simp [he])
  obtain ⟨payload', hp', rfl⟩ := hcurrent he
  obtain rfl := Option.some.inj (hp'.symm.trans hp)
  have hpushed : State.commandOutput { s with output := s.output ++ [b] } =
      before ++ bytes ++ (encodeRecord s.segMarker s.segOffset s.segSize payload').take (s.eidx.toNat + 1) := by
    rw [State.commandOutput_pushed, hout, List.take_add_one, hb, List.append_assoc, Option.toList_some]
  obtain ⟨-, -, hsize, hcur⟩ := hs.record he
  obtain hmore | hlast := Nat.lt_or_eq_of_le (Nat.succ_le_of_lt hcur)
  · exact .inl (.recordMore hpushed hsplit hcount hop he hp hmore)
  · have hfits : s.segSize.toNat ≤ Config.segbufBytes := by
      have hread := hs.reader.2 (.inr he)
      have := s.len.isLt
      rw [hsize, Config.segbufBytes]; omega
    have hlen := length_encodeRecord s.segMarker s.segOffset (State.recordPayload_length hp)
    rw [List.take_of_length_le (hlen.trans hlast.symm).le] at hpushed
    exact .recordLast hpushed hsplit hcount (by simpa [OpMatches, he] using hs.op) hp hfits hlast

/-- Every micro-step keeps the running command's output in view. -/
theorem EngineStep.pushedOrDone {before : List Byte} {s t : State} (h : EngineStep s t) (hs : s.Inv)
    (hp : CommandPushed before s) : PushedOrDone before t := by
  cases h.pushCase with
  | hold ht => exact .inl (ht ▸ hp)
  | scan he hw =>
    have ht := h.inv hs
    have hrecords := hw.recordsPushed (hp.records he)
    by_cases hemit : t.estate = .emitSeg
    · obtain ⟨payload, hpayload⟩ := ht.record.recordPayload hemit ht.held
      exact .inl (hrecords.recordStart hpayload (hw.cursor hemit))
    · exact .inl (hrecords.command hemit)
  | record he hpayload hb ht => exact ht ▸ hp.recordStep hs he hpayload hb
  | profile _ ht =>
    rw [ht, State.emitFrom]
    split_ifs
    · exact .inr ⟨rfl, nofun⟩
    · exact .inl fun hne => absurd rfl hne

/-- A turn of the host's that takes no byte out of the command's output leaves what is in view. -/
theorem CommandPushed.hostTurn {before : List Byte} {s : State} (h : CommandPushed before s)
    {irqEn doneFlag cmdOverrun : Bool} {input : List Item} {output : List Byte} {agenda : List Move} {seen : List Seen}
    (hout : poppedSinceIssue seen ++ output = s.commandOutput) :
    CommandPushed before { s with
      irqEn := irqEn, doneFlag := doneFlag, cmdOverrun := cmdOverrun, input := input, output := output, agenda := agenda
      seen := seen } := by
  intro hne
  obtain ⟨bytes, current, records, hcurrent, h⟩ := h hne
  exact ⟨bytes, current, records, hout.trans hcurrent, h⟩

theorem PushedOrDone.writeReg {before : List Byte} {s : State} (h : CommandPushed before s) (offset : BitVec 8) (w : Word) :
    PushedOrDone before (s.writeReg offset w) := by
  obtain ⟨-, hw⟩ | ⟨-, hw⟩ | hw := s.writeReg_cases offset w <;> rw [hw]
  · obtain ⟨-, hc⟩ | ⟨-, hc⟩ := s.writeCtrl_cases w <;> rw [hc]
    · exact .inr ⟨rfl, nofun⟩
    · exact .inl (h.hostTurn rfl)
  · exact .inl (h.hostTurn rfl)
  · exact .inl h

/-- Every step while a command runs keeps its output in view, until the command ends without an error or is reset. -/
theorem step_pushedOrDone {before : List Byte} {s t : State} (hs : s.Inv) (hb : s.busy = true)
    (hp : CommandPushed before s) (h : step s = .next t) : PushedOrDone before t := by
  have planned (rest : List Move) : CommandPushed before { s with agenda := rest } := hp.hostTurn rfl
  obtain ⟨h, -⟩ | ⟨rest, -, h⟩ | ⟨_, _, -, rfl⟩ | ⟨offset, w, rest, -, -, rfl⟩ | ⟨w, rest, i, ha, -⟩ |
    ⟨w, rest, _, ha, -⟩ | ⟨_, _, -, -, rfl⟩ | ⟨_, _, _, _, -, -, ho, rfl | rfl⟩ | ⟨rest, -, rfl⟩ | ⟨_, -, hidle, -⟩ |
    ⟨_, -, rfl⟩ := step_next_cases h
  · exact (EngineStep.of_engineTurn h).pushedOrDone hs hp
  · exact (EngineStep.of_engineTurn h).pushedOrDone (hs.agenda_seen rest s.seen) (planned rest)
  · exact .inl (hp.hostTurn (by rw [poppedSinceIssue_value, State.commandOutput]))
  · exact .writeReg (planned rest) offset w
  · cases (step_command_busy hb ha).symm.trans h
    exact .inl (hp.hostTurn rfl)
  · cases (step_command_busy hb ha).symm.trans h
    exact .inl (hp.hostTurn rfl)
  · exact .inl (hp.hostTurn rfl)
  · exact .inl (hp.hostTurn (s.commandOutput_popOutput ho))
  · exact .inl (hp.hostTurn (s.commandOutput_popOutput ho))
  · exact .inl (planned rest)
  · cases hb.symm.trans hidle
  · exact .inr ⟨rfl, nofun⟩

/-- A command that has just been issued has pushed nothing (rules R280, R383). -/
theorem RecordsPushed.nil {before : List Byte} {s : State} (hout : s.output = before)
    (hseen : poppedSinceIssue s.seen = []) (hcount : s.segCount = 0#32) : RecordsPushed before s :=
  ⟨[], [], by rw [State.commandOutput, hseen, hout, List.nil_append, List.append_nil], rfl, hcount, fun _ => rfl⟩

/-- A command that starts the engine has pushed nothing when it is accepted (rule R280). -/
theorem commandEffect_pushed {i : Instr} {s : State} (hi : i.role = .command) (hseen : poppedSinceIssue s.seen = [])
    (hidle : s.busy = false) (hb : (commandEffect i s).busy = true) : CommandPushed s.output (commandEffect i s) := by
  cases i with
  | openSession => cases hidle.symm.trans hb
  | readSoi | getSegment | getCommonApp | getIcc => exact RecordsPushed.command (.nil rfl hseen rfl) nofun
  | _ => cases hi

theorem step_accepted_pushed {s t : State} {w : Word} {rest : List Move} (hb : s.busy = false)
    (ha : s.agenda = .write cmdOffset .word w :: rest) (h : step s = .next t) (ht : t.busy = true) :
    CommandPushed s.output t := by
  cases hd : decodeCommand w with
  | rejected why =>
    cases (step_undecoded hd hb ha).symm.trans h
    cases hb.symm.trans ht
  | instr i =>
    cases hl : commandLegality i s.sstate with
    | some err =>
      cases (step_command_rejected hb ha hd hl).symm.trans h
      cases hb.symm.trans ht
    | none =>
      cases (step_command_accepted hb ha hd hl).symm.trans h
      exact commandEffect_pushed (s := { s with agenda := rest, cmdLast := w, seen := s.seen ++ [.issued w] })
        (decodeCommand_role hd) (poppedSinceIssue_issued _ w) hb ht

/-- A command that has ended with an error has pushed whole records, of GET_COMMON_APP only (rule R299). -/
theorem CommandPushed.failed {before : List Byte} {t : State} (h : CommandPushed before t) (he : t.estate = .idle) :
    ∃ (bytes : List Byte) (records : List Instr), t.commandOutput = before ++ bytes ∧ splitRecords bytes = some records ∧
      t.segCount = BitVec.ofNat 32 records.length ∧ (t.op ≠ .getCommonApp → bytes = []) := by
  obtain ⟨bytes, records, hout, hsplit, hcount, hop⟩ := h.records (he ▸ rfl)
  exact ⟨bytes, records, hout, hsplit, hcount, fun hne => splitRecords_eq_nil (hop hne ▸ hsplit)⟩

/-! ### What the host keeps (rules R373, R383) -/

/-- What the host has seen once it has settled a command: the output it had not popped, STATUS and RESULT. -/
def State.settledSeen (s : State) : List Seen :=
  s.seen ++ s.output.map .byte ++ [.value statusOffset s.statusWord] ++ [.value resultOffset s.resultWord]

/-- With the output taken, the host reads STATUS, finds nothing to drain and reads RESULT (rules R155, R373). -/
theorem stepN_hostSettle_drained {s : State} {rest : List Move} (hb : s.busy = false) (hd : s.doneFlag = true)
    (ho : s.output = []) (ha : s.agenda = hostSettle ++ rest) :
    stepN 3 s = .next { s with
      agenda := rest
      seen := s.seen ++ [.value statusOffset s.statusWord] ++ [.value resultOffset s.resultWord] } := by
  have hwait : step s = .next { s with
      agenda := .drainAll :: .read resultOffset .word :: rest, seen := s.seen ++ [.value statusOffset s.statusWord] } :=
    step_of_answer (fetch_waitDone_done ha ho hb hd)
  have hdrain : step { s with
      agenda := .drainAll :: .read resultOffset .word :: rest, seen := s.seen ++ [.value statusOffset s.statusWord] } =
      .next { s with
        agenda := .read resultOffset .word :: rest, seen := s.seen ++ [.value statusOffset s.statusWord] } :=
    step_of_answer (fetch_drainAll_empty rfl ho)
  rw [stepN_add ((stepN_one s).trans hwait) 2, stepN_add ((stepN_one _).trans hdrain) 1, stepN_one]
  exact step_read rfl rfl

/-- Settling a command that has ended takes its output and reads RESULT, and changes nothing else (rule R373). -/
theorem stepN_hostSettle {s : State} {rest : List Move} (hb : s.busy = false) (hd : s.doneFlag = true)
    (ha : s.agenda = hostSettle ++ rest) :
    stepN (s.output.length + 3) s = .next { s with agenda := rest, output := [], seen := s.settledSeen } :=
  (stepN_add (stepN_waitDone_pops ha) 3).trans
    (stepN_hostSettle_drained (s := { s with output := [], seen := _ }) hb hd rfl ha)

theorem ResultCode.code_ne_zero {c : ResultCode} (h : c ≠ .none) : c.code ≠ 0#4 := by
  cases c with
  | none => exact absurd rfl h
  | _ => decide

/-- The codes up to 7 are those of the endings without an error (rule R44). -/
theorem ResultCode.code_le_seven (c : ResultCode) : c.code.toNat ≤ 7 ↔ ¬ (c = .error ∨ c = .illegalCommand) := by
  cases c <;> decide

/-- Having settled a command the host keeps all of its output, or none if it failed (rules R299, R383). -/
theorem hostKeeps_settledSeen {s : State} {earlier later : List Seen} {w : Word} (hr : s.result.code ≠ .none)
    (hseen : s.seen = earlier ++ .issued w :: later) (hlast : ∀ v, .issued v ∉ later) :
    hostKeeps s.settledSeen = hostKeeps earlier ++
      if s.result.code = .error ∨ s.result.code = .illegalCommand then [] else s.commandOutput := by
  have hsettled : s.settledSeen = earlier ++ .issued w ::
      ((later ++ s.output.map .byte ++ [.value statusOffset s.statusWord]) ++ [.value resultOffset s.resultWord]) := by
    simp [State.settledSeen, hseen]
  have hpopped : poppedSinceIssue (earlier ++ .issued w ::
      (later ++ s.output.map .byte ++ [.value statusOffset s.statusWord])) = s.commandOutput := by
    rw [← List.cons_append, ← List.cons_append, ← List.append_assoc, ← List.append_assoc, ← hseen,
      poppedSinceIssue_value, poppedSinceIssue_bytes, State.commandOutput]
  have hnone : ∀ v, .issued v ∉ later ++ s.output.map .byte ++ [.value statusOffset s.statusWord] := by
    simp [hlast]
  rw [hsettled, hostKeeps_result _ _ _ _ hnone (by rw [State.resultWord_code]; exact ResultCode.code_ne_zero hr),
    State.resultWord_code, hpopped]
  simp only [ResultCode.code_le_seven, ite_not]

/-- Settles O58: a step that raises an error by `step_error`, the command's output from its acceptance on by
`step_pushedOrDone`, the host's part by `hostKeeps_settledSeen`. -/
theorem errorsPushNothing : Obligations.ErrorsPushNothing := by
  refine ⟨fun s t h ht hs => step_error h ht hs, fun s t w rest hb ha h ht => step_accepted_pushed hb ha h ht,
    fun s t before hs hb hp h => ?_, fun s rest earlier later w hb hd hr ha hseen hlast => ?_⟩
  · have hpushed := step_pushedOrDone hs hb hp h
    refine ⟨fun ht => hpushed.resolve_right fun hdone => ?_, fun ht herr => ?_⟩
    · cases ht.symm.trans hdone.1
    · exact (hpushed.resolve_right fun hdone => hdone.2 herr).failed ((stepKeepsInvariant s t hs h).idle ht)
  · exact ⟨_, stepN_hostSettle hb hd ha, rfl, hostKeeps_settledSeen hr hseen hlast⟩

end Sys2Proof.Machine
end

section
/-! SUPPORT. The exceptions' statements (spec/60_exceptions.md): the CMD write while a command runs (rule R333), and exactly
where the engine makes no step (rules R354, R355). -/

namespace Sys2Proof.Machine

/-- Settles O27: every word written to CMD while BUSY is an overrun, by `step_command_busy`. -/
theorem commandWriteWhileBusy : Obligations.CommandWriteWhileBusy := fun _ _ _ hb ha => step_command_busy hb ha

/-! ### Where the engine holds (rules R354, R355) -/

/-- A push that is followed by the engine's work holds exactly when there is no room: the work does not touch the byte
pushed (rules R12, R102). -/
theorem State.outPush_self_iff {s : State} {b : Byte} {rest : State → State} (hrest : ∀ u, EngineWork u (rest u)) :
    s.outPush b rest = .next s ↔ s.params.outDepth ≤ s.output.length := by
  rw [← Nat.not_lt, ← State.outputRoom_iff]
  refine ⟨fun h ho => ?_, fun ho => State.outPush_full b rest (Bool.eq_false_iff.2 ho)⟩
  rw [State.outPush_room b rest ho] at h
  have hout := (hrest { s with output := s.output ++ [b] }).output
  rw [Host.Outcome.next.inj h] at hout
  simp at hout

/-- In a state that emits the engine has a byte to push, since its cursor stands in what it emits (rules R68, R260,
R290). -/
theorem State.Inv.step_emits {s : State} (hs : s.Inv) (ha : s.agenda = []) (he : s.estate.emits = true) :
    ∃ b rest, step s = s.outPush b rest ∧ ∀ u, EngineWork u (rest u) := by
  cases hstate : s.estate with
  | emitSeg =>
    obtain ⟨payload, hp⟩ := hs.record.recordPayload hstate hs.held
    obtain ⟨-, -, -, hcursor⟩ := hs.record hstate
    obtain ⟨b, hb⟩ := recordByte_isSome s.segMarker s.segOffset (State.recordPayload_length hp) hcursor
    refine ⟨b, _, ?_, fun u => .recordStep u s.segSize⟩
    rw [step_of_run ((fetch_nil ha).trans ((engineTurn_emitSeg hstate).trans (State.fetchRecord_payload hp))),
      exec_segmentRecord_some hb]
  | emitIcc =>
    obtain ⟨hlo, hhi, hin⟩ := hs.profile hstate
    obtain ⟨b, hb, -⟩ := profileRest_cons hlo (State.profileSlots_getElem? hlo hhi) hin
    refine ⟨b, _, ?_, fun u => .emitFrom u s.profileSlots s.eslot.toNat (s.eidx.toNat + 1)⟩
    rw [step_of_run ((fetch_nil ha).trans (engineTurn_emitIcc hstate)), exec_iccProfileOut_some hb]
  | _ => rw [hstate] at he; cases he

/-- A step in a state that reads takes the item at the head of the input channel, whatever the item is (rule R13). -/
theorem step_reads_input {s t : State} {item : Item} {items : List Item} (ha : s.agenda = [])
    (hr : s.estate.reads = true) (hi : s.input = item :: items) (h : step s = .next t) : t.input = items := by
  obtain ⟨-, -, hbyte, hend, hfault⟩ := readByteItems s ha hr
  cases item with
  | byte v => exact (hbyte v items t hi h).2
  | endOfStream => rw [hend items hi] at h; cases h; rfl
  | fault c => rw [hfault c items hi] at h; cases h; rfl

/-- A state that reads holds exactly on an empty input channel (rules R13, R355). -/
theorem step_reads_self_iff {s : State} (ha : s.agenda = []) (hr : s.estate.reads = true) :
    step s = .next s ↔ s.input = [] := by
  obtain ⟨-, hempty, -⟩ := readByteItems s ha hr
  refine ⟨fun h => ?_, hempty⟩
  by_contra hne
  obtain ⟨item, items, hi⟩ := List.exists_cons_of_ne_nil hne
  exact List.cons_ne_self item items (hi.symm.trans (step_reads_input ha hr hi h))

/-- ASSEMBLE always leaves for another state (rules R250, R301). -/
theorem State.fetchChunk_estate {s t : State} (h : s.fetchChunk.outcome = .next t) :
    t.estate ∈ EState.successors .assemble := by
  unfold State.fetchChunk at h
  split at h
  · cases h
  · split at h
    · obtain ⟨seq, cnt, payload, rfl, -⟩ := decodeChunk_instr ‹_›
      cases h; exact s.assemble_estate seq cnt payload
    · cases h; simp [EState.successors]

/-- ASSEMBLE never holds (rules R250, R355). -/
theorem step_assemble_ne_self {s : State} (ha : s.agenda = []) (he : s.estate = .assemble) : step s ≠ .next s := by
  rw [step_eq_outcome, fetch_nil ha, engineTurn_assemble he]
  intro h
  have hmem := State.fetchChunk_estate h
  rw [he] at hmem
  exact absurd hmem (by decide)

/-- Settles O53: IDLE does nothing, the states that read hold by `step_reads_self_iff`, those that emit by
`State.outPush_self_iff`, and ASSEMBLE never. -/
theorem engineHoldsExactly : Obligations.EngineHoldsExactly := by
  intro s hs ha
  cases he : s.estate with
  | idle => simpa using step_of_answer ((fetch_nil ha).trans (engineTurn_idle he))
  | assemble => simpa [EState.reads, EState.emits] using step_assemble_ne_self ha he
  | emitSeg | emitIcc =>
    obtain ⟨b, rest, hstep, hrest⟩ := hs.step_emits ha (by rw [he]; rfl)
    simpa [EState.reads, EState.emits, hstep] using State.outPush_self_iff hrest
  | _ => simpa [EState.reads, EState.emits] using step_reads_self_iff ha (by rw [he]; rfl)

end Sys2Proof.Machine
end
